-- ==== Sys2Proof/Word.lean ====
section
/-! DEFINITION. The widths the spec settles (R9 of 00_scope.md, R60 of 30_encoding.md). -/

namespace Sys2Proof

/-- An 8-bit value: a file byte, a raster sample, a register address (R9, R12). -/
abbrev Byte := BitVec 8

/-- A 16-bit value: an image width or height (R65). -/
abbrev Half := BitVec 16

/-- A 32-bit value: a command word, a write-data word, a register, a sequence number (R9, R19, R60). -/
abbrev Word := BitVec 32

/-- A 64-bit value: a stream identifier, a file length, a declared size (R9). -/
abbrev DWord := BitVec 64

/-- One image: its raster samples in row-major order (R16). -/
abbrev Image := List Byte

end Sys2Proof
end

