-- ==== Sys2Proof/Machine/Operands.lean ====
section
/-! DEFINITION. The fields of a command and of its write data (R62 to R65), and the two halves of a 64-bit quantity that
registers expose as a `_LO`, `_HI` pair (R20, R138, D28). No field is sign-extended, scaled or shifted (R65). -/

namespace Sys2Proof.Machine

/-- `op`, bits 31:24 of the command word (R62 to R64, R66). -/
def opField (cmd : Word) : Byte := cmd.extractLsb' 24 8

/-- `addr` or `byte`, bits 7:0 of the command word (R63, R64, R65). -/
def lowByte (cmd : Word) : Byte := cmd.extractLsb' 0 8

/-- The reserved field of format Z, bits 23:0 (R62). -/
def reservedZ (cmd : Word) : BitVec 24 := cmd.extractLsb' 0 24

/-- The reserved field of formats A and B, bits 23:8 (R63, R64). -/
def reservedAB (cmd : Word) : Half := cmd.extractLsb' 8 16

/-- `W`, the image width, bits 31:16 of the write data (R65). -/
def widthField (wdata : Word) : Half := wdata.extractLsb' 16 16

/-- `H`, the image height, bits 15:0 of the write data (R65). -/
def heightField (wdata : Word) : Half := wdata.extractLsb' 0 16

/-- Bits 31:0 of a 64-bit quantity (R20). -/
def lowHalf (v : DWord) : Word := v.extractLsb' 0 32

/-- Bits 63:32 of a 64-bit quantity (R20). -/
def highHalf (v : DWord) : Word := v.extractLsb' 32 32

/-- Two words as one 64-bit quantity, the first in bits 63:32 (R11, R138). -/
def joinHalves (hi lo : Word) : DWord := (hi.setWidth 64 <<< 32) ||| lo.setWidth 64

/-- Write bits 31:0 and keep bits 63:32 (R138). -/
def setLowHalf (v : DWord) (w : Word) : DWord := joinHalves (highHalf v) w

/-- Write bits 63:32 and keep bits 31:0 (R138). -/
def setHighHalf (v : DWord) (w : Word) : DWord := joinHalves w (lowHalf v)

end Sys2Proof.Machine
end

