-- ==== Sys2Proof/Config.lean ====
section
/-! DEFINITION. The parameters an implementation fixes (section 4 of 00_scope.md, D6 to D8). The three constants of this
file have no body: nothing in Lean can evaluate them or prove a value of them beyond their range. -/

namespace Sys2Proof

/-- The elaboration-time parameters of one block (R6, R8). A state carries them, so that a claim is about every legal
choice; no step changes them (notes/assumptions/2.md). -/
structure Params where
  /-- `N`, the side of the square raster in samples (R6). -/
  n : Nat
  /-- `DEC_MAX_IMAGES`, the number of chunks the decoder can hold (R8). -/
  maxImages : Nat
  deriving DecidableEq, Repr

/-- The legal ranges of R6 and R8. -/
abbrev Params.Legal (p : Params) : Prop :=
  4 ≤ p.n ∧ p.n ≤ 65535 ∧ 1 ≤ p.maxImages ∧ p.maxImages ≤ 2 ^ 32 - 1

/-- OPEN (D7): how far `N` lies above its least value 4; `N` is 4 to 65535. -/
opaque Config.sideAboveLeast : Fin 65532

/-- OPEN (D8): how far `DEC_MAX_IMAGES` lies above its least value 1; it is 1 to `2^32 - 1`. -/
opaque Config.maxImagesAboveLeast : Fin 4294967295

/-- OPEN (D6, I7): `HOST_BASE`, where the block sits in a host's address space. No rule reads it, and so no definition
of this model does (notes/assumptions/13.md). -/
opaque Config.hostBase : Nat

/-- The parameters of the block that `State.reset` describes. DESIGN CHOICE: any legal pair, its values not known to any
proof (notes/assumptions/2.md; safe). -/
def Config.params : Params where
  n := 4 + Config.sideAboveLeast.val
  maxImages := 1 + Config.maxImagesAboveLeast.val

end Sys2Proof
end

