-- ==== Sys2Proof/Syntax.lean ====
section
/-! DEFINITION. The commands: one constructor per row of spec/opcode_table.json, with the operands R65 assembles from the
command word and, for `WR` and `DEC_IMG_BEGIN` only, from the write-data word. The operand types hold exactly the values
the encoding admits, so every term is a well-formed command. -/

namespace Sys2Proof

/-- A command of the block (R66). -/
inductive Instr where
  /-- `NOP` (R136). -/
  | nop
  /-- `RD addr` (R137). -/
  | rd (addr : Byte)
  /-- `WR addr, wdata` (R138). -/
  | wr (addr : Byte) (value : Word)
  /-- `ENC_START` (R103). -/
  | encStart
  /-- `ENC_PUSH byte` (R104). -/
  | encPush (byte : Byte)
  /-- `ENC_CLEAR` (R105). -/
  | encClear
  /-- `DEC_START` (R121). -/
  | decStart
  /-- `DEC_IMG_BEGIN W, H`: the width and height the external image codec reports (R122). -/
  | decImgBegin (width height : Half)
  /-- `DEC_SAMPLE byte` (R123). -/
  | decSample (byte : Byte)
  /-- `DEC_FINALIZE` (R125). -/
  | decFinalize
  /-- `DEC_CLEAR` (R126). -/
  | decClear
  deriving DecidableEq, Repr

end Sys2Proof
end

