-- ==== Sys2Proof/WellFormed.lean ====
section
/-! DEFINITION. Which command words are well formed: the match and mask table of R67, written apart from the decoder
(which follows the pseudocode of R68), so that the two check each other. A term of `Instr` needs no check: its operand
types hold exactly the values the encoding admits. -/

namespace Sys2Proof

/-- One row of the match and mask table (R67). -/
structure OpcodeRow where
  mnemonic : String
  pattern : Word
  mask : Word
  deriving DecidableEq, Repr

/-- The match and mask table (R67). -/
def opcodeRows : List OpcodeRow :=
  [ ⟨"NOP", 0x00000000, 0xFFFFFFFF⟩,
    ⟨"RD", 0x01000000, 0xFFFFFF00⟩,
    ⟨"WR", 0x02000000, 0xFFFFFF00⟩,
    ⟨"ENC_START", 0x10000000, 0xFFFFFFFF⟩,
    ⟨"ENC_PUSH", 0x11000000, 0xFFFFFF00⟩,
    ⟨"ENC_CLEAR", 0x1F000000, 0xFFFFFFFF⟩,
    ⟨"DEC_START", 0x20000000, 0xFFFFFFFF⟩,
    ⟨"DEC_IMG_BEGIN", 0x21000000, 0xFFFFFFFF⟩,
    ⟨"DEC_SAMPLE", 0x22000000, 0xFFFFFF00⟩,
    ⟨"DEC_FINALIZE", 0x23000000, 0xFFFFFFFF⟩,
    ⟨"DEC_CLEAR", 0x2F000000, 0xFFFFFFFF⟩ ]

/-- The row's test on a command word, `(cmd & mask) = match` (R67). -/
def OpcodeRow.spells (r : OpcodeRow) (cmd : Word) : Bool := cmd &&& r.mask == r.pattern

/-- A command word is well formed when some row of the table matches it; every other word is illegal (R68). -/
def commandWellFormed (cmd : Word) : Bool := opcodeRows.any fun r => r.spells cmd

end Sys2Proof
end

