-- ==== Sys2Proof/Decode.lean ====
section
/-! DEFINITION. The decoder of command words, total, rejecting by name (R60 to R69), and after it the encoder, written
from the same formats (R62 to R64, R71). -/

namespace Sys2Proof

open Sys2Proof.Machine

/-- The 11 defined opcodes (R66). -/
inductive Opcode where
  | nop | rd | wr | encStart | encPush | encClear | decStart | decImgBegin | decSample | decFinalize | decClear
  deriving DecidableEq, Repr

/-- The three formats of a command word (R62 to R64). -/
inductive Format where
  | z | a | b
  deriving DecidableEq, Repr

/-- Why a word is illegal (R68). -/
inductive IllegalWord where
  /-- Bits 31:24 are one of the 245 reserved opcode values. -/
  | reservedOpcode (op : Byte)
  /-- The opcode is defined and a bit of its format's reserved field is not 0. -/
  | reservedField (op : Opcode)
  deriving DecidableEq, Repr

/-- What the host puts on the command port for one command (R60). -/
structure Transaction where
  cmd : Word
  wdata : Word
  deriving DecidableEq, Repr

/-- Every defined opcode, in the order of R66. -/
def Opcode.all : List Opcode :=
  [.nop, .rd, .wr, .encStart, .encPush, .encClear, .decStart, .decImgBegin, .decSample, .decFinalize, .decClear]

/-- The opcode map (R66). -/
def Opcode.code : Opcode → Byte
  | .nop => 0x00
  | .rd => 0x01
  | .wr => 0x02
  | .encStart => 0x10
  | .encPush => 0x11
  | .encClear => 0x1F
  | .decStart => 0x20
  | .decImgBegin => 0x21
  | .decSample => 0x22
  | .decFinalize => 0x23
  | .decClear => 0x2F

/-- The mnemonic of each opcode (R66). -/
def Opcode.mnemonic : Opcode → String
  | .nop => "NOP"
  | .rd => "RD"
  | .wr => "WR"
  | .encStart => "ENC_START"
  | .encPush => "ENC_PUSH"
  | .encClear => "ENC_CLEAR"
  | .decStart => "DEC_START"
  | .decImgBegin => "DEC_IMG_BEGIN"
  | .decSample => "DEC_SAMPLE"
  | .decFinalize => "DEC_FINALIZE"
  | .decClear => "DEC_CLEAR"

/-- The format of each opcode (R62 to R64, R66). -/
def Opcode.format : Opcode → Format
  | .nop | .encStart | .encClear | .decStart | .decImgBegin | .decFinalize | .decClear => .z
  | .rd | .wr => .a
  | .encPush | .decSample => .b

/-- The opcode a byte spells, if it is a defined one (R66, R68). -/
def opcodeOfByte (b : Byte) : Option Opcode := Opcode.all.find? fun op => op.code == b

/-- Whether the format's reserved field is all zeros (R62 to R64, R68). -/
def reservedClear : Format → Word → Bool
  | .z, cmd => reservedZ cmd == 0
  | .a, cmd | .b, cmd => reservedAB cmd == 0

/-- Operand assembly (R65): the write data is read by `WR` and `DEC_IMG_BEGIN` alone and ignored by the others (R69). -/
def assembleOperands (op : Opcode) (cmd wdata : Word) : Instr :=
  match op with
  | .nop => .nop
  | .rd => .rd (lowByte cmd)
  | .wr => .wr (lowByte cmd) wdata
  | .encStart => .encStart
  | .encPush => .encPush (lowByte cmd)
  | .encClear => .encClear
  | .decStart => .decStart
  | .decImgBegin => .decImgBegin (widthField wdata) (heightField wdata)
  | .decSample => .decSample (lowByte cmd)
  | .decFinalize => .decFinalize
  | .decClear => .decClear

/-- Decoding a transaction, before any engine state is read (R68). -/
def decode (cmd wdata : Word) : Except IllegalWord Instr :=
  match opcodeOfByte (opField cmd) with
  | none => .error (.reservedOpcode (opField cmd))
  | some op =>
    if reservedClear op.format cmd then .ok (assembleOperands op cmd wdata) else .error (.reservedField op)

/-- The opcode of a command (R66). -/
def opcodeOf : Instr → Opcode
  | .nop => .nop
  | .rd _ => .rd
  | .wr _ _ => .wr
  | .encStart => .encStart
  | .encPush _ => .encPush
  | .encClear => .encClear
  | .decStart => .decStart
  | .decImgBegin _ _ => .decImgBegin
  | .decSample _ => .decSample
  | .decFinalize => .decFinalize
  | .decClear => .decClear

/-- Bits 7:0 of a command's word: its address or byte operand, zeros in format Z (R62 to R64). -/
def operandByte : Instr → Byte
  | .rd addr | .wr addr _ => addr
  | .encPush byte | .decSample byte => byte
  | .nop | .encStart | .encClear | .decStart | .decImgBegin _ _ | .decFinalize | .decClear => 0

/-- The write data of a command, 0 wherever the command ignores it (R71). -/
def wdataOf : Instr → Word
  | .wr _ value => value
  | .decImgBegin width height => (width.setWidth 32 <<< 16) ||| height.setWidth 32
  | .nop | .rd _ | .encStart | .encPush _ | .encClear | .decStart | .decSample _ | .decFinalize | .decClear => 0

/-- The transaction of a command: the opcode in bits 31:24 or-ed with the byte operand in bits 7:0 (R62 to R66, R71). -/
def encode (i : Instr) : Transaction where
  cmd := ((opcodeOf i).code.setWidth 32 <<< 24) ||| (operandByte i).setWidth 32
  wdata := wdataOf i

/-- What the decoder reads from an instruction whose bits are `w`: bits 31:0 are the command word and the bits above them
the write-data word; every bit above `nbits` is 0 (notes/assumptions/5.md). -/
def decodeTableWord (nbits w : Nat) : Option Instr :=
  match decode (BitVec.ofNat 32 (w % 2 ^ nbits)) (BitVec.ofNat 32 (w % 2 ^ nbits / 2 ^ 32)) with
  | .ok i => some i
  | .error _ => none

end Sys2Proof
end

