-- ==== Sys2Proof/Machine/Geometry.lean ====
section
/-! DEFINITION. The image geometry: the derived constants of R7 and the raster positions of R16 and R44. -/

namespace Sys2Proof.Machine

/-- `HB`, header bytes per image (R7). -/
def headerBytes : Nat := 12

/-- `S`, samples per image (R7). -/
def imageSamples (p : Params) : Nat := p.n * p.n

/-- `P`, payload bytes per image, the chunk size (R7, C3). -/
def chunkBytes (p : Params) : Nat := imageSamples p - headerBytes

/-- The raster capacity in bits (R7). -/
def imageCapacityBits (p : Params) : Nat := 8 * imageSamples p

/-- Payload bits per image: the capacity less the 96 header bits (R7). -/
def bitsPerImage (p : Params) : Nat := imageCapacityBits p - 96

/-- The raster row and column of sample `k`, for `k < S`: row-major (R16, R44; notes/assumptions/6.md). -/
def samplePosition (p : Params) (k : Nat) : Nat × Nat := (k / p.n, k % p.n)

/-- The sample index at a raster position, for a row and column below `N` (R44). A position outside does not exist. -/
def sampleAt (p : Params) (row col : Nat) : Option Nat :=
  if row < p.n ∧ col < p.n then some (row * p.n + col) else none

/-- `ceil(a / b)` for `b > 0`, exact (R10, K3). -/
def ceilDiv (a b : Nat) : Nat := (a + b - 1) / b

/-- The largest sequence number, `2^32 - 1` (R9, R91). -/
def maxSequence : Nat := 2 ^ 32 - 1

end Sys2Proof.Machine
end

