-- ==== Sys2Proof/Machine/State.lean ====
section
/-! DEFINITION. The state of the block (10_state.md), the outcomes a step can stop with, and the state after reset (R160).
Beside the block's own state stand what lies at its ports: the host's pending events, the replies given and the two
output channels (R31, R60; notes/assumptions/1.md and 3.md). -/

namespace Sys2Proof.Machine

/-- Run state of the encoder engine (R23, R27). -/
inductive EncState where
  | idle | run | done | error
  deriving DecidableEq, Repr

/-- Run state of the decoder engine (R24, R29). -/
inductive DecState where
  | idle | collect | inImage | done | error
  deriving DecidableEq, Repr

/-- Error codes (R140); codes 9 to 15 are never produced and have no constructor (notes/assumptions/10.md). -/
inductive ErrorCode where
  /-- 0: no error. -/
  | noError
  /-- 1: framed byte count below 8. -/
  | malformedStream
  /-- 2: declared size exceeds the available bytes. -/
  | truncationError
  /-- 3: no images found. -/
  | emptySequence
  /-- 4: sequence numbers not a dense range from 1, or duplicated. -/
  | sequenceIntegrityError
  /-- 5: raster dimensions differ from `N x N`. -/
  | dimensionMismatch
  /-- 6: strict mode, identifier differs from the first-seen one. -/
  | streamIdentifierMismatch
  /-- 7: more than `2^32 - 1` images needed, or more than `DEC_MAX_IMAGES` delivered. -/
  | capacityOverflow
  /-- 8: a command not legal in the engine's state. -/
  | protocolError
  deriving DecidableEq, Repr

/-- Response codes (R61); code 3 is never returned and has no constructor (notes/assumptions/10.md). -/
inductive Resp where
  | ok | error | illegal
  deriving DecidableEq, Repr

/-- What the block returns for one command (R60). -/
structure Reply where
  resp : Resp
  rdata : Word
  deriving DecidableEq, Repr

/-- What the host can do to the block between two commands (R153): issue a command (R60) or assert reset (R161). -/
inductive HostEvent where
  | command (cmd wdata : Word)
  | reset
  deriving DecidableEq, Repr

/-- The host registers behind the map (R26). -/
structure HostRegs where
  /-- `ctrl_strict`, CTRL.STRICT_ID (R22). -/
  ctrlStrict : Bool
  /-- `enc_id_reg`. -/
  encIdReg : DWord
  /-- `enc_len_reg`. -/
  encLenReg : DWord
  deriving DecidableEq, Repr

/-- The encoder engine's internal state (R27). -/
structure Encoder where
  state : EncState
  err : ErrorCode
  /-- Stream identifier latched at `ENC_START`. -/
  id : DWord
  /-- File length latched at `ENC_START`. -/
  len : DWord
  /-- File bytes still to be pushed. -/
  rem : DWord
  /-- Images the run needs. -/
  total : Word
  /-- Images emitted in this run. -/
  emitted : Word
  /-- Framed bytes of the chunk being filled. -/
  buf : List Byte
  deriving DecidableEq, Repr

/-- The decoder engine's internal state (R29). -/
structure Decoder where
  state : DecState
  err : ErrorCode
  /-- `CTRL.STRICT_ID` latched at `DEC_START`. -/
  strict : Bool
  /-- A first image has completed in this run. -/
  refValid : Bool
  /-- Stream identifier of the first completed image. -/
  refId : DWord
  /-- Images completed and stored in this run. -/
  count : Word
  /-- Sequence number of the last completed image. -/
  lastSeq : Word
  /-- The chunk store, in arrival order. -/
  pairs : List (Word × List Byte)
  /-- Samples received of the image in progress. -/
  scnt : Word
  /-- Stream identifier assembled from samples 0 to 7. -/
  curId : DWord
  /-- Sequence number assembled from samples 8 to 11. -/
  curSeq : Word
  /-- Payload samples of the image in progress. -/
  curChunk : List Byte
  /-- Declared size of the last successful `DEC_FINALIZE`. -/
  size : DWord
  deriving DecidableEq, Repr

/-- The state: the parameters, the host registers, the two engines, and what stands at the ports. -/
structure State where
  /-- The block's parameters (R6, R8), which no step changes. -/
  params : Params
  host : HostRegs
  enc : Encoder
  dec : Decoder
  /-- The host's events not yet taken, oldest first. -/
  inbox : List HostEvent
  /-- The replies given, oldest first, one per completed command. -/
  replies : List Reply
  /-- `ENC_OUT`, oldest first (R31). -/
  encOut : List Image
  /-- `DEC_OUT`, oldest first (R31). -/
  decOut : List (List Byte)
  deriving DecidableEq, Repr

/-- Reasons to stop. There are none: every word answers a response and leaves a defined state (R61, R68, R141), so no
step raises a fault (notes/assumptions/12.md; safe). -/
inductive Fault where
  deriving DecidableEq, Repr

/-- Reasons to give an instruction no meaning. -/
inductive Refusal where
  /-- Raised only by an arm of `exec` whose instruction has no meaning yet; no arm is such a one. Safe. -/
  | notModelled (mnemonic : String)
  deriving DecidableEq, Repr

/-- The host registers after reset (R160). -/
def HostRegs.reset : HostRegs where
  ctrlStrict := false
  encIdReg := 0
  encLenReg := 0

/-- The encoder's fields after reset (R27's reset column, R160). -/
def Encoder.reset : Encoder where
  state := .idle
  err := .noError
  id := 0
  len := 0
  rem := 0
  total := 0
  emitted := 0
  buf := []

/-- The decoder's fields after reset (R29's reset column, R160). -/
def Decoder.reset : Decoder where
  state := .idle
  err := .noError
  strict := false
  refValid := false
  refId := 0
  count := 0
  lastSeq := 0
  pairs := []
  scnt := 0
  curId := 0
  curSeq := 0
  curChunk := []
  size := 0

/-- A block of the given parameters right after its first reset, with nothing at its ports (R160). -/
def State.resetOf (p : Params) : State where
  params := p
  host := HostRegs.reset
  enc := Encoder.reset
  dec := Decoder.reset
  inbox := []
  replies := []
  encOut := []
  decOut := []

/-- The machine right after reset: the parameters are the OPEN ones of `Config` (R160, D7, D8). -/
def State.reset : State := State.resetOf Config.params

end Sys2Proof.Machine
end

