-- ==== Sys2Proof/Machine/Codec.lean ====
section
/-! DEFINITION. The pure functions of 40_codec_framing.md: the bit codec, framing, chunks and headers, the reference
encoder and the reference reassembler. All arithmetic is on unbounded naturals and exact (R99). -/

namespace Sys2Proof.Machine

/-! ## Big-endian integers -/

/-- `be_n(v)`: the `n` bytes of `v`, most significant first (R14). -/
def beBytes (n v : Nat) : List Byte :=
  (List.range n).map fun i => BitVec.ofNat 8 (v / 256 ^ (n - 1 - i))

/-- `from_be(bs)`, the sum of `bs[i] * 256^(|bs|-1-i)` (R14). -/
def fromBe : List Byte → Nat
  | [] => 0
  | b :: bs => b.toNat * 256 ^ bs.length + fromBe bs

/-- `zeros(n)` (R12). -/
def zeroBytes (n : Nat) : List Byte := List.replicate n 0

/-- `range1(K)`, the naturals 1 to `K` (R12). -/
def rangeFromOne (k : Nat) : List Nat := (List.range k).map (· + 1)

/-! ## The bit codec -/

/-- `sampleToBits`, most significant bit first (R82). -/
def sampleToBits (b : Byte) : List Bool :=
  [b.getLsbD 7, b.getLsbD 6, b.getLsbD 5, b.getLsbD 4, b.getLsbD 3, b.getLsbD 2, b.getLsbD 1, b.getLsbD 0]

/-- `bytesToBits` (R80, R40). -/
def bytesToBits (bs : List Byte) : List Bool := bs.flatMap sampleToBits

/-- The natural number a bit list spells, most significant bit first. -/
def natOfBits (bits : List Bool) : Nat := bits.foldl (fun acc b => 2 * acc + b.toNat) 0

/-- `bitsToSample`: 1 to 8 bits, right-padded with zero bits; no result for any other number of bits (R81, I9;
notes/assumptions/8.md). -/
def bitsToSample (bits : List Bool) : Option Byte :=
  if 1 ≤ bits.length ∧ bits.length ≤ 8 then
    some (BitVec.ofNat 8 (natOfBits (bits ++ List.replicate (8 - bits.length) false)))
  else none

/-- Group `g` of 8 bits (R83). -/
def bitGroup (bits : List Bool) (g : Nat) : List Bool := (bits.drop (8 * g)).take 8

/-- `bitsToBytes`: groups of 8 packed one after another (R83). No group below the count is empty, so none is left out. -/
def bitsToBytes (bits : List Bool) : List Byte :=
  (List.range (ceilDiv bits.length 8)).filterMap fun g => bitsToSample (bitGroup bits g)

/-- Stream bit `j` of a byte list, `bs[j / 8][7 - (j mod 8)]` (R13, R40). -/
def streamBit (bs : List Byte) (j : Nat) : Option Bool :=
  (bs[j / 8]?).map fun b => b.getLsbD (7 - j % 8)

/-! ## Size-prefixed framing -/

/-- `frame(file) = be_8(|file|) ++ file` (R84, R42). -/
def frame (file : List Byte) : List Byte := beBytes 8 file.length ++ file

/-- `unframe`: the declared size and the payload, or `MalformedStream` below 8 bytes (R85). -/
def unframe (fb : List Byte) : Except ErrorCode (DWord × List Byte) :=
  if fb.length < 8 then .error .malformedStream
  else .ok (BitVec.ofNat 64 (fromBe (fb.take 8)), fb.drop 8)

/-- `truncate`: the first `declaredSize` bytes, or `TruncationError` when there are fewer (R86). -/
def truncate (payload : List Byte) (declaredSize : DWord) : Except ErrorCode (List Byte) :=
  if payload.length < declaredSize.toNat then .error .truncationError
  else .ok (payload.take declaredSize.toNat)

/-! ## Chunks, headers and images -/

/-- `totalImages(L) = ceil((8 + L) / P)` (R87, C2). -/
def totalImages (p : Params) (len : Nat) : Nat := ceilDiv (8 + len) (chunkBytes p)

/-- `chunk(F, i)`, `i` from 1: framed bytes `(i-1)*P` to `i*P`, zero-padded to `P` bytes (R88, C1). -/
def chunk (p : Params) (f : List Byte) (i : Nat) : List Byte :=
  let c := (f.drop ((i - 1) * chunkBytes p)).take (chunkBytes p)
  c ++ zeroBytes (chunkBytes p - c.length)

/-- `header(streamId, seq) = be_8(streamId) ++ be_4(seq)` (R89, R41, R43). -/
def header (id : DWord) (seq : Word) : List Byte := beBytes 8 id.toNat ++ beBytes 4 seq.toNat

/-- `image(streamId, seq, c) = header(streamId, seq) ++ c` (R90, R43). -/
def image (id : DWord) (seq : Word) (c : List Byte) : Image := header id seq ++ c

/-- `encodeImages`, the reference encoder (R91). -/
def encodeImages (p : Params) (id : DWord) (file : List Byte) : Except ErrorCode (List Image) :=
  if totalImages p file.length > maxSequence then .error .capacityOverflow
  else .ok ((rangeFromOne (totalImages p file.length)).map fun i =>
    image id (BitVec.ofNat 32 i) (chunk p (frame file) i))

/-- `parseImage`: identifier, sequence number and chunk of an image (R92). -/
def parseImage (img : Image) : DWord × Word × List Byte :=
  (BitVec.ofNat 64 (fromBe (img.take 8)), BitVec.ofNat 32 (fromBe ((img.drop 8).take 4)), img.drop 12)

/-! ## Reassembly -/

/-- Put a number into an ascending list at its place. -/
def insertAscending (x : Nat) : List Nat → List Nat
  | [] => [x]
  | y :: ys => if x ≤ y then x :: y :: ys else y :: insertAscending x ys

/-- `sort(xs)`: naturals ascending (R12). -/
def sortAscending : List Nat → List Nat
  | [] => []
  | x :: xs => insertAscending x (sortAscending xs)

/-- `seqIntegrity(seqs)`: the sorted numbers are `1 .. K` (R93). -/
def seqIntegrity (seqs : List Word) : Bool :=
  sortAscending (seqs.map BitVec.toNat) == rangeFromOne seqs.length

/-- `c_j`: the chunk of the pair whose sequence number is `j` (R94), empty when there is none. -/
def chunkNumbered (pairs : List (Word × List Byte)) (j : Nat) : List Byte :=
  match pairs.find? fun sc => sc.1.toNat == j with
  | some sc => sc.2
  | none => []

/-- `decodeImages`, the reference reassembler, its checks in the source's order (R94). -/
def decodeImages (pairs : List (Word × List Byte)) : Except ErrorCode (List Byte) :=
  if pairs.length = 0 then .error .emptySequence
  else if seqIntegrity (pairs.map Prod.fst) = false then .error .sequenceIntegrityError
  else
    match unframe ((rangeFromOne pairs.length).flatMap (chunkNumbered pairs)) with
    | .error e => .error e
    | .ok (size, payload) => truncate payload size

end Sys2Proof.Machine
end

