-- ==== Sys2Proof/Machine/Ops.lean ====
section
/-! DEFINITION. The named operations every command is written with: the pseudocode primitives of R15, error entry and the
refusal of an engine in ERROR (R141, R146), the way out of an error (R147), reset (R160) and taking the host's next event
(R53). -/

namespace Sys2Proof.Machine

/-- `respond(r, d)`: the command completes with a response code and read data (R15, R60). -/
def respond (r : Resp) (d : Word) (s : State) : State :=
  { s with replies := s.replies ++ [⟨r, d⟩] }

/-- `illegal()`: `respond(ILLEGAL, 0)` with no other effect (R15, R68, R148). -/
def illegal (s : State) : State := respond .illegal 0 s

/-- `emit_image(img)`: append one image to `ENC_OUT` (R15, R31). -/
def emitImage (img : Image) (s : State) : State := { s with encOut := s.encOut ++ [img] }

/-- `emit_bytes(bs)`: append one byte-sequence event to `DEC_OUT` (R15, R31). -/
def emitBytes (bs : List Byte) (s : State) : State := { s with decOut := s.decOut ++ [bs] }

/-- `raise_enc(E)`: error entry of the encoder (R141). The argument is the state as it was before the command, so that
nothing the command wrote survives. -/
def raiseEnc (e : ErrorCode) (s : State) : State :=
  respond .error 0 { s with enc := { s.enc with state := .error, err := e } }

/-- `raise_dec(E)`: error entry of the decoder (R141), on the state as it was before the command. -/
def raiseDec (e : ErrorCode) (s : State) : State :=
  respond .error 0 { s with dec := { s.dec with state := .error, err := e } }

/-- A command other than its CLEAR to an engine in ERROR: `respond(ERROR, 0)` and no change (R146). -/
def engineInError (s : State) : State := respond .error 0 s

/-- Back from an encoder error, or from any run: the encoder at its reset values (R105, R147). -/
def clearEnc (s : State) : State := { s with enc := Encoder.reset }

/-- Back from a decoder error, or from any run: the decoder at its reset values (R126, R147). -/
def clearDec (s : State) : State := { s with dec := Decoder.reset }

/-- A command of the encoder under the legality table (R102, R144 items 2 and 3): refused in ERROR, `ProtocolError` where
the state is not legal for it, else its body. -/
def encoderCommand (legal : EncState → Bool) (body : State → State) (s : State) : State :=
  if s.enc.state = .error then engineInError s
  else if legal s.enc.state then body s
  else raiseEnc .protocolError s

/-- A command of the decoder under the legality table (R120, R144 items 2 and 3). -/
def decoderCommand (legal : DecState → Bool) (body : State → State) (s : State) : State :=
  if s.dec.state = .error then engineInError s
  else if legal s.dec.state then body s
  else raiseDec .protocolError s

/-- The reset event: every host register and engine field at its reset value; the parameters, what was emitted, the
replies given and the host's later events are not affected (R31, R160, R161; notes/assumptions/4.md). -/
def applyReset (s : State) : State :=
  { s with host := HostRegs.reset, enc := Encoder.reset, dec := Decoder.reset }

/-- Take the host's oldest pending event, if there is one (R53; notes/assumptions/1.md). -/
def takeEvent (s : State) : Option (HostEvent × State) :=
  match s.inbox with
  | [] => none
  | ev :: rest => some (ev, { s with inbox := rest })

/-- The host puts an event in front of those pending. -/
def placeEvent (ev : HostEvent) (s : State) : State := { s with inbox := ev :: s.inbox }

end Sys2Proof.Machine
end

