-- ==== Sys2Proof/Machine/Decoder.lean ====
section
/-! DEFINITION. The decoder commands of 42_decoder.md. -/

namespace Sys2Proof.Machine

/-- The states `DEC_START` executes in (R120). -/
def decStartLegal : DecState → Bool
  | .idle | .done => true
  | .collect | .inImage | .error => false

/-- The states `DEC_IMG_BEGIN` executes in (R120). -/
def decImgBeginLegal : DecState → Bool
  | .collect => true
  | .idle | .inImage | .done | .error => false

/-- The states `DEC_SAMPLE` executes in (R120). -/
def decSampleLegal : DecState → Bool
  | .inImage => true
  | .idle | .collect | .done | .error => false

/-- The states `DEC_FINALIZE` executes in (R120). -/
def decFinalizeLegal : DecState → Bool
  | .collect => true
  | .idle | .inImage | .done | .error => false

/-- `DEC_START` past its legality check: the strict bit is latched and the collection is empty (R121, R33). -/
def startDecoderRun (s : State) : State :=
  respond .ok 0 { s with dec := { Decoder.reset with state := .collect, strict := s.host.ctrlStrict } }

/-- `DEC_IMG_BEGIN` past its legality check (R122). -/
def beginImage (width height : Half) (s : State) : State :=
  if width.toNat ≠ s.params.n ∨ height.toNat ≠ s.params.n then raiseDec .dimensionMismatch s
  else
    respond .ok 0
      { s with dec := { s.dec with scnt := 0, curId := 0, curSeq := 0, curChunk := [], state := .inImage } }

/-- Where the next sample goes, by its row-major index `dec.scnt`: the identifier, the sequence number or the chunk
(R123, R43). -/
def takeSample (b : Byte) (d : Decoder) : Decoder :=
  if d.scnt.toNat < 8 then { d with curId := d.curId * 256 + b.setWidth 64 }
  else if d.scnt.toNat < 12 then { d with curSeq := d.curSeq * 256 + b.setWidth 32 }
  else { d with curChunk := d.curChunk ++ [b] }

/-- The decoder with its fully delivered image stored (R124). -/
def storeImage (d : Decoder) : Decoder :=
  { d with
    refId := if d.refValid then d.refId else d.curId
    refValid := true
    pairs := d.pairs ++ [(d.curSeq, d.curChunk)]
    count := d.count + 1
    lastSeq := d.curSeq
    scnt := 0
    state := .collect }

/-- `completeImage()` (R124): `d` is the working copy that holds the last sample; an error is raised on the state from
before the command (R141). The identifier is judged before the store's capacity (R144 item 5). -/
def completeImage (d : Decoder) (s : State) : State :=
  if d.strict = true ∧ d.refValid = true ∧ d.curId ≠ d.refId then raiseDec .streamIdentifierMismatch s
  else if d.count.toNat = s.params.maxImages then raiseDec .capacityOverflow s
  else respond .ok 0 { s with dec := storeImage d }

/-- `DEC_SAMPLE` past its legality check (R123). -/
def deliverSample (b : Byte) (s : State) : State :=
  if s.dec.scnt.toNat + 1 < imageSamples s.params then
    respond .ok 0 { s with dec := { takeSample b s.dec with scnt := s.dec.scnt + 1 } }
  else completeImage (takeSample b s.dec) s

/-- `B`: the chunks of sequence numbers 1 to `K`, one after another (R125). -/
def collectedBytes (pairs : List (Word × List Byte)) (k : Nat) : List Byte :=
  (rangeFromOne k).flatMap fun j =>
    pairs.flatMap fun sc => if sc.1.toNat = j then sc.2 else []

/-- The checks of `DEC_FINALIZE` in their order, and the declared size and the file when all pass (R125, R144 item 6). -/
def reassemble (p : Params) (d : Decoder) : Except ErrorCode (DWord × List Byte) :=
  let k := d.count.toNat
  let b := collectedBytes d.pairs k
  let size := fromBe (b.take 8)
  let payload := (b.take (k * chunkBytes p)).drop 8
  if k = 0 then .error .emptySequence
  else if sortAscending (d.pairs.map fun sc => sc.1.toNat) ≠ rangeFromOne k then .error .sequenceIntegrityError
  else if b.length < 8 then .error .malformedStream
  else if payload.length < size then .error .truncationError
  else .ok (BitVec.ofNat 64 size, payload.take size)

/-- `DEC_FINALIZE` past its legality check (R125). -/
def finalizeRun (s : State) : State :=
  match reassemble s.params s.dec with
  | .error e => raiseDec e s
  | .ok (size, file) =>
    respond .ok 0 (emitBytes file { s with dec := { s.dec with size := size, state := .done } })

/-- `DEC_START` (R121). -/
def execDecStart (s : State) : Host.Outcome State Fault Refusal :=
  .next (decoderCommand decStartLegal startDecoderRun s)

/-- `DEC_IMG_BEGIN W, H` (R122). -/
def execDecImgBegin (width height : Half) (s : State) : Host.Outcome State Fault Refusal :=
  .next (decoderCommand decImgBeginLegal (beginImage width height) s)

/-- `DEC_SAMPLE b` (R123). -/
def execDecSample (b : Byte) (s : State) : Host.Outcome State Fault Refusal :=
  .next (decoderCommand decSampleLegal (deliverSample b) s)

/-- `DEC_FINALIZE` (R125). -/
def execDecFinalize (s : State) : Host.Outcome State Fault Refusal :=
  .next (decoderCommand decFinalizeLegal finalizeRun s)

/-- `DEC_CLEAR` (R126): legal in every state. -/
def execDecClear (s : State) : Host.Outcome State Fault Refusal :=
  .next (respond .ok 0 (clearDec s))

end Sys2Proof.Machine
end

