-- ==== Sys2Proof/Machine/Encoder.lean ====
section
/-! DEFINITION. The encoder commands of 41_encoder.md. -/

namespace Sys2Proof.Machine

/-- The states `ENC_START` executes in (R102). -/
def encStartLegal : EncState → Bool
  | .idle | .done => true
  | .run | .error => false

/-- The states `ENC_PUSH` executes in (R102). -/
def encPushLegal : EncState → Bool
  | .run => true
  | .idle | .done | .error => false

/-- Emit the image of a full chunk under the next sequence number and empty the buffer (R100, R101). -/
def emitChunk (c : List Byte) (s : State) : State :=
  emitImage (image s.enc.id (s.enc.emitted + 1) c)
    { s with enc := { s.enc with emitted := s.enc.emitted + 1, buf := [] } }

/-- `appendByte(b)`: one framed byte, and the image when the chunk is full (R100). -/
def appendByte (s : State) (b : Byte) : State :=
  let buf := s.enc.buf ++ [b]
  if buf.length = chunkBytes s.params then emitChunk buf s
  else { s with enc := { s.enc with buf := buf } }

/-- `finish()`: the padded last image, if bytes are pending, and DONE (R101). -/
def finishRun (s : State) : State :=
  let closed :=
    if 0 < s.enc.buf.length then
      emitChunk (s.enc.buf ++ zeroBytes (chunkBytes s.params - s.enc.buf.length)) s
    else s
  { closed with enc := { closed.enc with state := .done } }

/-- What `ENC_START` latches and clears (R103, R32). -/
def latchEncoderRun (s : State) : State :=
  { s with enc :=
    { state := .run
      err := .noError
      id := s.host.encIdReg
      len := s.host.encLenReg
      rem := s.host.encLenReg
      total := BitVec.ofNat 32 (totalImages s.params s.host.encLenReg.toNat)
      emitted := 0
      buf := [] } }

/-- `ENC_START` past its legality check: `CapacityOverflow`, or the run with its size prefix appended (R103). -/
def startEncoderRun (s : State) : State :=
  if totalImages s.params s.host.encLenReg.toNat > maxSequence then raiseEnc .capacityOverflow s
  else
    let framed := (beBytes 8 s.host.encLenReg.toNat).foldl appendByte (latchEncoderRun s)
    respond .ok 0 (if s.host.encLenReg = 0 then finishRun framed else framed)

/-- `ENC_PUSH` past its legality check (R104). -/
def pushFileByte (b : Byte) (s : State) : State :=
  let pushed := appendByte { s with enc := { s.enc with rem := s.enc.rem - 1 } } b
  respond .ok 0 (if pushed.enc.rem = 0 then finishRun pushed else pushed)

/-- `ENC_START` (R103). -/
def execEncStart (s : State) : Host.Outcome State Fault Refusal :=
  .next (encoderCommand encStartLegal startEncoderRun s)

/-- `ENC_PUSH b` (R104). -/
def execEncPush (b : Byte) (s : State) : Host.Outcome State Fault Refusal :=
  .next (encoderCommand encPushLegal (pushFileByte b) s)

/-- `ENC_CLEAR` (R105): legal in every state. -/
def execEncClear (s : State) : Host.Outcome State Fault Refusal :=
  .next (respond .ok 0 (clearEnc s))

end Sys2Proof.Machine
end

