-- ==== Sys2Proof/Machine/Flags.lean ====
section
/-! DEFINITION. The numbers behind the names (states R23 and R24, error codes R140, responses R61) and the two status
words built from them. -/

namespace Sys2Proof.Machine

/-- `ENC_STATUS.STATE` (R23). -/
def encStateCode : EncState → BitVec 2
  | .idle => 0
  | .run => 1
  | .done => 2
  | .error => 3

/-- `DEC_STATUS.STATE` (R24); 5 to 7 are never read. -/
def decStateCode : DecState → BitVec 3
  | .idle => 0
  | .collect => 1
  | .inImage => 2
  | .done => 3
  | .error => 4

/-- The 4-bit error codes (R140, D32). -/
def errorCodeBits : ErrorCode → BitVec 4
  | .noError => 0
  | .malformedStream => 1
  | .truncationError => 2
  | .emptySequence => 3
  | .sequenceIntegrityError => 4
  | .dimensionMismatch => 5
  | .streamIdentifierMismatch => 6
  | .capacityOverflow => 7
  | .protocolError => 8

/-- The 2-bit response codes (R61). -/
def respCode : Resp → BitVec 2
  | .ok => 0
  | .error => 1
  | .illegal => 2

/-- `ENC_STATUS`: 31:8 reserved, 7:4 ERR, 3:2 reserved, 1:0 STATE (R23, R25). -/
def encStatusWord (e : Encoder) : Word :=
  ((errorCodeBits e.err).setWidth 32 <<< 4) ||| (encStateCode e.state).setWidth 32

/-- `DEC_STATUS`: 31:10 reserved, 9 REF_VALID, 8 STRICT, 7:4 ERR, 3 reserved, 2:0 STATE (R24, R25). -/
def decStatusWord (d : Decoder) : Word :=
  ((BitVec.ofBool d.refValid).setWidth 32 <<< 9) ||| ((BitVec.ofBool d.strict).setWidth 32 <<< 8) |||
    ((errorCodeBits d.err).setWidth 32 <<< 4) ||| (decStateCode d.state).setWidth 32

/-- `CTRL`: 31:1 reserved, 0 STRICT_ID (R22, R25). -/
def ctrlWord (strict : Bool) : Word := (BitVec.ofBool strict).setWidth 32

end Sys2Proof.Machine
end

