-- ==== Sys2Proof/Machine/Registers.lean ====
section
/-! DEFINITION. The host-visible register map (R19, R20): names, addresses, access rights, and the one operation that
reads a register and the one that writes it. -/

namespace Sys2Proof.Machine

/-- The mapped registers, in address order (R20). -/
inductive Reg where
  | paramVer | paramN | paramP | paramMaximg | ctrl
  | encIdLo | encIdHi | encLenLo | encLenHi | encStatus | encEmitted | encTotal | encRemLo | encRemHi | encFill
  | decStatus | decCount | decRefidLo | decRefidHi | decSizeLo | decSizeHi | decLastseq | decScnt
  deriving DecidableEq, Repr

/-- Access rights of a register (R20). -/
inductive Access where
  | readOnly | readWrite
  deriving DecidableEq, Repr

/-- Every mapped register (R20). -/
def Reg.all : List Reg :=
  [.paramVer, .paramN, .paramP, .paramMaximg, .ctrl,
   .encIdLo, .encIdHi, .encLenLo, .encLenHi, .encStatus, .encEmitted, .encTotal, .encRemLo, .encRemHi, .encFill,
   .decStatus, .decCount, .decRefidLo, .decRefidHi, .decSizeLo, .decSizeHi, .decLastseq, .decScnt]

/-- The address of a register (R20). -/
def regAddress : Reg → Byte
  | .paramVer => 0x00
  | .paramN => 0x01
  | .paramP => 0x02
  | .paramMaximg => 0x03
  | .ctrl => 0x04
  | .encIdLo => 0x08
  | .encIdHi => 0x09
  | .encLenLo => 0x0A
  | .encLenHi => 0x0B
  | .encStatus => 0x0C
  | .encEmitted => 0x0D
  | .encTotal => 0x0E
  | .encRemLo => 0x0F
  | .encRemHi => 0x10
  | .encFill => 0x11
  | .decStatus => 0x18
  | .decCount => 0x19
  | .decRefidLo => 0x1A
  | .decRefidHi => 0x1B
  | .decSizeLo => 0x1C
  | .decSizeHi => 0x1D
  | .decLastseq => 0x1E
  | .decScnt => 0x1F

/-- The register at an address; none at an unmapped one (R19, R20). -/
def regAt (addr : Byte) : Option Reg := Reg.all.find? fun r => regAddress r == addr

/-- Access rights (R20). -/
def regAccess : Reg → Access
  | .ctrl | .encIdLo | .encIdHi | .encLenLo | .encLenHi => .readWrite
  | .paramVer | .paramN | .paramP | .paramMaximg | .encStatus | .encEmitted | .encTotal | .encRemLo | .encRemHi
  | .encFill | .decStatus | .decCount | .decRefidLo | .decRefidHi | .decSizeLo | .decSizeHi | .decLastseq
  | .decScnt => .readOnly

/-- The value a register reads (R20 to R24). -/
def readReg (s : State) : Reg → Word
  | .paramVer => 1
  | .paramN => BitVec.ofNat 32 s.params.n
  | .paramP => BitVec.ofNat 32 (chunkBytes s.params)
  | .paramMaximg => BitVec.ofNat 32 s.params.maxImages
  | .ctrl => ctrlWord s.host.ctrlStrict
  | .encIdLo => lowHalf s.host.encIdReg
  | .encIdHi => highHalf s.host.encIdReg
  | .encLenLo => lowHalf s.host.encLenReg
  | .encLenHi => highHalf s.host.encLenReg
  | .encStatus => encStatusWord s.enc
  | .encEmitted => s.enc.emitted
  | .encTotal => s.enc.total
  | .encRemLo => lowHalf s.enc.rem
  | .encRemHi => highHalf s.enc.rem
  | .encFill => BitVec.ofNat 32 s.enc.buf.length
  | .decStatus => decStatusWord s.dec
  | .decCount => s.dec.count
  | .decRefidLo => lowHalf s.dec.refId
  | .decRefidHi => highHalf s.dec.refId
  | .decSizeLo => lowHalf s.dec.size
  | .decSizeHi => highHalf s.dec.size
  | .decLastseq => s.dec.lastSeq
  | .decScnt => s.dec.scnt

/-- The host registers after a write of `v` to a register: the bits the register holds are kept and the others ignored
(R25, R138); none for a register that is read-only. -/
def writeReg (h : HostRegs) (v : Word) : Reg → Option HostRegs
  | .ctrl => some { h with ctrlStrict := v.getLsbD 0 }
  | .encIdLo => some { h with encIdReg := setLowHalf h.encIdReg v }
  | .encIdHi => some { h with encIdReg := setHighHalf h.encIdReg v }
  | .encLenLo => some { h with encLenReg := setLowHalf h.encLenReg v }
  | .encLenHi => some { h with encLenReg := setHighHalf h.encLenReg v }
  | .paramVer | .paramN | .paramP | .paramMaximg | .encStatus | .encEmitted | .encTotal | .encRemLo | .encRemHi
  | .encFill | .decStatus | .decCount | .decRefidLo | .decRefidHi | .decSizeLo | .decSizeHi | .decLastseq
  | .decScnt => none

end Sys2Proof.Machine
end

