-- ==== Sys2Proof/Machine/HostAccess.lean ====
section
/-! DEFINITION. The host access commands of 43_register_access.md. -/

namespace Sys2Proof.Machine

/-- `NOP` (R136). -/
def execNop (s : State) : Host.Outcome State Fault Refusal := .next (respond .ok 0 s)

/-- `RD addr` (R137): the register's value, or ILLEGAL at an unmapped address; no side effect (R50). -/
def execRd (addr : Byte) (s : State) : Host.Outcome State Fault Refusal :=
  .next <|
    match regAt addr with
    | none => illegal s
    | some r => respond .ok (readReg s r) s

/-- `WR addr, wdata` (R138): ILLEGAL with no change at a read-only or unmapped address. -/
def execWr (addr : Byte) (value : Word) (s : State) : Host.Outcome State Fault Refusal :=
  .next <|
    match (regAt addr).bind (writeReg s.host value) with
    | none => illegal s
    | some h => respond .ok 0 { s with host := h }

end Sys2Proof.Machine
end

