-- ==== Sys2Proof/Machine/Dispatch.lean ====
section
/-! DEFINITION. Every command to its meaning, one arm per constructor of Instr. -/

namespace Sys2Proof.Machine

-- The meaning of each command of R66.
def exec (i : Instr) (s : State) : Host.Outcome State Fault Refusal :=
  match i with
  | .nop => Sys2Proof.Machine.execNop s
  | .rd addr => Sys2Proof.Machine.execRd addr s
  | .wr addr value => Sys2Proof.Machine.execWr addr value s
  | .encStart => Sys2Proof.Machine.execEncStart s
  | .encPush byte => Sys2Proof.Machine.execEncPush byte s
  | .encClear => Sys2Proof.Machine.execEncClear s
  | .decStart => Sys2Proof.Machine.execDecStart s
  | .decImgBegin width height => Sys2Proof.Machine.execDecImgBegin width height s
  | .decSample byte => Sys2Proof.Machine.execDecSample byte s
  | .decFinalize => Sys2Proof.Machine.execDecFinalize s
  | .decClear => Sys2Proof.Machine.execDecClear s

end Sys2Proof.Machine
end

