-- ==== Sys2Proof/Machine/Step.lean ====
section
/-! DEFINITION. One step: the host's oldest pending event, taken and completed (R49, R53). -/

namespace Sys2Proof.Machine

/-- One step. A command is decoded and executed, and an illegal word answered (R68); a reset is applied (R160); with no
event pending the block waits and nothing changes (notes/assumptions/1.md). -/
def step (s : State) : Host.Outcome State Fault Refusal :=
  match takeEvent s with
  | none => .next s
  | some (.reset, t) => .next (applyReset t)
  | some (.command cmd wdata, t) =>
    match decode cmd wdata with
    | .error _ => .next (illegal t)
    | .ok i => exec i t

/-- `s` with an instruction whose bits are `w` as the host's next command: bits 31:0 are the command word, the bits above
them the write data, and every bit above `nbits` is 0 (notes/assumptions/5.md). -/
def State.withFetchWord (s : State) (nbits w : Nat) : State :=
  placeEvent (.command (BitVec.ofNat 32 (w % 2 ^ nbits)) (BitVec.ofNat 32 (w % 2 ^ nbits / 2 ^ 32))) s

end Sys2Proof.Machine
end

