-- ==== Sys2Proof/Machine/Assembler.lean ====
section
/-! DEFINITION. The assembler syntax and the pseudo-commands of section 6 of 30_encoding.md (R71, R72): one line of text
to the transactions the host issues for it. What the spec leaves open of the text (blanks, letter case, ranges) is in
notes/assumptions/14.md. -/

namespace Sys2Proof.Machine

/-! ## Lines -/

/-- A register operand: its name from R20, or its address (R71). -/
inductive RegOperand where
  | named (r : Reg)
  | addressed (a : Nat)
  deriving DecidableEq, Repr

/-- The 64-bit quantities the pseudo-commands name (R72). -/
inductive RegPair where
  | encId | encLen | encRem | decRefid | decSize
  deriving DecidableEq, Repr

/-- One assembler line: a command (R71) or a pseudo-command (R72). Numbers are as written, not yet checked. -/
inductive AsmLine where
  | nop
  | rd (r : RegOperand)
  | wr (r : RegOperand) (imm : Nat)
  | encStart
  | encPush (imm : Nat)
  | encClear
  | decStart
  | decImgBegin (w h : Nat)
  | decSample (imm : Nat)
  | decFinalize
  | decClear
  | wr64 (x : RegPair) (imm : Nat)
  | rd64 (x : RegPair)
  | encPushB (bytes : List Nat)
  | decImage (samples : List Nat)
  deriving DecidableEq, Repr

/-- The register that holds bits 31:0 of a pair (R20, R72). -/
def pairLow : RegPair → Reg
  | .encId => .encIdLo
  | .encLen => .encLenLo
  | .encRem => .encRemLo
  | .decRefid => .decRefidLo
  | .decSize => .decSizeLo

/-- The register that holds bits 63:32 of a pair (R20, R72). -/
def pairHigh : RegPair → Reg
  | .encId => .encIdHi
  | .encLen => .encLenHi
  | .encRem => .encRemHi
  | .decRefid => .decRefidHi
  | .decSize => .decSizeHi

/-- The pairs `WR64` may name (R72). -/
def pairWritable : RegPair → Bool
  | .encId | .encLen => true
  | .encRem | .decRefid | .decSize => false

/-- The address a register operand stands for (R71). -/
def operandAddress : RegOperand → Nat
  | .named r => (regAddress r).toNat
  | .addressed a => a

/-- Whether a line's numbers fit the fields they are written for, a `WR64` names a pair it may, `ENC_PUSHB` has a byte
and `DEC_IMAGE` has `S` samples (R71, R72). -/
def lineWellFormed (p : Params) : AsmLine → Bool
  | .rd r => operandAddress r < 2 ^ 8
  | .wr r imm => operandAddress r < 2 ^ 8 && imm < 2 ^ 32
  | .encPush imm | .decSample imm => imm < 2 ^ 8
  | .decImgBegin w h => w < 2 ^ 16 && h < 2 ^ 16
  | .wr64 x imm => pairWritable x && imm < 2 ^ 64
  | .encPushB bytes => bytes ≠ [] && bytes.all (· < 2 ^ 8)
  | .decImage samples => samples.length == imageSamples p && samples.all (· < 2 ^ 8)
  | .nop | .encStart | .encClear | .decStart | .decFinalize | .decClear | .rd64 _ => true

/-- The commands a line stands for, in order (R71, R72). -/
def lineCommands (p : Params) : AsmLine → List Instr
  | .nop => [.nop]
  | .rd r => [.rd (BitVec.ofNat 8 (operandAddress r))]
  | .wr r imm => [.wr (BitVec.ofNat 8 (operandAddress r)) (BitVec.ofNat 32 imm)]
  | .encStart => [.encStart]
  | .encPush imm => [.encPush (BitVec.ofNat 8 imm)]
  | .encClear => [.encClear]
  | .decStart => [.decStart]
  | .decImgBegin w h => [.decImgBegin (BitVec.ofNat 16 w) (BitVec.ofNat 16 h)]
  | .decSample imm => [.decSample (BitVec.ofNat 8 imm)]
  | .decFinalize => [.decFinalize]
  | .decClear => [.decClear]
  | .wr64 x imm =>
    [.wr (regAddress (pairLow x)) (lowHalf (BitVec.ofNat 64 imm)),
     .wr (regAddress (pairHigh x)) (highHalf (BitVec.ofNat 64 imm))]
  | .rd64 x => [.rd (regAddress (pairLow x)), .rd (regAddress (pairHigh x))]
  | .encPushB bytes => bytes.map fun b => .encPush (BitVec.ofNat 8 b)
  | .decImage samples =>
    .decImgBegin (BitVec.ofNat 16 p.n) (BitVec.ofNat 16 p.n) ::
      samples.map fun b => .decSample (BitVec.ofNat 8 b)

/-- The 64-bit value of the two reads of a `RD64`, `{rdata2, rdata1}` (R72). -/
def rd64Value (rdata1 rdata2 : Word) : DWord := joinHalves rdata2 rdata1

/-- The transactions of a well-formed line; none for a line that is not (R71, R72). -/
def assembleLine (p : Params) (line : AsmLine) : Option (List Transaction) :=
  if lineWellFormed p line then some ((lineCommands p line).map encode) else none

/-! ## Text -/

/-- The names of the registers (R20). -/
def regName : Reg → String
  | .paramVer => "PARAM_VER"
  | .paramN => "PARAM_N"
  | .paramP => "PARAM_P"
  | .paramMaximg => "PARAM_MAXIMG"
  | .ctrl => "CTRL"
  | .encIdLo => "ENC_ID_LO"
  | .encIdHi => "ENC_ID_HI"
  | .encLenLo => "ENC_LEN_LO"
  | .encLenHi => "ENC_LEN_HI"
  | .encStatus => "ENC_STATUS"
  | .encEmitted => "ENC_EMITTED"
  | .encTotal => "ENC_TOTAL"
  | .encRemLo => "ENC_REM_LO"
  | .encRemHi => "ENC_REM_HI"
  | .encFill => "ENC_FILL"
  | .decStatus => "DEC_STATUS"
  | .decCount => "DEC_COUNT"
  | .decRefidLo => "DEC_REFID_LO"
  | .decRefidHi => "DEC_REFID_HI"
  | .decSizeLo => "DEC_SIZE_LO"
  | .decSizeHi => "DEC_SIZE_HI"
  | .decLastseq => "DEC_LASTSEQ"
  | .decScnt => "DEC_SCNT"

/-- The names of the 64-bit pairs (R72). -/
def pairName : RegPair → String
  | .encId => "ENC_ID"
  | .encLen => "ENC_LEN"
  | .encRem => "ENC_REM"
  | .decRefid => "DEC_REFID"
  | .decSize => "DEC_SIZE"

/-- The value of a digit, decimal or hexadecimal. -/
def digitValue (c : Char) : Option Nat :=
  if '0' ≤ c ∧ c ≤ '9' then some (c.toNat - '0'.toNat)
  else if 'a' ≤ c ∧ c ≤ 'f' then some (c.toNat - 'a'.toNat + 10)
  else if 'A' ≤ c ∧ c ≤ 'F' then some (c.toNat - 'A'.toNat + 10)
  else none

/-- The number a digit list spells in a base, after those read already. -/
def digitsValue (base acc : Nat) : List Char → Option Nat
  | [] => some acc
  | c :: cs =>
    match digitValue c with
    | some d => if d < base then digitsValue base (acc * base + d) cs else none
    | none => none

/-- A number, decimal or `0x` hexadecimal (R71). -/
def parseNumber : List Char → Option Nat
  | [] => none
  | '0' :: 'x' :: c :: cs => digitsValue 16 0 (c :: cs)
  | c :: cs => digitsValue 10 0 (c :: cs)

/-- A text cut at every occurrence of a separator. -/
def splitAtChar (sep : Char) : List Char → List (List Char)
  | [] => [[]]
  | c :: cs =>
    if c = sep then [] :: splitAtChar sep cs
    else
      match splitAtChar sep cs with
      | [] => [[c]]
      | part :: parts => (c :: part) :: parts

/-- A text without the blanks at its two ends. -/
def trimBlanks (cs : List Char) : List Char :=
  ((cs.dropWhile (· = ' ')).reverse.dropWhile (· = ' ')).reverse

/-- A register operand: a name or a number (R71). -/
def parseRegOperand (cs : List Char) : Option RegOperand :=
  match Reg.all.find? fun r => (regName r).toList == cs with
  | some r => some (.named r)
  | none => (parseNumber cs).map .addressed

/-- A 64-bit pair (R72). -/
def parsePair (cs : List Char) : Option RegPair :=
  [RegPair.encId, .encLen, .encRem, .decRefid, .decSize].find? fun x => (pairName x).toList == cs

/-- The operands of a line: what its commas separate, nothing when there is only blank. -/
def parseOperands (cs : List Char) : List (List Char) :=
  if trimBlanks cs = [] then [] else (splitAtChar ',' cs).map trimBlanks

/-- One line of text: a mnemonic and its operands (R71, R72). -/
def parseLine (text : String) : Option AsmLine :=
  let line := trimBlanks text.toList
  let mnemonic := line.takeWhile (· ≠ ' ')
  let operands := parseOperands (line.dropWhile (· ≠ ' '))
  if mnemonic = "NOP".toList then
    if operands = [] then some .nop else none
  else if mnemonic = "RD".toList then
    match operands with
    | [r] => (parseRegOperand r).map .rd
    | _ => none
  else if mnemonic = "WR".toList then
    match operands with
    | [r, v] => (parseRegOperand r).bind fun r => (parseNumber v).map (.wr r)
    | _ => none
  else if mnemonic = "ENC_START".toList then
    if operands = [] then some .encStart else none
  else if mnemonic = "ENC_PUSH".toList then
    match operands with
    | [v] => (parseNumber v).map .encPush
    | _ => none
  else if mnemonic = "ENC_CLEAR".toList then
    if operands = [] then some .encClear else none
  else if mnemonic = "DEC_START".toList then
    if operands = [] then some .decStart else none
  else if mnemonic = "DEC_IMG_BEGIN".toList then
    match operands with
    | [w, h] => (parseNumber w).bind fun w => (parseNumber h).map (.decImgBegin w)
    | _ => none
  else if mnemonic = "DEC_SAMPLE".toList then
    match operands with
    | [v] => (parseNumber v).map .decSample
    | _ => none
  else if mnemonic = "DEC_FINALIZE".toList then
    if operands = [] then some .decFinalize else none
  else if mnemonic = "DEC_CLEAR".toList then
    if operands = [] then some .decClear else none
  else if mnemonic = "WR64".toList then
    match operands with
    | [x, v] => (parsePair x).bind fun x => (parseNumber v).map (.wr64 x)
    | _ => none
  else if mnemonic = "RD64".toList then
    match operands with
    | [x] => (parsePair x).map .rd64
    | _ => none
  else if mnemonic = "ENC_PUSHB".toList then
    (operands.mapM parseNumber).map .encPushB
  else if mnemonic = "DEC_IMAGE".toList then
    (operands.mapM parseNumber).map .decImage
  else none

/-- The transactions of a line of text; none for a text that is no well-formed line (R71, R72). -/
def assemble (p : Params) (text : String) : Option (List Transaction) :=
  (parseLine text).bind (assembleLine p)

end Sys2Proof.Machine
end

