-- ==== Sys2Proof/Safety.lean ====
section
/-! DEFINITION. The terms claims are made in: the invariants that hold between commands (R27 to R30), the numbering of
the emitted images (R54, R96), and which events of a host's sequence are commands of which engine (R66, R107, R128). -/

namespace Sys2Proof.Machine

/-! ## Invariants between commands -/

/-- What holds of the encoder between commands (R27, R28). -/
structure EncoderInv (p : Params) (e : Encoder) : Prop where
  /-- R27: `|enc.buf| < P`. -/
  fill_lt : e.buf.length < chunkBytes p
  /-- R28: RUN implies `enc.rem >= 1`. -/
  run_pending : e.state = .run → 1 ≤ e.rem.toNat
  /-- No more is pending than the file is long. -/
  run_rem_le : e.state = .run → e.rem.toNat ≤ e.len.toNat
  /-- R28: in RUN, `8 + enc.len - enc.rem = enc.emitted * P + |enc.buf|`. -/
  run_consumed : e.state = .run →
    8 + e.len.toNat - e.rem.toNat = e.emitted.toNat * chunkBytes p + e.buf.length
  /-- R87, R103: `enc.total` is the image count of the latched length. -/
  total_eq : e.state = .run ∨ e.state = .done → e.total.toNat = totalImages p e.len.toNat
  /-- R28: DONE implies `enc.rem = 0`, `enc.buf = []` and `enc.emitted = enc.total`. -/
  done_closed : e.state = .done → e.rem = 0 ∧ e.buf = [] ∧ e.emitted = e.total
  /-- R28: `enc.emitted <= enc.total`. -/
  emitted_le : e.emitted.toNat ≤ e.total.toNat
  /-- R27, R141, R147: an error code is latched in ERROR and in no other state. -/
  err_iff : e.state = .error ↔ e.err ≠ .noError
  /-- R105, R160: IDLE is the reset state. -/
  idle_reset : e.state = .idle → e = Encoder.reset

/-- What holds of the decoder between commands (R29, R30). -/
structure DecoderInv (p : Params) (d : Decoder) : Prop where
  /-- R30: `dec.count <= DEC_MAX_IMAGES`. -/
  count_le : d.count.toNat ≤ p.maxImages
  /-- R29: `dec.pairs` has length `dec.count`. -/
  pairs_length : d.pairs.length = d.count.toNat
  /-- R29: every stored chunk has `P` bytes. -/
  pairs_chunk : ∀ sc ∈ d.pairs, sc.2.length = chunkBytes p
  /-- R29, R30: `dec.scnt < S`. -/
  scnt_lt : d.scnt.toNat < imageSamples p
  /-- R29, R30: `dec.refValid = 1` exactly when an image has completed in this run. -/
  ref_iff : d.refValid = true ↔ d.count ≠ 0
  /-- R29: `dec.lastSeq` is the last stored image's sequence number, 0 before the first. -/
  last_seq : d.lastSeq = ((d.pairs.getLast?).map Prod.fst).getD 0
  /-- R29: in IN_IMAGE the chunk in progress has `max(0, dec.scnt - 12)` bytes. -/
  image_chunk : d.state = .inImage → d.curChunk.length = d.scnt.toNat - 12
  /-- R123: the identifier in progress holds as many bytes as were delivered of it. -/
  image_id : d.state = .inImage → d.scnt.toNat ≤ 8 → d.curId.toNat < 256 ^ d.scnt.toNat
  /-- R123: the sequence number in progress holds as many bytes as were delivered of it. -/
  image_seq : d.state = .inImage → d.scnt.toNat ≤ 12 → d.curSeq.toNat < 256 ^ (d.scnt.toNat - 8)
  /-- R29, R141, R147: an error code is latched in ERROR and in no other state. -/
  err_iff : d.state = .error ↔ d.err ≠ .noError
  /-- R126, R160: IDLE is the reset state. -/
  idle_reset : d.state = .idle → d = Decoder.reset

/-- What holds of the whole machine between commands. -/
structure StateInv (s : State) : Prop where
  /-- R6, R8: the parameters are in their ranges. -/
  legal : s.params.Legal
  enc : EncoderInv s.params s.enc
  dec : DecoderInv s.params s.dec
  /-- R16, R31: every image on `ENC_OUT` has exactly `S` samples. -/
  images : ∀ img ∈ s.encOut, img.length = imageSamples s.params

/-- The images of the present run, the last `enc.emitted` of `ENC_OUT`, carry the latched identifier and the sequence
numbers 1, 2, ... in emission order (R54, R96, R108). -/
def OutputNumbered (s : State) : Prop :=
  ∃ earlier run, s.encOut = earlier ++ run ∧ run.length = s.enc.emitted.toNat ∧
    ∀ k img, run[k]? = some img → (parseImage img).1 = s.enc.id ∧ (parseImage img).2.1.toNat = k + 1

/-- In DONE the last event of `DEC_OUT` is the file of `dec.size` bytes (R125, R130). -/
def OutputSized (s : State) : Prop :=
  s.dec.state = .done → ∃ file, s.decOut.getLast? = some file ∧ file.length = s.dec.size.toNat

/-! ## Events of a host's sequence -/

/-- The commands addressed to the encoder (R66). -/
def encoderInstr : Instr → Bool
  | .encStart | .encPush _ | .encClear => true
  | .nop | .rd _ | .wr _ _ | .decStart | .decImgBegin _ _ | .decSample _ | .decFinalize | .decClear => false

/-- The commands addressed to the decoder (R66). -/
def decoderInstr : Instr → Bool
  | .decStart | .decImgBegin _ _ | .decSample _ | .decFinalize | .decClear => true
  | .nop | .rd _ | .wr _ _ | .encStart | .encPush _ | .encClear => false

/-- The command an event spells, if it is a legal command word (R68). -/
def eventInstr : HostEvent → Option Instr
  | .reset => none
  | .command cmd wdata =>
    match decode cmd wdata with
    | .ok i => some i
    | .error _ => none

/-- The event by which the host issues a command (R60). -/
def instrEvent (i : Instr) : HostEvent := .command (encode i).cmd (encode i).wdata

/-- The encoder commands among a host's events, in order (R107). -/
def encoderCommands (evs : List HostEvent) : List Instr := (evs.filterMap eventInstr).filter encoderInstr

/-- The decoder commands among a host's events, in order (R128). -/
def decoderCommands (evs : List HostEvent) : List Instr := (evs.filterMap eventInstr).filter decoderInstr

/-- How the host delivers one image (R127). -/
def deliverImage (p : Params) (img : Image) : List Instr :=
  .decImgBegin (BitVec.ofNat 16 p.n) (BitVec.ofNat 16 p.n) :: img.map .decSample

/-- Every event of a list that spells a command of the given kind was answered OK, by the replies in the same places
(R107, R128). -/
def repliedOk (kind : Instr → Bool) (evs : List HostEvent) (replies : List Reply) : Prop :=
  ∀ (k : Nat) (ev : HostEvent) (i : Instr),
    evs[k]? = some ev → eventInstr ev = some i → kind i = true → replies[k]? = some ⟨.ok, 0⟩

end Sys2Proof.Machine
end

