-- ==== Sys2Proof/Certificates/Slice0/Obligations.lean ====
section
/-! DEFINITION. The statements about the block, from the numbered rules of spec/. -/

open Sys2Proof Sys2Proof.Machine

/-! ## Encoding -/

/-- Decoding the transaction of any command gives that command back (R62 to R66, R71). -/
def Obligations.EveryCommandDecodesFromItsEncoding : Prop :=
  ∀ i : Instr, decode (encode i).cmd (encode i).wdata = .ok i

/-- A transaction decodes to a command exactly when its command word is that command's, and, for the two commands that
read the write data, its write data is too; the others ignore it (R65, R69). -/
def Obligations.DecodeAcceptsExactlyTheEncodings : Prop :=
  ∀ (cmd wdata : Word) (i : Instr),
    decode cmd wdata = .ok i ↔
      cmd = (encode i).cmd ∧
        (opcodeOf i = .wr ∨ opcodeOf i = .decImgBegin → wdata = (encode i).wdata)

/-- R67: a word decodes to a command of a row exactly when `(cmd & mask) = match`, and no two rows match the same word. -/
def Obligations.DecodeFollowsTheMatchMaskTable : Prop :=
  (∀ row ∈ opcodeRows, ∀ cmd wdata : Word,
    (∃ i, decode cmd wdata = .ok i ∧ (opcodeOf i).mnemonic = row.mnemonic) ↔ cmd &&& row.mask = row.pattern) ∧
  (∀ row ∈ opcodeRows, ∀ row' ∈ opcodeRows, ∀ cmd : Word,
    cmd &&& row.mask = row.pattern → cmd &&& row'.mask = row'.pattern → row = row')

/-- R68: a reserved opcode, or a defined opcode with a non-zero reserved field, answers ILLEGAL and changes nothing;
any other word executes its command. -/
def Obligations.IllegalWordsAnswerIllegalAndChangeNothing : Prop :=
  ∀ (s : State) (cmd wdata : Word) (rest : List HostEvent),
    s.inbox = .command cmd wdata :: rest →
    let op : Byte := cmd.extractLsb' 24 8
    let formatZ : List Byte := [0x00, 0x10, 0x1F, 0x20, 0x21, 0x23, 0x2F]
    let formatAB : List Byte := [0x01, 0x02, 0x11, 0x22]
    let refused : Prop := step s = .next { s with inbox := rest, replies := s.replies ++ [⟨.illegal, 0⟩] }
    let executes : Prop := ∃ i, (opcodeOf i).code = op ∧ step s = exec i { s with inbox := rest }
    (op ∉ formatZ ++ formatAB → refused) ∧
    (op ∈ formatZ → cmd.extractLsb' 0 24 ≠ 0#24 → refused) ∧
    (op ∈ formatAB → cmd.extractLsb' 8 16 ≠ 0#16 → refused) ∧
    (op ∈ formatZ → cmd.extractLsb' 0 24 = 0#24 → executes) ∧
    (op ∈ formatAB → cmd.extractLsb' 8 16 = 0#16 → executes)

/-- Words written out from the formats and the opcode map decode to the commands they stand for (R62 to R66). -/
def Obligations.WrittenOutWordsDecode : Prop :=
  decode 0x00000000 0xDEADBEEF = .ok .nop ∧
  decode 0x01000002 0 = .ok (.rd 0x02) ∧
  decode 0x02000009 0x01234567 = .ok (.wr 0x09 0x01234567) ∧
  decode 0x10000000 0 = .ok .encStart ∧
  decode 0x110000AB 0xFFFFFFFF = .ok (.encPush 0xAB) ∧
  decode 0x21000000 0x00050004 = .ok (.decImgBegin 5 4) ∧
  decode 0x220000EF 0 = .ok (.decSample 0xEF) ∧
  decode 0x2F000000 0 = .ok .decClear ∧
  decode 0x12000000 0 = .error (.reservedOpcode 0x12) ∧
  decode 0x21000001 0x00050005 = .error (.reservedField .decImgBegin)

/-! ## The step -/

/-- When the host's next event is a command whose words decode to `i`, the step is `exec i` on the state with that event
taken (R53, R68). -/
def Obligations.StepRunsTheDecodedCommand : Prop :=
  ∀ (s : State) (cmd wdata : Word) (rest : List HostEvent) (i : Instr),
    s.inbox = .command cmd wdata :: rest → decode cmd wdata = .ok i →
    step s = exec i { s with inbox := rest }

/-- With no event pending the block waits: the model's choice (notes/assumptions/1.md). -/
def Obligations.StepWaitsWhenNothingIsPending : Prop :=
  ∀ s : State, s.inbox = [] → step s = .next s

/-- No step stops: every one answers a next state (R61, R68, R141). -/
def Obligations.EveryStepAnswersANextState : Prop :=
  ∀ s : State, ∃ t, step s = .next t

/-- R160: reset puts every host register and engine field at its reset value, leaves the parameters and what was emitted,
and every register then reads its reset column. -/
def Obligations.ResetRestoresEveryResetValue : Prop :=
  ∀ (s : State) (rest : List HostEvent), s.inbox = .reset :: rest →
    ∃ t, step s = .next t ∧
      t.host = ⟨false, 0, 0⟩ ∧
      t.enc = ⟨.idle, .noError, 0, 0, 0, 0, 0, []⟩ ∧
      t.dec = ⟨.idle, .noError, false, false, 0, 0, 0, [], 0, 0, 0, [], 0⟩ ∧
      t.params = s.params ∧ t.encOut = s.encOut ∧ t.decOut = s.decOut ∧
      (∀ av ∈ ([(0x00, 1), (0x01, s.params.n), (0x02, s.params.n * s.params.n - 12), (0x03, s.params.maxImages)] :
            List (Byte × Nat)),
          exec (.rd av.1) t = .next { t with replies := t.replies ++ [⟨.ok, BitVec.ofNat 32 av.2⟩] }) ∧
      (∀ a ∈ ([0x04, 0x08, 0x09, 0x0A, 0x0B, 0x0C, 0x0D, 0x0E, 0x0F, 0x10, 0x11, 0x18, 0x19, 0x1A, 0x1B, 0x1C, 0x1D,
            0x1E, 0x1F] : List Byte),
          exec (.rd a) t = .next { t with replies := t.replies ++ [⟨.ok, 0⟩] })

/-- R162: reset, and the sequence of five `WR`s of 0 and the two CLEARs, leave the same state, in which every command is
answered. -/
def Obligations.ResetEqualsTheClearingSequence : Prop :=
  ∀ s : State,
    ∃ t u, core.run 7
        { s with
          inbox := List.map instrEvent
            [.wr 0x04 0, .wr 0x08 0, .wr 0x09 0, .wr 0x0A 0, .wr 0x0B 0, .encClear, .decClear] } = .next t ∧
      step { s with inbox := [.reset] } = .next u ∧
      t.params = u.params ∧ t.host = u.host ∧ t.enc = u.enc ∧ t.dec = u.dec ∧
      t.encOut = u.encOut ∧ t.decOut = u.decOut ∧
      ∀ i : Instr, ∃ v, exec i u = .next v

/-! ## Host access -/

/-- R136: `NOP` answers OK and changes nothing else, in every state. -/
def Obligations.NopOnlyReplies : Prop :=
  ∀ s : State, exec .nop s = .next { s with replies := s.replies ++ [⟨.ok, 0⟩] }

/-- R137, R20, R50: `RD` answers the value of the map at a mapped address and ILLEGAL at any other, and changes nothing
else. The values are written as numbers: a 64-bit quantity's halves, and the status words by the weights of their fields
(R23, R24). -/
def Obligations.ReadAnswersTheRegisterMap : Prop :=
  ∀ s : State,
    let map : List (Byte × Nat) :=
      [ (0x00, 1), (0x01, s.params.n), (0x02, s.params.n * s.params.n - 12), (0x03, s.params.maxImages),
        (0x04, s.host.ctrlStrict.toNat),
        (0x08, s.host.encIdReg.toNat % 2 ^ 32), (0x09, s.host.encIdReg.toNat / 2 ^ 32),
        (0x0A, s.host.encLenReg.toNat % 2 ^ 32), (0x0B, s.host.encLenReg.toNat / 2 ^ 32),
        (0x0C, (encStateCode s.enc.state).toNat + 16 * (errorCodeBits s.enc.err).toNat),
        (0x0D, s.enc.emitted.toNat), (0x0E, s.enc.total.toNat),
        (0x0F, s.enc.rem.toNat % 2 ^ 32), (0x10, s.enc.rem.toNat / 2 ^ 32), (0x11, s.enc.buf.length),
        (0x18, (decStateCode s.dec.state).toNat + 16 * (errorCodeBits s.dec.err).toNat +
          256 * s.dec.strict.toNat + 512 * s.dec.refValid.toNat),
        (0x19, s.dec.count.toNat),
        (0x1A, s.dec.refId.toNat % 2 ^ 32), (0x1B, s.dec.refId.toNat / 2 ^ 32),
        (0x1C, s.dec.size.toNat % 2 ^ 32), (0x1D, s.dec.size.toNat / 2 ^ 32),
        (0x1E, s.dec.lastSeq.toNat), (0x1F, s.dec.scnt.toNat) ]
    (∀ av ∈ map, exec (.rd av.1) s = .next { s with replies := s.replies ++ [⟨.ok, BitVec.ofNat 32 av.2⟩] }) ∧
    (∀ a : Byte, a ∉ map.map Prod.fst → exec (.rd a) s = .next { s with replies := s.replies ++ [⟨.illegal, 0⟩] })

/-- R23, R24: the fields of the two status words, bit range by bit range, with the numbers of the states and of the
error codes (R140). -/
def Obligations.StatusWordsHoldTheirFields : Prop :=
  (∀ s : State,
    let w := readReg s .encStatus
    w.extractLsb' 0 2 = (match s.enc.state with | .idle => 0#2 | .run => 1#2 | .done => 2#2 | .error => 3#2) ∧
    w.extractLsb' 2 2 = 0#2 ∧
    w.extractLsb' 4 4 = errorCodeBits s.enc.err ∧
    w.extractLsb' 8 24 = 0#24) ∧
  (∀ s : State,
    let w := readReg s .decStatus
    w.extractLsb' 0 3 =
      (match s.dec.state with | .idle => 0#3 | .collect => 1#3 | .inImage => 2#3 | .done => 3#3 | .error => 4#3) ∧
    w.getLsbD 3 = false ∧
    w.extractLsb' 4 4 = errorCodeBits s.dec.err ∧
    w.getLsbD 8 = s.dec.strict ∧
    w.getLsbD 9 = s.dec.refValid ∧
    w.extractLsb' 10 22 = 0#22) ∧
  [ErrorCode.noError, .malformedStream, .truncationError, .emptySequence, .sequenceIntegrityError, .dimensionMismatch,
    .streamIdentifierMismatch, .capacityOverflow, .protocolError].map (fun e => (errorCodeBits e).toNat) =
    [0, 1, 2, 3, 4, 5, 6, 7, 8]

/-- R138: `WR` writes the addressed half of the identifier or the length, or bit 0 into CTRL, and at every other address
answers ILLEGAL; nothing else changes. -/
def Obligations.WriteUpdatesOnlyItsRegister : Prop :=
  ∀ (s : State) (v : Word),
    let done (h : HostRegs) : Host.Outcome State Fault Refusal :=
      .next { s with host := h, replies := s.replies ++ [⟨.ok, 0⟩] }
    exec (.wr 0x04 v) s = done { s.host with ctrlStrict := v.getLsbD 0 } ∧
    exec (.wr 0x08 v) s = done { s.host with encIdReg := BitVec.ofNat 64 (s.host.encIdReg.toNat / 2 ^ 32 * 2 ^ 32 + v.toNat) } ∧
    exec (.wr 0x09 v) s = done { s.host with encIdReg := BitVec.ofNat 64 (v.toNat * 2 ^ 32 + s.host.encIdReg.toNat % 2 ^ 32) } ∧
    exec (.wr 0x0A v) s = done { s.host with encLenReg := BitVec.ofNat 64 (s.host.encLenReg.toNat / 2 ^ 32 * 2 ^ 32 + v.toNat) } ∧
    exec (.wr 0x0B v) s = done { s.host with encLenReg := BitVec.ofNat 64 (v.toNat * 2 ^ 32 + s.host.encLenReg.toNat % 2 ^ 32) } ∧
    ∀ a : Byte, a ∉ ([0x04, 0x08, 0x09, 0x0A, 0x0B] : List Byte) →
      exec (.wr a v) s = .next { s with replies := s.replies ++ [⟨.illegal, 0⟩] }

/-- What a `WR` stored is what a later `RD` answers: all 32 bits of an identifier or length half, bit 0 of CTRL (R25,
R138); the other registers read as before. -/
def Obligations.WrittenRegistersReadBack : Prop :=
  ∀ (s t : State) (a : Byte) (v : Word), exec (.wr a v) s = .next t →
    (a = 0x04 → readReg t .ctrl = v &&& 1) ∧
    (∀ r : Reg, regAddress r = a → regAccess r = .readWrite → r ≠ .ctrl → readReg t r = v) ∧
    (∀ r : Reg, regAddress r ≠ a → readReg t r = readReg s r)

/-- `WR64` writes the whole 64-bit register, whichever value stood there (R72, R138). -/
def Obligations.Wr64WritesBothHalves : Prop :=
  ∀ (s : State) (v : Nat), v < 2 ^ 64 →
    (∃ cmds t, assembleLine s.params (.wr64 .encId v) = some cmds ∧
      core.run cmds.length { s with inbox := cmds.map fun c => .command c.cmd c.wdata } = .next t ∧
      t.host = { s.host with encIdReg := BitVec.ofNat 64 v } ∧ t.replies = s.replies ++ [⟨.ok, 0⟩, ⟨.ok, 0⟩]) ∧
    (∃ cmds t, assembleLine s.params (.wr64 .encLen v) = some cmds ∧
      core.run cmds.length { s with inbox := cmds.map fun c => .command c.cmd c.wdata } = .next t ∧
      t.host = { s.host with encLenReg := BitVec.ofNat 64 v } ∧ t.replies = s.replies ++ [⟨.ok, 0⟩, ⟨.ok, 0⟩])

/-! ## Frames and independence -/

/-- R60, R61: a command gives exactly one reply, whose read data is 0 unless it is a `RD` that answers OK; it takes no
further event and leaves the parameters. -/
def Obligations.EveryCommandRepliesOnce : Prop :=
  ∀ (i : Instr) (s t : State), exec i s = .next t →
    ∃ r : Reply, t.replies = s.replies ++ [r] ∧ (r.rdata ≠ 0 → r.resp = .ok ∧ ∃ a, i = .rd a) ∧
      t.inbox = s.inbox ∧ t.params = s.params

/-- The frame of every command by the engine it addresses (R18, R26, R58): encoder commands change the encoder and
`ENC_OUT`, decoder commands the decoder and `DEC_OUT`, host access commands the host registers, and nothing else but the
reply. -/
def Obligations.CommandsChangeOnlyTheirEngine : Prop :=
  ∀ (i : Instr) (s t : State), exec i s = .next t →
    (encoderInstr i = true →
      t = { s with enc := t.enc, encOut := t.encOut, replies := t.replies }) ∧
    (decoderInstr i = true →
      t = { s with dec := t.dec, decOut := t.decOut, replies := t.replies }) ∧
    (encoderInstr i = false → decoderInstr i = false →
      t = { s with host := t.host, replies := t.replies })

/-- R18, R58, R145: what an engine does depends on nothing of the other engine or of its channel. -/
def Obligations.EnginesDoNotObserveEachOther : Prop :=
  (∀ (i : Instr) (s t : State) (d : Decoder) (o : List (List Byte)), encoderInstr i = true → exec i s = .next t →
    exec i { s with dec := d, decOut := o } = .next { t with dec := d, decOut := o }) ∧
  (∀ (i : Instr) (s t : State) (e : Encoder) (o : List Image), decoderInstr i = true → exec i s = .next t →
    exec i { s with enc := e, encOut := o } = .next { t with enc := e, encOut := o })

/-- R32, R33, R166: once a run has started, what its commands do depends on nothing the host writes to its registers. -/
def Obligations.RunsUseTheLatchedValues : Prop :=
  ∀ (i : Instr) (s t : State) (h : HostRegs),
    (encoderInstr i = true ∨ decoderInstr i = true) → i ≠ .encStart → i ≠ .decStart → exec i s = .next t →
    exec i { s with host := h } = .next { t with host := h }

/-- R31, R160: no step withdraws anything emitted or answered, reset included, and none changes the parameters. -/
def Obligations.ChannelsOnlyGrow : Prop :=
  ∀ s t : State, step s = .next t →
    s.encOut <+: t.encOut ∧ s.decOut <+: t.decOut ∧ s.replies <+: t.replies ∧ t.params = s.params

/-! ## Errors -/

/-- R141, R142, R148: a command that does not answer OK emits nothing and changes nothing, but for entering ERROR with a
code in the engine it addresses, when that engine was not in ERROR already. -/
def Obligations.RefusedCommandsKeepNoEffect : Prop :=
  ∀ (i : Instr) (s t : State) (r : Reply), exec i s = .next t → t.replies = s.replies ++ [r] → r.resp ≠ .ok →
    t = { s with replies := s.replies ++ [r] } ∨
    (r.resp = .error ∧ encoderInstr i = true ∧ s.enc.state ≠ .error ∧ ∃ e, e ≠ ErrorCode.noError ∧
      t = { s with enc := { s.enc with state := .error, err := e }, replies := s.replies ++ [r] }) ∨
    (r.resp = .error ∧ decoderInstr i = true ∧ s.dec.state ≠ .error ∧ ∃ e, e ≠ ErrorCode.noError ∧
      t = { s with dec := { s.dec with state := .error, err := e }, replies := s.replies ++ [r] })

/-- R146: an engine in ERROR answers ERROR to each of its commands but its CLEAR and changes nothing. -/
def Obligations.ErrorIsSticky : Prop :=
  ∀ (i : Instr) (s : State),
    (encoderInstr i = true ∧ i ≠ .encClear ∧ s.enc.state = .error) ∨
      (decoderInstr i = true ∧ i ≠ .decClear ∧ s.dec.state = .error) →
    exec i s = .next { s with replies := s.replies ++ [⟨.error, 0⟩] }

/-- R147: the CLEAR of an engine, and reset, return it to IDLE with code 0, and nothing else takes an engine out of
ERROR or changes its code there. -/
def Obligations.ErrorIsLeftOnlyByClearOrReset : Prop :=
  ∀ s t : State, step s = .next t →
    let next := s.inbox.head?
    let clears (i : Instr) : Prop := next = some .reset ∨ ∃ ev, next = some ev ∧ eventInstr ev = some i
    (clears .encClear → t.enc.state = .idle ∧ t.enc.err = .noError) ∧
    (clears .decClear → t.dec.state = .idle ∧ t.dec.err = .noError) ∧
    (s.enc.state = .error → ¬ clears .encClear → t.enc = s.enc) ∧
    (s.dec.state = .error → ¬ clears .decClear → t.dec = s.dec)

/-- The `raise_enc(ProtocolError)` cells of R102: `ENC_START` in RUN, `ENC_PUSH` in IDLE and DONE. -/
def Obligations.EncoderProtocolErrors : Prop :=
  ∀ (s : State) (b : Byte),
    let refused : State :=
      { s with enc := { s.enc with state := .error, err := .protocolError }, replies := s.replies ++ [⟨.error, 0⟩] }
    (s.enc.state = .run → exec .encStart s = .next refused) ∧
    (s.enc.state = .idle ∨ s.enc.state = .done → exec (.encPush b) s = .next refused)

/-- The `raise_dec(ProtocolError)` cells of R120. -/
def Obligations.DecoderProtocolErrors : Prop :=
  ∀ (s : State) (w h : Half) (b : Byte),
    let refused : State :=
      { s with dec := { s.dec with state := .error, err := .protocolError }, replies := s.replies ++ [⟨.error, 0⟩] }
    (s.dec.state = .collect ∨ s.dec.state = .inImage → exec .decStart s = .next refused) ∧
    (s.dec.state = .idle ∨ s.dec.state = .inImage ∨ s.dec.state = .done →
      exec (.decImgBegin w h) s = .next refused) ∧
    (s.dec.state = .idle ∨ s.dec.state = .collect ∨ s.dec.state = .done → exec (.decSample b) s = .next refused) ∧
    (s.dec.state = .idle ∨ s.dec.state = .inImage ∨ s.dec.state = .done → exec .decFinalize s = .next refused)

/-! ## Encoder commands -/

/-- `ENC_START` of a file that needs more than `2^32 - 1` images: `CapacityOverflow`, and only the encoder's state and
code change (R103, R99). -/
def Obligations.EncStartRefusesTooLongFiles : Prop :=
  ∀ s : State, s.enc.state = .idle ∨ s.enc.state = .done →
    let p := s.params.n * s.params.n - 12
    (8 + s.host.encLenReg.toNat + p - 1) / p > 2 ^ 32 - 1 →
    exec .encStart s = .next
      { s with
        enc := { s.enc with state := .error, err := .capacityOverflow }
        replies := s.replies ++ [⟨.error, 0⟩] }

/-- `ENC_START` of a file that is not empty: the identifier and length are latched and the size prefix is appended; with
`N = 4` it fills and emits the first two chunks, with a larger `N` it waits in the buffer (R103, R106). -/
def Obligations.EncStartLatchesAndAppendsThePrefix : Prop :=
  ∀ s : State, s.params.Legal → s.enc.state = .idle ∨ s.enc.state = .done → s.host.encLenReg ≠ 0 →
    let p := s.params.n * s.params.n - 12
    let total := (8 + s.host.encLenReg.toNat + p - 1) / p
    let bytes := beBytes 8 s.host.encLenReg.toNat
    let run (emitted : Word) (buf : List Byte) : Encoder :=
      { state := .run, err := .noError, id := s.host.encIdReg, len := s.host.encLenReg, rem := s.host.encLenReg,
        total := BitVec.ofNat 32 total, emitted := emitted, buf := buf }
    total ≤ 2 ^ 32 - 1 →
    (s.params.n = 4 →
      exec .encStart s = .next
        { s with
          enc := run 2 []
          encOut := s.encOut ++ [image s.host.encIdReg 1 (bytes.take 4), image s.host.encIdReg 2 (bytes.drop 4)]
          replies := s.replies ++ [⟨.ok, 0⟩] }) ∧
    (s.params.n ≠ 4 →
      exec .encStart s = .next { s with enc := run 0 bytes, replies := s.replies ++ [⟨.ok, 0⟩] })

/-- `ENC_START` of the empty file completes the run: two images of zero bytes with `N = 4`, one with a larger `N` (R103,
R101, C5). -/
def Obligations.EncStartOfTheEmptyFileCompletes : Prop :=
  ∀ s : State, s.params.Legal → s.enc.state = .idle ∨ s.enc.state = .done → s.host.encLenReg = 0 →
    let id := s.host.encIdReg
    let closed (n : Word) : Encoder :=
      { state := .done, err := .noError, id := id, len := 0, rem := 0, total := n, emitted := n, buf := [] }
    (s.params.n = 4 →
      exec .encStart s = .next
        { s with
          enc := closed 2
          encOut := s.encOut ++ [image id 1 [0, 0, 0, 0], image id 2 [0, 0, 0, 0]]
          replies := s.replies ++ [⟨.ok, 0⟩] }) ∧
    (s.params.n ≠ 4 →
      exec .encStart s = .next
        { s with
          enc := closed 1
          encOut := s.encOut ++ [image id 1 (List.replicate (s.params.n * s.params.n - 12) 0)]
          replies := s.replies ++ [⟨.ok, 0⟩] })

/-- `ENC_PUSH` in RUN: a byte that leaves the chunk open is buffered; one that fills it emits the image; the last one
closes the run, padding an open chunk with zero bytes (R104, R100, R101). -/
def Obligations.EncPushPacksTheByte : Prop :=
  ∀ (s : State) (b : Byte), s.enc.state = .run →
    let p := s.params.n * s.params.n - 12
    let e := s.enc
    (e.buf.length + 1 ≠ p → e.rem ≠ 1 →
      exec (.encPush b) s = .next
        { s with enc := { e with rem := e.rem - 1, buf := e.buf ++ [b] }, replies := s.replies ++ [⟨.ok, 0⟩] }) ∧
    (e.buf.length + 1 = p →
      exec (.encPush b) s = .next
        { s with
          enc := { e with
            rem := e.rem - 1, buf := [], emitted := e.emitted + 1, state := if e.rem = 1 then .done else .run }
          encOut := s.encOut ++ [image e.id (e.emitted + 1) (e.buf ++ [b])]
          replies := s.replies ++ [⟨.ok, 0⟩] }) ∧
    (e.buf.length + 1 < p → e.rem = 1 →
      exec (.encPush b) s = .next
        { s with
          enc := { e with rem := 0, buf := [], emitted := e.emitted + 1, state := .done }
          encOut := s.encOut ++
            [image e.id (e.emitted + 1) (e.buf ++ [b] ++ List.replicate (p - (e.buf.length + 1)) 0)]
          replies := s.replies ++ [⟨.ok, 0⟩] })

/-- R105: `ENC_CLEAR` puts every encoder field at its reset value, in every state, and changes nothing else. -/
def Obligations.EncClearResetsTheEncoder : Prop :=
  ∀ s : State, exec .encClear s = .next
    { s with enc := ⟨.idle, .noError, 0, 0, 0, 0, 0, []⟩, replies := s.replies ++ [⟨.ok, 0⟩] }

/-- R106: how many images `ENC_START` and push number `j` emit, and that after the last push `enc.emitted` and `enc.total`
are the number of images the length needs. -/
def Obligations.ImagesEmittedPerCommand : Prop :=
  ∀ s t : State, StateInv s →
    let p := s.params.n * s.params.n - 12
    (exec .encStart s = .next t → s.enc.state ≠ .run → t.enc.state ≠ .error →
      t.encOut.length = s.encOut.length + 8 / p + (if t.enc.len = 0 ∧ 8 % p ≠ 0 then 1 else 0)) ∧
    (∀ b, exec (.encPush b) s = .next t → s.enc.state = .run →
      let j := s.enc.len.toNat - s.enc.rem.toNat + 1
      t.encOut.length = s.encOut.length +
        (if (8 + j) % p = 0 ∨ (j = s.enc.len.toNat ∧ (8 + s.enc.len.toNat) % p ≠ 0) then 1 else 0) ∧
      (j = s.enc.len.toNat →
        t.enc.emitted = t.enc.total ∧ t.enc.total.toNat = (8 + s.enc.len.toNat + p - 1) / p))

/-- R107: the images a complete run appends to `ENC_OUT` are the reference encoder's, whatever commands that are not
encoder commands come in between; every encoder command of the run answers OK and the run ends in DONE. -/
def Obligations.EncoderRunEqualsTheReference : Prop :=
  ∀ (s : State) (evs rest : List HostEvent) (file : List Byte),
    s.params.Legal → s.enc.state = .idle ∨ s.enc.state = .done →
    s.host.encLenReg.toNat = file.length → totalImages s.params file.length ≤ 2 ^ 32 - 1 →
    .reset ∉ evs → encoderCommands evs = file.map .encPush →
    s.inbox = instrEvent .encStart :: (evs ++ rest) →
    ∃ t images replies,
      core.run (1 + evs.length) s = .next t ∧ t.inbox = rest ∧
      encodeImages s.params s.host.encIdReg file = .ok images ∧ t.encOut = s.encOut ++ images ∧
      t.enc.state = .done ∧ t.replies = s.replies ++ replies ∧
      repliedOk encoderInstr (instrEvent .encStart :: evs) replies

/-- R108: a run cut short leaves on `ENC_OUT` the first `enc.emitted` of the images any completion of it would have
emitted, none of them padded. -/
def Obligations.IncompleteRunEmitsAPrefix : Prop :=
  ∀ (s : State) (evs rest : List HostEvent) (pushed missing : List Byte),
    s.params.Legal → s.enc.state = .idle ∨ s.enc.state = .done →
    s.host.encLenReg.toNat = (pushed ++ missing).length → missing ≠ [] →
    totalImages s.params (pushed ++ missing).length ≤ 2 ^ 32 - 1 →
    .reset ∉ evs → encoderCommands evs = pushed.map .encPush →
    s.inbox = instrEvent .encStart :: (evs ++ rest) →
    ∃ t images,
      core.run (1 + evs.length) s = .next t ∧ t.enc.state = .run ∧
      encodeImages s.params s.host.encIdReg (pushed ++ missing) = .ok images ∧
      t.encOut = s.encOut ++ images.take t.enc.emitted.toNat ∧
      t.enc.emitted.toNat = (8 + pushed.length) / (s.params.n * s.params.n - 12)

/-! ## Decoder commands -/

/-- R121: `DEC_START` in IDLE or DONE latches CTRL.STRICT_ID and empties the collection; nothing else changes. -/
def Obligations.DecStartEmptiesTheCollection : Prop :=
  ∀ s : State, s.dec.state = .idle ∨ s.dec.state = .done →
    exec .decStart s = .next
      { s with
        dec := ⟨.collect, .noError, s.host.ctrlStrict, false, 0, 0, 0, [], 0, 0, 0, [], 0⟩
        replies := s.replies ++ [⟨.ok, 0⟩] }

/-- R122: `DEC_IMG_BEGIN` in COLLECT enters IN_IMAGE when both dimensions are `N`, and raises `DimensionMismatch`
otherwise. -/
def Obligations.DecImgBeginChecksTheDimensions : Prop :=
  ∀ (s : State) (w h : Half), s.dec.state = .collect →
    (w.toNat = s.params.n ∧ h.toNat = s.params.n →
      exec (.decImgBegin w h) s = .next
        { s with
          dec := { s.dec with state := .inImage, scnt := 0, curId := 0, curSeq := 0, curChunk := [] }
          replies := s.replies ++ [⟨.ok, 0⟩] }) ∧
    (w.toNat ≠ s.params.n ∨ h.toNat ≠ s.params.n →
      exec (.decImgBegin w h) s = .next
        { s with
          dec := { s.dec with state := .error, err := .dimensionMismatch }
          replies := s.replies ++ [⟨.error, 0⟩] })

/-- `DEC_SAMPLE` that does not complete its image: samples 0 to 7 enter the identifier, 8 to 11 the sequence number, the
others the chunk (R123). -/
def Obligations.DecSampleAssemblesTheImage : Prop :=
  ∀ (s : State) (b : Byte), s.dec.state = .inImage →
    let d := s.dec
    let k := d.scnt.toNat
    k + 1 < s.params.n * s.params.n →
    let after (d' : Decoder) : Host.Outcome State Fault Refusal :=
      .next { s with dec := { d' with scnt := d.scnt + 1 }, replies := s.replies ++ [⟨.ok, 0⟩] }
    (k < 8 →
      exec (.decSample b) s = after { d with curId := BitVec.ofNat 64 (d.curId.toNat * 256 + b.toNat) }) ∧
    (8 ≤ k → k < 12 →
      exec (.decSample b) s = after { d with curSeq := BitVec.ofNat 32 (d.curSeq.toNat * 256 + b.toNat) }) ∧
    (12 ≤ k →
      exec (.decSample b) s = after { d with curChunk := d.curChunk ++ [b] })

/-- The `DEC_SAMPLE` that completes an image: `StreamIdentifierMismatch` first, then `CapacityOverflow`, with the state
from before the command kept, else the image is stored (R124, R141, R144). That `dec.curChunk` then still holds the stored
chunk is the model's reading of R124 (notes/assumptions/7.md). -/
def Obligations.DecSampleCompletesTheImage : Prop :=
  ∀ (s : State) (b : Byte), s.params.Legal → s.dec.state = .inImage →
    s.dec.scnt.toNat + 1 = s.params.n * s.params.n →
    let d := s.dec
    let mismatch : Prop := d.strict = true ∧ d.refValid = true ∧ d.curId ≠ d.refId
    let raised (e : ErrorCode) : Host.Outcome State Fault Refusal :=
      .next { s with dec := { d with state := .error, err := e }, replies := s.replies ++ [⟨.error, 0⟩] }
    (mismatch → exec (.decSample b) s = raised .streamIdentifierMismatch) ∧
    (¬ mismatch → d.count.toNat = s.params.maxImages → exec (.decSample b) s = raised .capacityOverflow) ∧
    (¬ mismatch → d.count.toNat ≠ s.params.maxImages →
      exec (.decSample b) s = .next
        { s with
          dec := { d with
            state := .collect
            refValid := true
            refId := if d.refValid = true then d.refId else d.curId
            count := d.count + 1
            lastSeq := d.curSeq
            pairs := d.pairs ++ [(d.curSeq, d.curChunk ++ [b])]
            scnt := 0
            curChunk := d.curChunk ++ [b] }
          replies := s.replies ++ [⟨.ok, 0⟩] })

/-- `DEC_FINALIZE` in COLLECT: its four checks in their order, and the file with the declared size when all pass (R125,
R144). The sequence check is written as a permutation of 1 to `K`. -/
def Obligations.DecFinalizeChecksInOrder : Prop :=
  ∀ s : State, s.dec.state = .collect →
    let d := s.dec
    let k := d.count.toNat
    let dense : Prop := (d.pairs.map fun sc => sc.1.toNat).Perm (List.range' 1 k)
    let b : List Byte := (List.range' 1 k).flatMap fun j => (d.pairs.filter fun sc => sc.1.toNat = j).flatMap Prod.snd
    let size := fromBe (b.take 8)
    let payload := (b.take (k * (s.params.n * s.params.n - 12))).drop 8
    let raised (e : ErrorCode) : Host.Outcome State Fault Refusal :=
      .next { s with dec := { d with state := .error, err := e }, replies := s.replies ++ [⟨.error, 0⟩] }
    (k = 0 → exec .decFinalize s = raised .emptySequence) ∧
    (k ≠ 0 → ¬ dense → exec .decFinalize s = raised .sequenceIntegrityError) ∧
    (k ≠ 0 → dense → b.length < 8 → exec .decFinalize s = raised .malformedStream) ∧
    (k ≠ 0 → dense → 8 ≤ b.length → payload.length < size → exec .decFinalize s = raised .truncationError) ∧
    (k ≠ 0 → dense → 8 ≤ b.length → size ≤ payload.length →
      exec .decFinalize s = .next
        { s with
          dec := { d with state := .done, size := BitVec.ofNat 64 size }
          decOut := s.decOut ++ [payload.take size]
          replies := s.replies ++ [⟨.ok, 0⟩] })

/-- R126: `DEC_CLEAR` puts every decoder field at its reset value, in every state, and changes nothing else. -/
def Obligations.DecClearResetsTheDecoder : Prop :=
  ∀ s : State, exec .decClear s = .next
    { s with
      dec := ⟨.idle, .noError, false, false, 0, 0, 0, [], 0, 0, 0, [], 0⟩
      replies := s.replies ++ [⟨.ok, 0⟩] }

/-- R127: delivering an image of `S` samples in COLLECT either raises an error of R124 at the last sample or answers OK
throughout and appends the parsed pair. -/
def Obligations.DeliveringAnImageStoresItsPair : Prop :=
  ∀ (s : State) (img : Image), StateInv s → s.dec.state = .collect → img.length = imageSamples s.params →
    s.inbox = (deliverImage s.params img).map instrEvent →
    ∃ t, core.run (imageSamples s.params + 1) s = .next t ∧
      ((t.dec.state = .collect ∧
          t.dec.pairs = s.dec.pairs ++ [(parseImage img).2] ∧
          t.replies = s.replies ++ List.replicate (imageSamples s.params + 1) ⟨.ok, 0⟩) ∨
        (t.dec.state = .error ∧ (t.dec.err = .streamIdentifierMismatch ∨ t.dec.err = .capacityOverflow) ∧
          t.dec.pairs = s.dec.pairs ∧
          t.replies = s.replies ++ List.replicate (imageSamples s.params) ⟨.ok, 0⟩ ++ [⟨.error, 0⟩]))

/-- `DEC_FINALIZE` answers what the reference reassembler answers on the stored pairs (R128, R94). -/
def Obligations.DecFinalizeEqualsTheReference : Prop :=
  ∀ s t : State, StateInv s → s.dec.state = .collect → exec .decFinalize s = .next t →
    (∀ file, decodeImages s.dec.pairs = .ok file →
      t.dec.state = .done ∧ t.dec.size.toNat = file.length ∧ t.decOut = s.decOut ++ [file]) ∧
    (∀ e, decodeImages s.dec.pairs = .error e →
      t.dec.state = .error ∧ t.dec.err = e ∧ t.decOut = s.decOut)

/-- R128: a whole decoder run of at most `DEC_MAX_IMAGES` images, of one identifier when it is strict, emits what the
reference reassembler makes of the parsed images, or raises its error, whatever commands that are not decoder commands
come in between. -/
def Obligations.DecoderRunEqualsTheReference : Prop :=
  ∀ (s : State) (evs rest : List HostEvent) (images : List Image),
    s.params.Legal → s.dec.state = .idle ∨ s.dec.state = .done →
    images.length ≤ s.params.maxImages → (∀ img ∈ images, img.length = imageSamples s.params) →
    (s.host.ctrlStrict = true → ∀ img ∈ images, ∀ img' ∈ images, (parseImage img).1 = (parseImage img').1) →
    .reset ∉ evs → decoderCommands evs = images.flatMap (deliverImage s.params) →
    s.inbox = instrEvent .decStart :: (evs ++ instrEvent .decFinalize :: rest) →
    ∃ t replies last,
      core.run (evs.length + 2) s = .next t ∧ t.inbox = rest ∧
      t.replies = s.replies ++ replies ++ [last] ∧
      repliedOk decoderInstr (instrEvent .decStart :: evs) replies ∧
      (∀ file, decodeImages (images.map fun img => (parseImage img).2) = .ok file →
        t.decOut = s.decOut ++ [file] ∧ t.dec.state = .done ∧ last = ⟨.ok, 0⟩) ∧
      (∀ e, decodeImages (images.map fun img => (parseImage img).2) = .error e →
        t.decOut = s.decOut ∧ t.dec.state = .error ∧ t.dec.err = e ∧ last = ⟨.error, 0⟩)

/-- R129: a run's outcome, the file or the error code, is the same for every order of its images, in strict mode too. -/
def Obligations.DecoderRunIgnoresTheOrderOfImages : Prop :=
  ∀ (s : State) (images images' : List Image),
    s.params.Legal → s.dec.state = .idle ∨ s.dec.state = .done →
    images.length ≤ s.params.maxImages → (∀ img ∈ images, img.length = imageSamples s.params) →
    images.Perm images' →
    let events (imgs : List Image) : List HostEvent :=
      (.decStart :: (imgs.flatMap (deliverImage s.params) ++ [.decFinalize])).map instrEvent
    ∃ t t',
      core.run (events images).length { s with inbox := events images } = .next t ∧
      core.run (events images').length { s with inbox := events images' } = .next t' ∧
      t.decOut = t'.decOut ∧ t.dec.state = t'.dec.state ∧ t.dec.err = t'.dec.err

/-- R130: a step appends to `DEC_OUT` only by a `DEC_FINALIZE` that ends in DONE, one event at a time. -/
def Obligations.DecOutGrowsOnlyAtASuccessfulFinalize : Prop :=
  ∀ s t : State, step s = .next t →
    t.decOut = s.decOut ∨
    (∃ ev file, s.inbox.head? = some ev ∧ eventInstr ev = some .decFinalize ∧ s.dec.state = .collect ∧
      t.dec.state = .done ∧ t.decOut = s.decOut ++ [file])

/-! ## The pure functions -/

/-- Byte `i` of `be_n(v)` is `v[8(n-1-i)+7 : 8(n-1-i)]`, `from_be(bs)` is the sum of `bs[i] * 256^(|bs|-1-i)`, and each
inverts the other. That "big-endian" puts the most significant byte first is the spec's own reading, marked so in R14. -/
def Obligations.BigEndianRoundTrips : Prop :=
  (∀ n v i : Nat, v < 2 ^ (8 * n) → i < n →
    (beBytes n v)[i]?.map BitVec.toNat = some (v / 2 ^ (8 * (n - 1 - i)) % 2 ^ 8)) ∧
  (∀ bs : List Byte,
    fromBe bs = ((List.range bs.length).map fun i => (bs.getD i 0).toNat * 256 ^ (bs.length - 1 - i)).sum) ∧
  (∀ n v : Nat, v < 2 ^ (8 * n) → fromBe (beBytes n v) = v) ∧
  (∀ bs : List Byte, beBytes bs.length (fromBe bs) = bs)

/-- R83: `bitsToBytes` packs the groups of 8 bits one after another, and the bit codec's functions invert each other. -/
def Obligations.BitCodecRoundTrips : Prop :=
  (∀ bs : List Byte, bitsToBytes (bytesToBits bs) = bs) ∧
  (∀ bits : List Bool, bits.length = 8 → (bitsToSample bits).map sampleToBits = some bits) ∧
  (∀ bits : List Bool,
    (bitsToBytes bits).length = (bits.length + 7) / 8 ∧
    ∀ g < (bits.length + 7) / 8, (bitsToBytes bits)[g]? = bitsToSample ((bits.drop (8 * g)).take 8))

/-- R13, R40: bit `j` of `bytesToBits(bs)` is `bs[j / 8][7 - (j mod 8)]`, and there are `8 * |bs|` of them. -/
def Obligations.StreamBitsAreMostSignificantFirst : Prop :=
  ∀ bs : List Byte, (bytesToBits bs).length = 8 * bs.length ∧
    ∀ j : Nat, (bytesToBits bs)[j]? = (bs[j / 8]?).map fun b => b.getLsbD (7 - j % 8)

/-- R43, R45: in an image the identifier fills stream bits 0 to 63 and the sequence number stream bits 64 to 95, most
significant bit first, and parsing it gives back its three parts (R92). -/
def Obligations.ImageHeaderBits : Prop :=
  ∀ (id : DWord) (seq : Word) (c : List Byte),
    (∀ b < 64, streamBit (image id seq c) b = some (id.getLsbD (63 - b))) ∧
    (∀ b < 32, streamBit (image id seq c) (64 + b) = some (seq.getLsbD (31 - b))) ∧
    parseImage (image id seq c) = (id, seq, c)

/-- R87: the bit form and the byte form of the image count are equal; it is at least 1, and for the empty file it is 1
when `N >= 5` and 2 when `N = 4`. -/
def Obligations.TotalImagesFormsAgree : Prop :=
  ∀ (p : Params) (len : Nat), p.Legal →
    totalImages p len = ceilDiv (64 + 8 * len) (bitsPerImage p) ∧
    1 ≤ totalImages p len ∧ 8 + len ≤ totalImages p len * chunkBytes p ∧
    (totalImages p len - 1) * chunkBytes p < 8 + len ∧
    totalImages p 0 = if p.n = 4 then 2 else 1

/-- R42: the framed stream is 8 length bytes and the file, `64 + 8L` bits; framed byte `F[k]` is carried by chunk `k / P + 1` at offset `k mod P`; every chunk has `P` bytes. -/
def Obligations.FramedBytesLieInTheirChunks : Prop :=
  ∀ (p : Params) (file : List Byte), p.Legal →
    frame file = beBytes 8 file.length ++ file ∧ (frame file).length = 8 + file.length ∧
    (bytesToBits (frame file)).length = 64 + 8 * file.length ∧
    (∀ k < (frame file).length, (chunk p (frame file) (k / chunkBytes p + 1))[k % chunkBytes p]? = (frame file)[k]?) ∧
    (∀ i, 1 ≤ i → (chunk p (frame file) i).length = chunkBytes p)

/-- R93: sequence integrity holds exactly when the numbers are unique and form the dense range 1 to `K`. -/
def Obligations.SequenceIntegrityMeansDenseAndUnique : Prop :=
  ∀ seqs : List Word,
    seqIntegrity seqs = true ↔ seqs.Nodup ∧ ∀ j : Nat, (∃ q ∈ seqs, q.toNat = j) ↔ 1 ≤ j ∧ j ≤ seqs.length

/-- R95: decoding the images the reference encoder makes of a file gives the file. -/
def Obligations.DecodeInvertsEncode : Prop :=
  ∀ (p : Params) (id : DWord) (file : List Byte) (images : List Image), p.Legal →
    encodeImages p id file = .ok images →
    decodeImages (images.map fun img => (parseImage img).2) = .ok file

/-- R96, R97: image number `i` carries sequence number `i` and the identifier; there are `ceil((64 + 8L) / bitsPerImage)`
images, all of `P` framed bytes but the last, which is filled with zeros. -/
def Obligations.EncodedImagesAreNumberedAndFull : Prop :=
  ∀ (p : Params) (id : DWord) (file : List Byte) (images : List Image), p.Legal →
    encodeImages p id file = .ok images →
    images.length = ceilDiv (64 + 8 * file.length) (bitsPerImage p) ∧
    (∀ k img, images[k]? = some img →
      img.length = imageSamples p ∧ (parseImage img).1 = id ∧ (parseImage img).2.1.toNat = k + 1) ∧
    images.flatMap (fun img => (parseImage img).2.2) =
      frame file ++ List.replicate (images.length * chunkBytes p - (8 + file.length)) 0

/-- R98: reassembly does not depend on the order of the pairs. -/
def Obligations.DecodeIgnoresTheOrderOfImages : Prop :=
  ∀ pairs pairs' : List (Word × List Byte), pairs.Perm pairs' → decodeImages pairs = decodeImages pairs'

/-! ## Invariants -/

/-- After reset, of any legal parameters and of the OPEN ones, the invariants of R27 to R30 hold. -/
def Obligations.ResetMeetsTheInvariants : Prop :=
  (∀ p : Params, p.Legal → StateInv (State.resetOf p) ∧ OutputNumbered (State.resetOf p) ∧ OutputSized (State.resetOf p)) ∧
  StateInv State.reset ∧ OutputNumbered State.reset ∧ OutputSized State.reset

/-- Every step keeps the invariants that hold between commands (R27 to R30). -/
def Obligations.StepKeepsTheInvariants : Prop :=
  ∀ s t : State, StateInv s → step s = .next t → StateInv t

/-- Every step keeps the numbering of the run's images on `ENC_OUT` (R54, R96, R108). -/
def Obligations.StepKeepsTheOutputNumbered : Prop :=
  ∀ s t : State, StateInv s → OutputNumbered s → step s = .next t → OutputNumbered t

/-- Every step keeps, in DONE, the last event of `DEC_OUT` at `dec.size` bytes (R125, R130). -/
def Obligations.StepKeepsTheFileSized : Prop :=
  ∀ s t : State, OutputSized s → step s = .next t → OutputSized t
end

