-- ==== Sys2Proof/Laws/Codec.lean ====
section
/-! SUPPORT. What the pure functions of the codec do: lengths, the integer conversions, sorting. -/

namespace Sys2Proof.Machine

/-! ## Lengths -/

@[simp] theorem length_beBytes (n v : Nat) : (beBytes n v).length = n := by simp [beBytes]

@[simp] theorem length_zeroBytes (n : Nat) : (zeroBytes n).length = n := by simp [zeroBytes]

@[simp] theorem length_rangeFromOne (k : Nat) : (rangeFromOne k).length = k := by simp [rangeFromOne]

@[simp] theorem length_header (id : DWord) (seq : Word) : (header id seq).length = 12 := by simp [header]

@[simp] theorem length_image (id : DWord) (seq : Word) (c : List Byte) :
    (image id seq c).length = 12 + c.length := by simp [image]

@[simp] theorem length_sampleToBits (b : Byte) : (sampleToBits b).length = 8 := rfl

/-- A legal `N` gives an image of at least 16 samples, of which 12 are the header (R6, R7). -/
theorem imageSamples_eq (p : Params) (h : p.Legal) : imageSamples p = chunkBytes p + 12 := by
  have : 4 * 4 ≤ p.n * p.n := Nat.mul_le_mul h.1 h.1
  simp only [chunkBytes, imageSamples, headerBytes]
  omega

theorem four_le_chunkBytes (p : Params) (h : p.Legal) : 4 ≤ chunkBytes p := by
  have : 4 * 4 ≤ p.n * p.n := Nat.mul_le_mul h.1 h.1
  simp only [chunkBytes, imageSamples, headerBytes]
  omega

theorem imageSamples_lt (p : Params) (h : p.Legal) : imageSamples p < 2 ^ 32 := by
  have : p.n * p.n ≤ 65535 * 65535 := Nat.mul_le_mul h.2.1 h.2.1
  simp only [imageSamples]
  omega

theorem length_chunk (p : Params) (f : List Byte) (i : Nat) : (chunk p f i).length = chunkBytes p := by
  simp [chunk]

/-- Every image of the reference encoder has `S` samples (R90). -/
theorem length_image_chunk (p : Params) (hl : p.Legal) (id : DWord) (seq : Word) (f : List Byte) (i : Nat) :
    (image id seq (chunk p f i)).length = imageSamples p := by
  rw [length_image, length_chunk, imageSamples_eq p hl, Nat.add_comm]

/-- `ceil(a / b)` is the least number whose multiple of `b` reaches `a` (R10). -/
theorem ceilDiv_bounds (a b : Nat) (hb : 0 < b) : a ≤ ceilDiv a b * b ∧ ceilDiv a b * b < a + b := by
  have h1 := Nat.div_add_mod (a + b - 1) b
  have h2 := Nat.mod_lt (a + b - 1) hb
  rw [Nat.mul_comm] at h1
  simp only [ceilDiv]
  omega

theorem ceilDiv_unique (a b q : Nat) (hb : 0 < b) (h1 : a ≤ q * b) (h2 : q * b < a + b) : ceilDiv a b = q := by
  rw [ceilDiv, Nat.div_eq_iff hb]
  omega

/-! ## Big-endian integers -/

theorem beBytes_succ (n v : Nat) : beBytes (n + 1) v = BitVec.ofNat 8 (v / 256 ^ n) :: beBytes n v := by
  simp [beBytes, List.range_succ_eq_map, Function.comp_def, Nat.sub_sub, Nat.add_comm]

theorem fromBe_lt (bs : List Byte) : fromBe bs < 256 ^ bs.length := by
  induction bs with
  | nil => simp [fromBe]
  | cons b bs ih =>
    have hb : b.toNat ≤ 255 := by omega
    have : b.toNat * 256 ^ bs.length ≤ 255 * 256 ^ bs.length := Nat.mul_le_mul_right _ hb
    simp only [fromBe, List.length_cons, Nat.pow_succ]
    omega

theorem fromBe_append (as bs : List Byte) : fromBe (as ++ bs) = fromBe as * 256 ^ bs.length + fromBe bs := by
  induction as with
  | nil => simp [fromBe]
  | cons a as ih => simp only [List.cons_append, fromBe, ih, List.length_append, Nat.pow_add]; ring

/-- The bytes of a number hold its remainder modulo `256^n` (R14). -/
theorem fromBe_beBytes_mod (n v : Nat) : fromBe (beBytes n v) = v % 256 ^ n := by
  induction n with
  | zero => simp [beBytes, fromBe, Nat.mod_one]
  | succ n ih =>
    have split : v % (256 ^ n * 256) = v % 256 ^ n + 256 ^ n * (v / 256 ^ n % 256) := Nat.mod_mul
    rw [beBytes_succ, fromBe, ih, length_beBytes, BitVec.toNat_ofNat, show 256 ^ (n + 1) = 256 ^ n * 256 from rfl, split,
      Nat.mul_comm, Nat.add_comm]

theorem fromBe_beBytes_eight (v : DWord) : fromBe (beBytes 8 v.toNat) = v.toNat := by
  rw [fromBe_beBytes_mod, Nat.mod_eq_of_lt]
  exact v.isLt

theorem fromBe_beBytes_four (v : Word) : fromBe (beBytes 4 v.toNat) = v.toNat := by
  rw [fromBe_beBytes_mod, Nat.mod_eq_of_lt]
  exact v.isLt

/-! ## Sorting -/

theorem insertAscending_perm (x : Nat) (xs : List Nat) : (insertAscending x xs).Perm (x :: xs) := by
  induction xs with
  | nil => exact List.Perm.refl _
  | cons y ys ih =>
    simp only [insertAscending]
    split
    · exact List.Perm.refl _
    · exact (List.Perm.cons y ih).trans (List.Perm.swap x y ys)

theorem insertAscending_sorted (x : Nat) (xs : List Nat) (h : xs.Pairwise (· ≤ ·)) :
    (insertAscending x xs).Pairwise (· ≤ ·) := by
  induction xs with
  | nil => simp [insertAscending]
  | cons y ys ih =>
    rw [List.pairwise_cons] at h
    simp only [insertAscending]
    split
    next hxy =>
      refine List.pairwise_cons.2 ⟨?_, List.pairwise_cons.2 h⟩
      intro z hz
      rcases List.mem_cons.1 hz with rfl | hz
      · exact hxy
      · exact Nat.le_trans hxy (h.1 z hz)
    next hxy =>
      refine List.pairwise_cons.2 ⟨?_, ih h.2⟩
      intro z hz
      rcases List.mem_cons.1 ((insertAscending_perm x ys).mem_iff.1 hz) with rfl | hz
      · omega
      · exact h.1 z hz

theorem sortAscending_perm (xs : List Nat) : (sortAscending xs).Perm xs := by
  induction xs with
  | nil => exact List.Perm.refl _
  | cons x xs ih => exact (insertAscending_perm x _).trans (List.Perm.cons x ih)

theorem sortAscending_sorted (xs : List Nat) : (sortAscending xs).Pairwise (· ≤ ·) := by
  induction xs with
  | nil => exact List.Pairwise.nil
  | cons x xs ih => exact insertAscending_sorted x _ ih

theorem rangeFromOne_eq_range' (k : Nat) : rangeFromOne k = List.range' 1 k := by
  simp only [rangeFromOne, List.range_eq_range']
  rw [show (fun x : Nat => x + 1) = (1 + ·) from funext fun x => Nat.add_comm x 1, List.map_add_range']

theorem rangeFromOne_sorted (k : Nat) : (rangeFromOne k).Pairwise (· ≤ ·) := by
  rw [rangeFromOne_eq_range']
  exact List.pairwise_le_range'

theorem mem_rangeFromOne (k j : Nat) : j ∈ rangeFromOne k ↔ 1 ≤ j ∧ j ≤ k := by
  rw [rangeFromOne_eq_range', List.mem_range'_1]
  omega

theorem rangeFromOne_nodup (k : Nat) : (rangeFromOne k).Nodup := by
  rw [rangeFromOne_eq_range']
  exact List.nodup_range'

/-- The sorted list is `1 .. K` exactly when the list is a permutation of it (R93). -/
theorem sortAscending_eq_rangeFromOne (xs : List Nat) (k : Nat) :
    sortAscending xs = rangeFromOne k ↔ xs.Perm (rangeFromOne k) := by
  constructor
  · intro h
    rw [← h]
    exact (sortAscending_perm xs).symm
  · intro h
    exact ((sortAscending_perm xs).trans h).eq_of_pairwise (fun a b _ _ h₁ h₂ => Nat.le_antisymm h₁ h₂)
      (sortAscending_sorted xs) (rangeFromOne_sorted k)

end Sys2Proof.Machine
end

