-- ==== Sys2Proof/Laws/Decode.lean ====
section
/-! SUPPORT. What the decoder and the encoder do, field by field. -/

namespace Sys2Proof

open Sys2Proof.Machine

/-- A command word is its opcode, its 16 middle bits and its low byte, put together (R62 to R64). -/
theorem word_eq_fields (cmd : Word) :
    cmd = ((opField cmd).setWidth 32 <<< 24) ||| ((reservedAB cmd).setWidth 32 <<< 8) ||| (lowByte cmd).setWidth 32 := by
  apply BitVec.eq_of_getLsbD_eq
  intro i hi
  simp only [opField, reservedAB, lowByte, BitVec.getLsbD_or, BitVec.getLsbD_shiftLeft, BitVec.getLsbD_setWidth,
    BitVec.getLsbD_extractLsb', hi]
  by_cases h8 : i < 8
  · simp [h8, show i < 24 by omega]
  · by_cases h24 : i < 24
    · simp [h8, h24, show i - 8 < 16 by omega, show i - 8 < 32 by omega, show 8 + (i - 8) = i by omega]
    · simp [h8, h24, show ¬ i - 8 < 16 by omega, show i - 24 < 8 by omega, show i - 24 < 32 by omega,
        show 24 + (i - 24) = i by omega]

@[simp] theorem opField_assembled (op byte : Byte) :
    opField ((op.setWidth 32 <<< 24) ||| byte.setWidth 32) = op := by
  apply BitVec.eq_of_getLsbD_eq
  intro i hi
  simp [opField, hi, show 24 + i < 32 by omega, BitVec.getLsbD_of_ge byte (24 + i) (by omega)]

@[simp] theorem lowByte_assembled (op byte : Byte) :
    lowByte ((op.setWidth 32 <<< 24) ||| byte.setWidth 32) = byte := by
  apply BitVec.eq_of_getLsbD_eq
  intro i hi
  simp [lowByte, hi, show i < 24 by omega, show i < 32 by omega]

@[simp] theorem reservedAB_assembled (op byte : Byte) :
    reservedAB ((op.setWidth 32 <<< 24) ||| byte.setWidth 32) = 0 := by
  apply BitVec.eq_of_getLsbD_eq
  intro i hi
  simp [reservedAB, show 8 + i < 24 by omega]

@[simp] theorem reservedZ_assembled (op : Byte) : reservedZ ((op.setWidth 32 <<< 24) ||| 0) = 0 := by
  apply BitVec.eq_of_getLsbD_eq
  intro i hi
  simp [reservedZ, hi]

@[simp] theorem opcodeOfByte_code (op : Opcode) : opcodeOfByte op.code = some op := by cases op <;> rfl

/-- The byte of the opcode it spells (R66). -/
theorem code_of_opcodeOfByte (b : Byte) (op : Opcode) (h : opcodeOfByte b = some op) : op.code = b := by
  simpa using List.find?_some h

@[simp] theorem widthField_assembled (w h : Half) : widthField ((w.setWidth 32 <<< 16) ||| h.setWidth 32) = w := by
  apply BitVec.eq_of_getLsbD_eq
  intro i hi
  simp [widthField, hi, show 16 + i < 32 by omega]

@[simp] theorem heightField_assembled (w h : Half) : heightField ((w.setWidth 32 <<< 16) ||| h.setWidth 32) = h := by
  apply BitVec.eq_of_getLsbD_eq
  intro i hi
  simp [heightField, hi, show i < 32 by omega]

/-- A word with a defined opcode and a clear reserved field decodes to that opcode's command (R68). -/
theorem decode_assembled (op : Opcode) (byte : Byte) (wdata : Word) (h : op.format = .z → byte = 0) :
    decode ((op.code.setWidth 32 <<< 24) ||| byte.setWidth 32) wdata =
      .ok (assembleOperands op ((op.code.setWidth 32 <<< 24) ||| byte.setWidth 32) wdata) := by
  have hc : reservedClear op.format ((op.code.setWidth 32 <<< 24) ||| byte.setWidth 32) = true := by
    cases hf : op.format with
    | z =>
      rw [h hf]
      exact beq_iff_eq.2 (reservedZ_assembled op.code)
    | a => exact beq_iff_eq.2 (reservedAB_assembled op.code byte)
    | b => exact beq_iff_eq.2 (reservedAB_assembled op.code byte)
  simp only [decode, opField_assembled, opcodeOfByte_code, hc, if_true]

/-- A clear reserved field leaves only the opcode and, outside format Z, the low byte (R62 to R64). -/
theorem fields_of_reservedClear (f : Format) (cmd : Word) (h : reservedClear f cmd = true) :
    reservedAB cmd = 0 ∧ (f = .z → lowByte cmd = 0) := by
  cases f with
  | z =>
    have hz : reservedZ cmd = 0 := by simpa [reservedClear] using h
    constructor
    · apply BitVec.eq_of_getLsbD_eq
      intro i hi
      simpa [reservedZ, reservedAB, show 8 + i < 24 by omega, hi] using congrArg (fun v => v.getLsbD (8 + i)) hz
    · intro _
      apply BitVec.eq_of_getLsbD_eq
      intro i hi
      simpa [reservedZ, lowByte, show i < 24 by omega, hi] using congrArg (fun v => v.getLsbD i) hz
  | a => exact ⟨by simpa [reservedClear] using h, by simp⟩
  | b => exact ⟨by simpa [reservedClear] using h, by simp⟩

/-- The write data is its two dimension fields, put together (R65). -/
theorem wdata_eq_fields (wdata : Word) :
    wdata = ((widthField wdata).setWidth 32 <<< 16) ||| (heightField wdata).setWidth 32 := by
  apply BitVec.eq_of_getLsbD_eq
  intro i hi
  simp only [widthField, heightField, BitVec.getLsbD_or, BitVec.getLsbD_shiftLeft, BitVec.getLsbD_setWidth,
    BitVec.getLsbD_extractLsb', hi]
  by_cases h : i < 16
  · simp [h]
  · simp [h, show i - 16 < 16 by omega, show i - 16 < 32 by omega, show 16 + (i - 16) = i by omega]

end Sys2Proof
end

