-- ==== Sys2Proof/Laws/State.lean ====
section
/-! SUPPORT. One lemma per field of State per named operation, so that no proof unfolds a record update. -/

namespace Sys2Proof.Machine

variable (s : State)

/-! ## respond -/

@[simp] theorem respond_params (r : Resp) (d : Word) : (respond r d s).params = s.params := rfl
@[simp] theorem respond_host (r : Resp) (d : Word) : (respond r d s).host = s.host := rfl
@[simp] theorem respond_enc (r : Resp) (d : Word) : (respond r d s).enc = s.enc := rfl
@[simp] theorem respond_dec (r : Resp) (d : Word) : (respond r d s).dec = s.dec := rfl
@[simp] theorem respond_inbox (r : Resp) (d : Word) : (respond r d s).inbox = s.inbox := rfl
@[simp] theorem respond_replies (r : Resp) (d : Word) : (respond r d s).replies = s.replies ++ [⟨r, d⟩] := rfl
@[simp] theorem respond_encOut (r : Resp) (d : Word) : (respond r d s).encOut = s.encOut := rfl
@[simp] theorem respond_decOut (r : Resp) (d : Word) : (respond r d s).decOut = s.decOut := rfl

/-! ## illegal -/

@[simp] theorem illegal_params : (illegal s).params = s.params := rfl
@[simp] theorem illegal_host : (illegal s).host = s.host := rfl
@[simp] theorem illegal_enc : (illegal s).enc = s.enc := rfl
@[simp] theorem illegal_dec : (illegal s).dec = s.dec := rfl
@[simp] theorem illegal_inbox : (illegal s).inbox = s.inbox := rfl
@[simp] theorem illegal_replies : (illegal s).replies = s.replies ++ [⟨.illegal, 0⟩] := rfl
@[simp] theorem illegal_encOut : (illegal s).encOut = s.encOut := rfl
@[simp] theorem illegal_decOut : (illegal s).decOut = s.decOut := rfl

/-! ## emitImage -/

@[simp] theorem emitImage_params (img : Image) : (emitImage img s).params = s.params := rfl
@[simp] theorem emitImage_host (img : Image) : (emitImage img s).host = s.host := rfl
@[simp] theorem emitImage_enc (img : Image) : (emitImage img s).enc = s.enc := rfl
@[simp] theorem emitImage_dec (img : Image) : (emitImage img s).dec = s.dec := rfl
@[simp] theorem emitImage_inbox (img : Image) : (emitImage img s).inbox = s.inbox := rfl
@[simp] theorem emitImage_replies (img : Image) : (emitImage img s).replies = s.replies := rfl
@[simp] theorem emitImage_encOut (img : Image) : (emitImage img s).encOut = s.encOut ++ [img] := rfl
@[simp] theorem emitImage_decOut (img : Image) : (emitImage img s).decOut = s.decOut := rfl

/-! ## emitBytes -/

@[simp] theorem emitBytes_params (bs : List Byte) : (emitBytes bs s).params = s.params := rfl
@[simp] theorem emitBytes_host (bs : List Byte) : (emitBytes bs s).host = s.host := rfl
@[simp] theorem emitBytes_enc (bs : List Byte) : (emitBytes bs s).enc = s.enc := rfl
@[simp] theorem emitBytes_dec (bs : List Byte) : (emitBytes bs s).dec = s.dec := rfl
@[simp] theorem emitBytes_inbox (bs : List Byte) : (emitBytes bs s).inbox = s.inbox := rfl
@[simp] theorem emitBytes_replies (bs : List Byte) : (emitBytes bs s).replies = s.replies := rfl
@[simp] theorem emitBytes_encOut (bs : List Byte) : (emitBytes bs s).encOut = s.encOut := rfl
@[simp] theorem emitBytes_decOut (bs : List Byte) : (emitBytes bs s).decOut = s.decOut ++ [bs] := rfl

/-! ## raiseEnc -/

@[simp] theorem raiseEnc_params (e : ErrorCode) : (raiseEnc e s).params = s.params := rfl
@[simp] theorem raiseEnc_host (e : ErrorCode) : (raiseEnc e s).host = s.host := rfl
@[simp] theorem raiseEnc_enc (e : ErrorCode) : (raiseEnc e s).enc = { s.enc with state := .error, err := e } := rfl
@[simp] theorem raiseEnc_dec (e : ErrorCode) : (raiseEnc e s).dec = s.dec := rfl
@[simp] theorem raiseEnc_inbox (e : ErrorCode) : (raiseEnc e s).inbox = s.inbox := rfl
@[simp] theorem raiseEnc_replies (e : ErrorCode) : (raiseEnc e s).replies = s.replies ++ [⟨.error, 0⟩] := rfl
@[simp] theorem raiseEnc_encOut (e : ErrorCode) : (raiseEnc e s).encOut = s.encOut := rfl
@[simp] theorem raiseEnc_decOut (e : ErrorCode) : (raiseEnc e s).decOut = s.decOut := rfl

/-! ## raiseDec -/

@[simp] theorem raiseDec_params (e : ErrorCode) : (raiseDec e s).params = s.params := rfl
@[simp] theorem raiseDec_host (e : ErrorCode) : (raiseDec e s).host = s.host := rfl
@[simp] theorem raiseDec_enc (e : ErrorCode) : (raiseDec e s).enc = s.enc := rfl
@[simp] theorem raiseDec_dec (e : ErrorCode) : (raiseDec e s).dec = { s.dec with state := .error, err := e } := rfl
@[simp] theorem raiseDec_inbox (e : ErrorCode) : (raiseDec e s).inbox = s.inbox := rfl
@[simp] theorem raiseDec_replies (e : ErrorCode) : (raiseDec e s).replies = s.replies ++ [⟨.error, 0⟩] := rfl
@[simp] theorem raiseDec_encOut (e : ErrorCode) : (raiseDec e s).encOut = s.encOut := rfl
@[simp] theorem raiseDec_decOut (e : ErrorCode) : (raiseDec e s).decOut = s.decOut := rfl

/-! ## engineInError -/

@[simp] theorem engineInError_params : (engineInError s).params = s.params := rfl
@[simp] theorem engineInError_host : (engineInError s).host = s.host := rfl
@[simp] theorem engineInError_enc : (engineInError s).enc = s.enc := rfl
@[simp] theorem engineInError_dec : (engineInError s).dec = s.dec := rfl
@[simp] theorem engineInError_inbox : (engineInError s).inbox = s.inbox := rfl
@[simp] theorem engineInError_replies : (engineInError s).replies = s.replies ++ [⟨.error, 0⟩] := rfl
@[simp] theorem engineInError_encOut : (engineInError s).encOut = s.encOut := rfl
@[simp] theorem engineInError_decOut : (engineInError s).decOut = s.decOut := rfl

/-! ## clearEnc -/

@[simp] theorem clearEnc_params : (clearEnc s).params = s.params := rfl
@[simp] theorem clearEnc_host : (clearEnc s).host = s.host := rfl
@[simp] theorem clearEnc_enc : (clearEnc s).enc = Encoder.reset := rfl
@[simp] theorem clearEnc_dec : (clearEnc s).dec = s.dec := rfl
@[simp] theorem clearEnc_inbox : (clearEnc s).inbox = s.inbox := rfl
@[simp] theorem clearEnc_replies : (clearEnc s).replies = s.replies := rfl
@[simp] theorem clearEnc_encOut : (clearEnc s).encOut = s.encOut := rfl
@[simp] theorem clearEnc_decOut : (clearEnc s).decOut = s.decOut := rfl

/-! ## clearDec -/

@[simp] theorem clearDec_params : (clearDec s).params = s.params := rfl
@[simp] theorem clearDec_host : (clearDec s).host = s.host := rfl
@[simp] theorem clearDec_enc : (clearDec s).enc = s.enc := rfl
@[simp] theorem clearDec_dec : (clearDec s).dec = Decoder.reset := rfl
@[simp] theorem clearDec_inbox : (clearDec s).inbox = s.inbox := rfl
@[simp] theorem clearDec_replies : (clearDec s).replies = s.replies := rfl
@[simp] theorem clearDec_encOut : (clearDec s).encOut = s.encOut := rfl
@[simp] theorem clearDec_decOut : (clearDec s).decOut = s.decOut := rfl

/-! ## applyReset -/

@[simp] theorem applyReset_params : (applyReset s).params = s.params := rfl
@[simp] theorem applyReset_host : (applyReset s).host = HostRegs.reset := rfl
@[simp] theorem applyReset_enc : (applyReset s).enc = Encoder.reset := rfl
@[simp] theorem applyReset_dec : (applyReset s).dec = Decoder.reset := rfl
@[simp] theorem applyReset_inbox : (applyReset s).inbox = s.inbox := rfl
@[simp] theorem applyReset_replies : (applyReset s).replies = s.replies := rfl
@[simp] theorem applyReset_encOut : (applyReset s).encOut = s.encOut := rfl
@[simp] theorem applyReset_decOut : (applyReset s).decOut = s.decOut := rfl

/-! ## placeEvent -/

@[simp] theorem placeEvent_params (ev : HostEvent) : (placeEvent ev s).params = s.params := rfl
@[simp] theorem placeEvent_host (ev : HostEvent) : (placeEvent ev s).host = s.host := rfl
@[simp] theorem placeEvent_enc (ev : HostEvent) : (placeEvent ev s).enc = s.enc := rfl
@[simp] theorem placeEvent_dec (ev : HostEvent) : (placeEvent ev s).dec = s.dec := rfl
@[simp] theorem placeEvent_inbox (ev : HostEvent) : (placeEvent ev s).inbox = ev :: s.inbox := rfl
@[simp] theorem placeEvent_replies (ev : HostEvent) : (placeEvent ev s).replies = s.replies := rfl
@[simp] theorem placeEvent_encOut (ev : HostEvent) : (placeEvent ev s).encOut = s.encOut := rfl
@[simp] theorem placeEvent_decOut (ev : HostEvent) : (placeEvent ev s).decOut = s.decOut := rfl

/-! ## State.resetOf -/

variable (p : Params)

@[simp] theorem resetOf_params : (State.resetOf p).params = p := rfl
@[simp] theorem resetOf_host : (State.resetOf p).host = HostRegs.reset := rfl
@[simp] theorem resetOf_enc : (State.resetOf p).enc = Encoder.reset := rfl
@[simp] theorem resetOf_dec : (State.resetOf p).dec = Decoder.reset := rfl
@[simp] theorem resetOf_inbox : (State.resetOf p).inbox = [] := rfl
@[simp] theorem resetOf_replies : (State.resetOf p).replies = [] := rfl
@[simp] theorem resetOf_encOut : (State.resetOf p).encOut = [] := rfl
@[simp] theorem resetOf_decOut : (State.resetOf p).decOut = [] := rfl

end Sys2Proof.Machine
end

