-- ==== Sys2Proof/Laws/Decoder.lean ====
section
/-! SUPPORT. What the decoder's procedures do: their cases, and that they raise an error code wherever they raise. -/

namespace Sys2Proof.Machine

/-! ## Samples -/

theorem takeSample_identifier (b : Byte) (d : Decoder) (h : d.scnt.toNat < 8) :
    takeSample b d = { d with curId := d.curId * 256 + b.setWidth 64 } := by
  simp [takeSample, h]

theorem takeSample_sequence (b : Byte) (d : Decoder) (h8 : 8 ≤ d.scnt.toNat) (h12 : d.scnt.toNat < 12) :
    takeSample b d = { d with curSeq := d.curSeq * 256 + b.setWidth 32 } := by
  simp [takeSample, h12, Nat.not_lt.2 h8]

theorem takeSample_payload (b : Byte) (d : Decoder) (h : 12 ≤ d.scnt.toNat) :
    takeSample b d = { d with curChunk := d.curChunk ++ [b] } := by
  simp [takeSample, Nat.not_lt.2 h, Nat.not_lt.2 (Nat.le_trans (by decide : 8 ≤ 12) h)]

/-- A sample that leaves its image open (R123). -/
theorem deliverSample_open (b : Byte) (s : State) (h : s.dec.scnt.toNat + 1 < imageSamples s.params) :
    deliverSample b s =
      respond .ok 0 { s with dec := { takeSample b s.dec with scnt := s.dec.scnt + 1 } } := by
  simp [deliverSample, h]

/-- The last sample of an image is a payload sample, and the image then completes (R123, R124). -/
theorem deliverSample_last (b : Byte) (s : State) (hl : s.params.Legal)
    (h : s.dec.scnt.toNat + 1 = imageSamples s.params) :
    deliverSample b s = completeImage { s.dec with curChunk := s.dec.curChunk ++ [b] } s := by
  have hS := imageSamples_eq s.params hl
  have hP := four_le_chunkBytes s.params hl
  rw [← takeSample_payload b s.dec (by omega)]
  simp [deliverSample, h]

/-- Everything completing an image can do (R124): a mismatched identifier, a full store, or the image stored. -/
theorem completeImage_cases (d : Decoder) (s : State) :
    ((d.strict = true ∧ d.refValid = true ∧ d.curId ≠ d.refId) ∧
        completeImage d s = raiseDec .streamIdentifierMismatch s) ∨
      (¬ (d.strict = true ∧ d.refValid = true ∧ d.curId ≠ d.refId) ∧ d.count.toNat = s.params.maxImages ∧
        completeImage d s = raiseDec .capacityOverflow s) ∨
      (¬ (d.strict = true ∧ d.refValid = true ∧ d.curId ≠ d.refId) ∧ d.count.toNat ≠ s.params.maxImages ∧
        completeImage d s = respond .ok 0 { s with dec := storeImage d }) := by
  by_cases hm : d.strict = true ∧ d.refValid = true ∧ d.curId ≠ d.refId
  · exact .inl ⟨hm, by rw [completeImage, if_pos hm]⟩
  · by_cases hc : d.count.toNat = s.params.maxImages
    · exact .inr (.inl ⟨hm, hc, by rw [completeImage, if_neg hm, if_pos hc]⟩)
    · exact .inr (.inr ⟨hm, hc, by rw [completeImage, if_neg hm, if_neg hc]⟩)

/-- Everything `DEC_IMG_BEGIN` past its legality check can do (R122). -/
theorem beginImage_cases (width height : Half) (s : State) :
    ((width.toNat ≠ s.params.n ∨ height.toNat ≠ s.params.n) ∧
        beginImage width height s = raiseDec .dimensionMismatch s) ∨
      ((width.toNat = s.params.n ∧ height.toNat = s.params.n) ∧
        beginImage width height s = respond .ok 0
          { s with dec :=
            { s.dec with scnt := 0, curId := 0, curSeq := 0, curChunk := [], state := .inImage } }) := by
  by_cases h : width.toNat ≠ s.params.n ∨ height.toNat ≠ s.params.n
  · exact .inl ⟨h, by rw [beginImage, if_pos h]⟩
  · exact .inr ⟨by simpa [not_or] using h, by rw [beginImage, if_neg h]⟩

/-! ## Reassembly -/

/-- Every error of `DEC_FINALIZE` is one of its four, so never code 0 (R125, R140). -/
theorem reassemble_error_ne (p : Params) (d : Decoder) (e : ErrorCode) (h : reassemble p d = .error e) :
    e ≠ .noError := by
  simp only [reassemble] at h
  repeat' split at h
  all_goals cases h
  all_goals simp

/-- Everything `DEC_FINALIZE` past its legality check can do (R125). -/
theorem finalizeRun_cases (s : State) :
    (∃ e, reassemble s.params s.dec = .error e ∧ finalizeRun s = raiseDec e s) ∨
      (∃ size file, reassemble s.params s.dec = .ok (size, file) ∧
        finalizeRun s =
          respond .ok 0 (emitBytes file { s with dec := { s.dec with size := size, state := .done } })) := by
  rcases h : reassemble s.params s.dec with e | ⟨size, file⟩
  · exact .inl ⟨e, rfl, by simp [finalizeRun, h]⟩
  · exact .inr ⟨size, file, rfl, by simp [finalizeRun, h]⟩

end Sys2Proof.Machine
end

