-- ==== Sys2Proof/Laws/Encoder.lean ====
section
/-! SUPPORT. What the encoder's procedures do: their cases and their frames. -/

namespace Sys2Proof.Machine

/-! ## appendByte -/

theorem appendByte_full (s : State) (b : Byte) (h : s.enc.buf.length + 1 = chunkBytes s.params) :
    appendByte s b = emitChunk (s.enc.buf ++ [b]) s := by
  simp [appendByte, h]

theorem appendByte_open (s : State) (b : Byte) (h : s.enc.buf.length + 1 ≠ chunkBytes s.params) :
    appendByte s b = { s with enc := { s.enc with buf := s.enc.buf ++ [b] } } := by
  simp [appendByte, h]

/-- The frame of `appendByte`: of the encoder only `emitted` and `buf` change, and beside it only `ENC_OUT` (R100). -/
theorem appendByte_frame (s : State) (b : Byte) :
    appendByte s b =
      { s with
        enc := { s.enc with emitted := (appendByte s b).enc.emitted, buf := (appendByte s b).enc.buf }
        encOut := (appendByte s b).encOut } := by
  by_cases h : s.enc.buf.length + 1 = chunkBytes s.params
  · rw [appendByte_full s b h]; rfl
  · rw [appendByte_open s b h]

/-- The frame of appending several bytes. -/
theorem appendBytes_frame (bs : List Byte) (s : State) :
    bs.foldl appendByte s =
      { s with
        enc := { s.enc with emitted := (bs.foldl appendByte s).enc.emitted, buf := (bs.foldl appendByte s).enc.buf }
        encOut := (bs.foldl appendByte s).encOut } := by
  induction bs generalizing s with
  | nil => rfl
  | cons b bs ih =>
    rw [List.foldl_cons, ih (appendByte s b), appendByte_frame s b]

/-- Bytes that do not fill the chunk are only buffered (R100). -/
theorem appendBytes_open (bs : List Byte) (s : State) (h : s.enc.buf.length + bs.length < chunkBytes s.params) :
    bs.foldl appendByte s = { s with enc := { s.enc with buf := s.enc.buf ++ bs } } := by
  induction bs generalizing s with
  | nil => simp
  | cons b bs ih =>
    rw [List.length_cons] at h
    rw [List.foldl_cons, appendByte_open s b (by omega), ih _ (by simp; omega)]
    simp

/-! ## finishRun -/

theorem finishRun_empty (s : State) (h : s.enc.buf = []) :
    finishRun s = { s with enc := { s.enc with state := .done } } := by
  simp [finishRun, h]

theorem finishRun_pending (s : State) (h : 0 < s.enc.buf.length) :
    finishRun s =
      { s with
        enc := { s.enc with state := .done, emitted := s.enc.emitted + 1, buf := [] }
        encOut := s.encOut ++ [image s.enc.id (s.enc.emitted + 1)
          (s.enc.buf ++ zeroBytes (chunkBytes s.params - s.enc.buf.length))] } := by
  simp only [finishRun, h, if_true]
  rfl

/-- The frame of `finish()`: of the encoder only `state`, `emitted` and `buf` change, and beside it only `ENC_OUT`
(R101). -/
theorem finishRun_frame (s : State) :
    finishRun s =
      { s with
        enc := { s.enc with state := .done, emitted := (finishRun s).enc.emitted, buf := [] }
        encOut := (finishRun s).encOut } := by
  by_cases h : 0 < s.enc.buf.length
  · rw [finishRun_pending s h]
  · have h' : s.enc.buf = [] := List.length_eq_zero_iff.1 (by omega)
    rw [finishRun_empty s h', ← h']

/-! ## The bytes consumed by a run -/

/-- The run so far has consumed exactly the framed bytes `f`: the full chunks of `f` were emitted after what stood on
`ENC_OUT` before the run, and the rest waits in the buffer (R27, R100). -/
structure Consumed (before : List Image) (f : List Byte) (s : State) : Prop where
  fill_lt : s.enc.buf.length < chunkBytes s.params
  count : s.enc.emitted.toNat * chunkBytes s.params + s.enc.buf.length = f.length
  pending : s.enc.buf = f.drop (s.enc.emitted.toNat * chunkBytes s.params)
  out : s.encOut = before ++ (rangeFromOne s.enc.emitted.toNat).map fun i =>
    image s.enc.id (BitVec.ofNat 32 i) (chunk s.params f i)

/-- A full chunk does not change when the stream goes on. -/
theorem chunk_append (p : Params) (f g : List Byte) (i : Nat) (hi : 1 ≤ i) (h : i * chunkBytes p ≤ f.length) :
    chunk p (f ++ g) i = chunk p f i := by
  have hsplit : i * chunkBytes p = (i - 1) * chunkBytes p + chunkBytes p := by
    obtain ⟨j, rfl⟩ : ∃ j, i = j + 1 := ⟨i - 1, by omega⟩
    simp [Nat.add_mul]
  have hdrop : (f ++ g).drop ((i - 1) * chunkBytes p) = f.drop ((i - 1) * chunkBytes p) ++ g :=
    List.drop_append_of_le_length (by omega)
  have htake : ((f ++ g).drop ((i - 1) * chunkBytes p)).take (chunkBytes p) =
      (f.drop ((i - 1) * chunkBytes p)).take (chunkBytes p) := by
    rw [hdrop, List.take_append_of_le_length (by rw [List.length_drop]; omega)]
  simp only [chunk, htake]

theorem rangeFromOne_succ (k : Nat) : rangeFromOne (k + 1) = rangeFromOne k ++ [k + 1] := by
  simp [rangeFromOne, List.range_succ]

/-- Emitted images of the stream so far are those of any longer stream. -/
theorem emitted_append (p : Params) (id : DWord) (f g : List Byte) (n : Nat) (h : n * chunkBytes p ≤ f.length) :
    ((rangeFromOne n).map fun i => image id (BitVec.ofNat 32 i) (chunk p (f ++ g) i)) =
      (rangeFromOne n).map fun i => image id (BitVec.ofNat 32 i) (chunk p f i) := by
  refine List.map_congr_left fun i hi => ?_
  obtain ⟨h1, h2⟩ := (mem_rangeFromOne n i).1 hi
  rw [chunk_append p f g i h1 (Nat.le_trans (Nat.mul_le_mul_right _ h2) h)]

/-- `appendByte` consumes one more byte, while the sequence number fits its width (R100). -/
theorem appendByte_consumed (before : List Image) (f : List Byte) (s : State) (b : Byte)
    (h : Consumed before f s) (hw : s.enc.emitted.toNat + 1 < 2 ^ 32) :
    Consumed before (f ++ [b]) (appendByte s b) := by
  obtain ⟨hlt, hcount, hpend, hout⟩ := h
  by_cases hfull : s.enc.buf.length + 1 = chunkBytes s.params
  · have hem : (s.enc.emitted + 1).toNat = s.enc.emitted.toNat + 1 := by
      rw [BitVec.toNat_add]; exact Nat.mod_eq_of_lt hw
    have hlen : (s.enc.emitted.toNat + 1) * chunkBytes s.params = f.length + 1 := by
      rw [Nat.add_mul]; omega
    rw [appendByte_full s b hfull]
    refine ⟨?_, ?_, ?_, ?_⟩
    · show (0 : Nat) < chunkBytes s.params
      omega
    · show (s.enc.emitted + 1).toNat * chunkBytes s.params + 0 = (f ++ [b]).length
      rw [hem, hlen]; simp
    · show [] = (f ++ [b]).drop ((s.enc.emitted + 1).toNat * chunkBytes s.params)
      rw [hem, hlen]; simp
    · show s.encOut ++ [image s.enc.id (s.enc.emitted + 1) (s.enc.buf ++ [b])] = _
      have hseq : BitVec.ofNat 32 (s.enc.emitted.toNat + 1) = s.enc.emitted + 1 := by
        rw [← hem, BitVec.ofNat_toNat, BitVec.setWidth_eq]
      have hlast : chunk s.params (f ++ [b]) (s.enc.emitted.toNat + 1) = s.enc.buf ++ [b] := by
        have hd : (f ++ [b]).drop (s.enc.emitted.toNat * chunkBytes s.params) = s.enc.buf ++ [b] := by
          rw [List.drop_append_of_le_length (by omega), ← hpend]
        simp only [chunk, Nat.add_sub_cancel, hd]
        rw [List.take_of_length_le (by simp; omega)]
        simp [hfull, zeroBytes]
      show _ = before ++ (rangeFromOne (s.enc.emitted + 1).toNat).map fun i =>
        image s.enc.id (BitVec.ofNat 32 i) (chunk s.params (f ++ [b]) i)
      rw [hem, rangeFromOne_succ, List.map_append, emitted_append _ _ _ _ _ (by omega), hout]
      simp [hseq, hlast]
  · rw [appendByte_open s b hfull]
    refine ⟨?_, ?_, ?_, ?_⟩
    · show (s.enc.buf ++ [b]).length < chunkBytes s.params
      simp; omega
    · show s.enc.emitted.toNat * chunkBytes s.params + (s.enc.buf ++ [b]).length = (f ++ [b]).length
      simp; omega
    · show s.enc.buf ++ [b] = (f ++ [b]).drop (s.enc.emitted.toNat * chunkBytes s.params)
      rw [List.drop_append_of_le_length (by omega), ← hpend]
    · show s.encOut = before ++ (rangeFromOne s.enc.emitted.toNat).map fun i =>
        image s.enc.id (BitVec.ofNat 32 i) (chunk s.params (f ++ [b]) i)
      rw [emitted_append _ _ _ _ _ (by omega), hout]

/-- Appending several bytes consumes them, while the images they fill can be numbered (R100). -/
theorem appendBytes_consumed (before : List Image) (bs f : List Byte) (s : State) (h : Consumed before f s)
    (hw : f.length + bs.length < 2 ^ 32) : Consumed before (f ++ bs) (bs.foldl appendByte s) := by
  induction bs generalizing s f with
  | nil => simpa using h
  | cons b bs ih =>
    rw [List.length_cons] at hw
    have hpos : 0 < chunkBytes s.params := Nat.lt_of_le_of_lt (Nat.zero_le _) h.fill_lt
    have hem : s.enc.emitted.toNat ≤ s.enc.emitted.toNat * chunkBytes s.params := Nat.le_mul_of_pos_right _ hpos
    have hcount := h.count
    have hb := appendByte_consumed before f s b h (by omega)
    simpa using ih (f ++ [b]) _ hb (by simp; omega)

/-- `ENC_START`'s run begins with nothing consumed and then has consumed the size prefix (R103). -/
theorem prefix_consumed (s : State) (hl : s.params.Legal) :
    Consumed s.encOut (beBytes 8 s.host.encLenReg.toNat)
      ((beBytes 8 s.host.encLenReg.toNat).foldl appendByte (latchEncoderRun s)) := by
  have h0 : Consumed s.encOut [] (latchEncoderRun s) := by
    have hP := four_le_chunkBytes _ hl
    refine ⟨?_, ?_, ?_, ?_⟩
    · show 0 < chunkBytes s.params
      omega
    · simp [latchEncoderRun]
    · simp [latchEncoderRun]
    · simp [latchEncoderRun, rangeFromOne]
  simpa using appendBytes_consumed _ (beBytes 8 s.host.encLenReg.toNat) [] _ h0 (by simp)

/-- `finish()` after the whole stream `f` leaves the reference encoder's chunks of `f` on `ENC_OUT` (R101). -/
theorem finishRun_out (before : List Image) (f : List Byte) (s : State)
    (h : Consumed before f s) (hw : s.enc.buf ≠ [] → s.enc.emitted.toNat + 1 < 2 ^ 32) :
    (finishRun s).enc.emitted.toNat = ceilDiv f.length (chunkBytes s.params) ∧
      (finishRun s).encOut = before ++ (rangeFromOne (ceilDiv f.length (chunkBytes s.params))).map fun i =>
        image s.enc.id (BitVec.ofNat 32 i) (chunk s.params f i) := by
  obtain ⟨hlt, hcount, hpend, hout⟩ := h
  have hpos : 0 < chunkBytes s.params := by omega
  by_cases hb : 0 < s.enc.buf.length
  · have hem : (s.enc.emitted + 1).toNat = s.enc.emitted.toNat + 1 := by
      rw [BitVec.toNat_add]
      exact Nat.mod_eq_of_lt (hw (List.ne_nil_of_length_pos hb))
    have hceil : ceilDiv f.length (chunkBytes s.params) = s.enc.emitted.toNat + 1 := by
      rw [ceilDiv, Nat.div_eq_iff hpos, Nat.add_mul]
      omega
    rw [finishRun_pending s hb, hceil]
    refine ⟨hem, ?_⟩
    have hseq : BitVec.ofNat 32 (s.enc.emitted.toNat + 1) = s.enc.emitted + 1 := by
      rw [← hem, BitVec.ofNat_toNat, BitVec.setWidth_eq]
    have hlast : chunk s.params f (s.enc.emitted.toNat + 1) =
        s.enc.buf ++ zeroBytes (chunkBytes s.params - s.enc.buf.length) := by
      simp only [chunk, Nat.add_sub_cancel, ← hpend]
      rw [List.take_of_length_le (by omega)]
    rw [rangeFromOne_succ, List.map_append]
    simp [hout, hseq, hlast]
  · have hnil : s.enc.buf = [] := List.length_eq_zero_iff.1 (by omega)
    have hceil : ceilDiv f.length (chunkBytes s.params) = s.enc.emitted.toNat := by
      rw [hnil, List.length_nil] at hcount
      rw [ceilDiv, Nat.div_eq_iff hpos]
      omega
    rw [finishRun_empty s hnil, hceil]
    exact ⟨rfl, hout⟩

end Sys2Proof.Machine
end

