-- ==== Sys2Proof/Laws/Operands.lean ====
section
/-! SUPPORT. The two halves of a 64-bit quantity as numbers, and that taking and joining them invert each other. -/

namespace Sys2Proof.Machine

theorem lowHalf_toNat (v : DWord) : (lowHalf v).toNat = v.toNat % 2 ^ 32 := by
  simp [lowHalf]

theorem highHalf_toNat (v : DWord) : (highHalf v).toNat = v.toNat / 2 ^ 32 := by
  have := v.isLt
  rw [highHalf, BitVec.extractLsb'_toNat, Nat.shiftRight_eq_div_pow, Nat.mod_eq_of_lt]
  omega

theorem joinHalves_toNat (hi lo : Word) : (joinHalves hi lo).toNat = hi.toNat * 2 ^ 32 + lo.toNat := by
  have h := hi.isLt
  have l := lo.isLt
  have shifted : (hi.setWidth 64 <<< 32).toNat = hi.toNat <<< 32 := by
    rw [BitVec.toNat_shiftLeft, BitVec.toNat_setWidth, Nat.shiftLeft_eq, Nat.shiftLeft_eq]
    omega
  have low : (lo.setWidth 64).toNat = lo.toNat := by
    rw [BitVec.toNat_setWidth]
    omega
  rw [joinHalves, BitVec.toNat_or, shifted, low, ← Nat.shiftLeft_add_eq_or_of_lt l, Nat.shiftLeft_eq]

@[simp] theorem lowHalf_joinHalves (hi lo : Word) : lowHalf (joinHalves hi lo) = lo := by
  apply BitVec.eq_of_toNat_eq
  have := lo.isLt
  rw [lowHalf_toNat, joinHalves_toNat]
  omega

@[simp] theorem highHalf_joinHalves (hi lo : Word) : highHalf (joinHalves hi lo) = hi := by
  apply BitVec.eq_of_toNat_eq
  have := lo.isLt
  rw [highHalf_toNat, joinHalves_toNat]
  omega

@[simp] theorem joinHalves_halves (v : DWord) : joinHalves (highHalf v) (lowHalf v) = v := by
  apply BitVec.eq_of_toNat_eq
  rw [joinHalves_toNat, lowHalf_toNat, highHalf_toNat]
  omega

end Sys2Proof.Machine
end

