-- ==== Sys2Proof/Laws/Ops.lean ====
section
/-! SUPPORT. What the shared operations can do, said once: the legality tables, taking an event, the step. -/

namespace Sys2Proof.Machine

/-! ## Commands under a legality table -/

/-- What a command of the encoder can do: nothing in ERROR, its body where legal, `ProtocolError` elsewhere (R102). -/
theorem encoderCommand_cases (legal : EncState → Bool) (body : State → State) (s : State) :
    (s.enc.state = .error ∧ encoderCommand legal body s = engineInError s) ∨
      (s.enc.state ≠ .error ∧ legal s.enc.state = true ∧ encoderCommand legal body s = body s) ∨
      (s.enc.state ≠ .error ∧ legal s.enc.state = false ∧
        encoderCommand legal body s = raiseEnc .protocolError s) := by
  by_cases h : s.enc.state = .error
  · exact .inl ⟨h, by simp [encoderCommand, h]⟩
  · by_cases hl : legal s.enc.state = true
    · exact .inr (.inl ⟨h, hl, by simp [encoderCommand, h, hl]⟩)
    · exact .inr (.inr ⟨h, by simpa using hl, by simp [encoderCommand, h, hl]⟩)

/-- What a command of the decoder can do (R120). -/
theorem decoderCommand_cases (legal : DecState → Bool) (body : State → State) (s : State) :
    (s.dec.state = .error ∧ decoderCommand legal body s = engineInError s) ∨
      (s.dec.state ≠ .error ∧ legal s.dec.state = true ∧ decoderCommand legal body s = body s) ∨
      (s.dec.state ≠ .error ∧ legal s.dec.state = false ∧
        decoderCommand legal body s = raiseDec .protocolError s) := by
  by_cases h : s.dec.state = .error
  · exact .inl ⟨h, by simp [decoderCommand, h]⟩
  · by_cases hl : legal s.dec.state = true
    · exact .inr (.inl ⟨h, hl, by simp [decoderCommand, h, hl]⟩)
    · exact .inr (.inr ⟨h, by simpa using hl, by simp [decoderCommand, h, hl]⟩)

/-! ## The step -/

@[simp] theorem takeEvent_of_nil (s : State) (h : s.inbox = []) : takeEvent s = none := by simp [takeEvent, h]

@[simp] theorem takeEvent_of_cons (s : State) (ev : HostEvent) (rest : List HostEvent) (h : s.inbox = ev :: rest) :
    takeEvent s = some (ev, { s with inbox := rest }) := by simp [takeEvent, h]

/-- Everything a step can do: wait, apply a reset, answer an illegal word, or execute a command. -/
theorem step_cases (s : State) :
    (s.inbox = [] ∧ step s = .next s) ∨
      (∃ rest, s.inbox = .reset :: rest ∧ step s = .next (applyReset { s with inbox := rest })) ∨
      (∃ cmd wdata rest why, s.inbox = .command cmd wdata :: rest ∧ decode cmd wdata = .error why ∧
        step s = .next (illegal { s with inbox := rest })) ∨
      (∃ cmd wdata rest i, s.inbox = .command cmd wdata :: rest ∧ decode cmd wdata = .ok i ∧
        step s = exec i { s with inbox := rest }) := by
  rcases h : s.inbox with _ | ⟨_ | _, rest⟩
  · exact .inl ⟨rfl, by simp [step, h]⟩
  · rename_i cmd wdata
    rcases hd : decode cmd wdata with why | i
    · exact .inr (.inr (.inl ⟨cmd, wdata, rest, why, rfl, hd, by simp [step, takeEvent, h, hd]⟩))
    · exact .inr (.inr (.inr ⟨cmd, wdata, rest, i, rfl, hd, by simp [step, takeEvent, h, hd]⟩))
  · exact .inr (.inl ⟨rest, rfl, by simp [step, takeEvent, h]⟩)

/-- The host's placed event is the one the next step takes, and it leaves the state as it was. -/
theorem takeEvent_placeEvent (ev : HostEvent) (s : State) : takeEvent (placeEvent ev s) = some (ev, s) := rfl

end Sys2Proof.Machine
end

