-- ==== Sys2Proof/Laws/PerInstr.lean ====
section
/-! SUPPORT. A statement about every command as syntax, one lemma per constructor: its encoding is a well-formed word of
the match and mask table, on the row of its mnemonic (R67). -/

namespace Sys2Proof.Laws

/-- The command's word matches a row of the match and mask table (R67), and the row is the one with its mnemonic. -/
def EncodesLegally.Statement (i : Instr) : Prop :=
  commandWellFormed (encode i).cmd = true ∧
    ∃ row ∈ opcodeRows, row.mnemonic = (opcodeOf i).mnemonic ∧ row.spells (encode i).cmd = true

/-- A word that a row of the table matches is well formed. -/
theorem EncodesLegally.of_row {i : Instr} (row : OpcodeRow) (mem : row ∈ opcodeRows)
    (name : row.mnemonic = (opcodeOf i).mnemonic) (spells : row.spells (encode i).cmd = true) :
    EncodesLegally.Statement i :=
  ⟨List.any_eq_true.mpr ⟨row, mem, spells⟩, row, mem, name, spells⟩

theorem EncodesLegally.nop : EncodesLegally.Statement .nop :=
  EncodesLegally.of_row ⟨"NOP", 0x00000000, 0xFFFFFFFF⟩ (by decide) rfl (by decide)

theorem EncodesLegally.rd (addr : Byte) : EncodesLegally.Statement (.rd addr) :=
  EncodesLegally.of_row ⟨"RD", 0x01000000, 0xFFFFFF00⟩ (by decide) rfl (by revert addr; decide)

theorem EncodesLegally.wr (addr : Byte) (value : Word) : EncodesLegally.Statement (.wr addr value) :=
  EncodesLegally.of_row ⟨"WR", 0x02000000, 0xFFFFFF00⟩ (by decide) rfl
    (by change OpcodeRow.spells _ (encode (.wr addr 0)).cmd = true; revert addr; decide)

theorem EncodesLegally.encStart : EncodesLegally.Statement .encStart :=
  EncodesLegally.of_row ⟨"ENC_START", 0x10000000, 0xFFFFFFFF⟩ (by decide) rfl (by decide)

theorem EncodesLegally.encPush (byte : Byte) : EncodesLegally.Statement (.encPush byte) :=
  EncodesLegally.of_row ⟨"ENC_PUSH", 0x11000000, 0xFFFFFF00⟩ (by decide) rfl (by revert byte; decide)

theorem EncodesLegally.encClear : EncodesLegally.Statement .encClear :=
  EncodesLegally.of_row ⟨"ENC_CLEAR", 0x1F000000, 0xFFFFFFFF⟩ (by decide) rfl (by decide)

theorem EncodesLegally.decStart : EncodesLegally.Statement .decStart :=
  EncodesLegally.of_row ⟨"DEC_START", 0x20000000, 0xFFFFFFFF⟩ (by decide) rfl (by decide)

theorem EncodesLegally.decImgBegin (width height : Half) : EncodesLegally.Statement (.decImgBegin width height) :=
  EncodesLegally.of_row ⟨"DEC_IMG_BEGIN", 0x21000000, 0xFFFFFFFF⟩ (by decide) rfl
    (by change OpcodeRow.spells _ (encode (.decImgBegin 0 0)).cmd = true; decide)

theorem EncodesLegally.decSample (byte : Byte) : EncodesLegally.Statement (.decSample byte) :=
  EncodesLegally.of_row ⟨"DEC_SAMPLE", 0x22000000, 0xFFFFFF00⟩ (by decide) rfl (by revert byte; decide)

theorem EncodesLegally.decFinalize : EncodesLegally.Statement .decFinalize :=
  EncodesLegally.of_row ⟨"DEC_FINALIZE", 0x23000000, 0xFFFFFFFF⟩ (by decide) rfl (by decide)

theorem EncodesLegally.decClear : EncodesLegally.Statement .decClear :=
  EncodesLegally.of_row ⟨"DEC_CLEAR", 0x2F000000, 0xFFFFFFFF⟩ (by decide) rfl (by decide)

end Sys2Proof.Laws
end

