-- ==== Sys2Proof/Laws/Registers.lean ====
section
/-! SUPPORT. The register map: addresses and registers determine each other, and what `RD` and `WR` do by the map. -/

namespace Sys2Proof.Machine

theorem mem_regAll (r : Reg) : r ∈ Reg.all := by cases r <;> decide

/-- Every register is found at its own address (R20). -/
@[simp] theorem regAt_regAddress (r : Reg) : regAt (regAddress r) = some r := by cases r <;> decide

/-- The address of what is found at an address is that address. -/
theorem regAddress_of_regAt (a : Byte) (r : Reg) (h : regAt a = some r) : regAddress r = a := by
  have := List.find?_some h
  simpa using this

/-- An address is unmapped exactly when no register has it (R19). -/
theorem regAt_eq_none (a : Byte) : regAt a = none ↔ ∀ r : Reg, regAddress r ≠ a := by
  constructor
  · intro h r hr
    rw [← hr, regAt_regAddress] at h
    cases h
  · intro h
    rcases hr : regAt a with _ | r
    · rfl
    · exact absurd (regAddress_of_regAt a r hr) (h r)

/-- Two registers at one address are one register (R20). -/
theorem regAddress_injective (r r' : Reg) (h : regAddress r = regAddress r') : r = r' := by
  have := regAt_regAddress r
  rw [h, regAt_regAddress] at this
  exact (Option.some.inj this).symm

theorem execRd_mapped (a : Byte) (r : Reg) (s : State) (h : regAt a = some r) :
    execRd a s = .next (respond .ok (readReg s r) s) := by
  simp [execRd, h]

theorem execRd_unmapped (a : Byte) (s : State) (h : regAt a = none) : execRd a s = .next (illegal s) := by
  simp [execRd, h]

/-- Everything a `WR` can do (R138): the register is writable and takes the value, or the access is ILLEGAL. -/
theorem execWr_cases (a : Byte) (v : Word) (s : State) :
    (∃ r h, regAt a = some r ∧ writeReg s.host v r = some h ∧ regAccess r = .readWrite ∧
        execWr a v s = .next (respond .ok 0 { s with host := h })) ∨
      ((regAt a).bind (writeReg s.host v) = none ∧ (∀ r, regAt a = some r → regAccess r = .readOnly) ∧
        execWr a v s = .next (illegal s)) := by
  rcases ha : regAt a with _ | r
  · exact .inr ⟨rfl, by simp, by simp [execWr, ha]⟩
  · rcases hw : writeReg s.host v r with _ | h
    · refine .inr ⟨by simpa using hw, ?_, by simp [execWr, ha, hw]⟩
      rintro r' ⟨⟩
      cases r <;> first | rfl | cases hw
    · refine .inl ⟨r, h, rfl, hw, ?_, by simp [execWr, ha, hw]⟩
      cases r <;> first | rfl | cases hw

end Sys2Proof.Machine
end

