-- ==== Sys2Proof/Tests/Slice0.lean ====
section
/-! SUPPORT. Tests, each expected value from the spec (the vectors V-... and programs P... of 95_test_vectors.md, or a
rule), and for each statement with hypotheses a witness that meets them. -/

namespace Sys2Proof.Tests

open Sys2Proof.Machine

/-! ## Small states -/

/-- `N = 4`, `P = 4`, the parameters of V-ENC-1. -/
def params4 : Params := ⟨4, 16⟩

/-- `N = 5`, `P = 13`, the parameters of V-RST-1. -/
def params5 : Params := ⟨5, 16⟩

/-- `ID` of 95_test_vectors.md. -/
def idTest : DWord := 0x0123456789ABCDEF

/-- A block right after reset, with the host's identifier `ID` and a file length. -/
def ready (p : Params) (len : DWord) : State :=
  { State.resetOf p with host := ⟨false, idTest, len⟩ }

/-- V-ENC-1 after `ENC_START`: the encoder waits for the one byte of its file. -/
def encAwaiting : Encoder := ⟨.run, .noError, idTest, 1, 1, 3, 2, []⟩

/-- V-ENC-10 after `ENC_START` and `ENC_PUSH 01`: `N = 5`, `L = 3`. -/
def encRunning : Encoder := ⟨.run, .noError, idTest, 3, 2, 1, 0, [0, 0, 0, 0, 0, 0, 0, 3, 1]⟩

/-- V-ENC-4 before its last push: `N = 5`, `L = 5`, one byte is missing to fill the chunk and the file. -/
def encAlmostFull : Encoder := ⟨.run, .noError, idTest, 5, 1, 1, 0, [0, 0, 0, 0, 0, 0, 0, 5, 1, 2, 3, 4]⟩

/-- V-ENC-3 at its end: `N = 5`, the empty file. -/
def encFinished : Encoder := ⟨.done, .noError, idTest, 0, 0, 1, 1, []⟩

/-- V-ENC-9 at its end: an encoder in ERROR. -/
def encFailed : Encoder := { Encoder.reset with state := .error, err := .protocolError }

/-- The encoder of a block of parameters `p`. -/
def withEnc (p : Params) (e : Encoder) : State := { ready p 0 with enc := e }

/-- The decoder of a block of parameters `p`. -/
def withDec (p : Params) (d : Decoder) : State := { ready p 0 with dec := d }

/-- A collection of `N = 4` chunks under their sequence numbers, as `DEC_START` and whole images leave it. -/
def decCollecting (pairs : List (Word × List Byte)) : Decoder :=
  { Decoder.reset with
    state := .collect
    refValid := pairs ≠ []
    refId := if pairs = [] then 0 else idTest
    count := BitVec.ofNat 32 pairs.length
    lastSeq := ((pairs.getLast?).map Prod.fst).getD 0
    pairs := pairs }

/-- The pairs of the three images of V-ENC-1, in the order of V-DEC-1. -/
def pairs321 : List (Word × List Byte) := [(3, [0xAB, 0, 0, 0]), (2, [0, 0, 0, 1]), (1, [0, 0, 0, 0])]

/-- An image in progress with `k` samples taken, on an empty collection. -/
def decReceiving (k : Word) (id : DWord) (seq : Word) (c : List Byte) : Decoder :=
  { decCollecting [] with state := .inImage, scnt := k, curId := id, curSeq := seq, curChunk := c }

/-- A decoder in ERROR (V-DEC-19). -/
def decFailed : Decoder := { Decoder.reset with state := .error, err := .protocolError }

/-- A decoder in DONE (V-DEC-1 at its end). -/
def decFinished : Decoder := { decCollecting pairs321 with state := .done, size := 1 }

/-- The state a command leaves. -/
def after (i : Instr) (s : State) : Option State :=
  match exec i s with
  | .next t => some t
  | .fault _ => none
  | .refused _ => none

/-- The response a command gives. -/
def answer (i : Instr) (s : State) : Option Reply := (after i s).bind fun t => t.replies.getLast?

/-- The state a step leaves. -/
def afterStep (s : State) : Option State :=
  match step s with
  | .next t => some t
  | .fault _ => none
  | .refused _ => none

/-- What a decode gives, when it gives a command. -/
def decoded (cmd wdata : Word) : Option Instr :=
  match decode cmd wdata with
  | .ok i => some i
  | .error _ => none

/-- The fields of an encoder the spec's vectors list: `ENC_STATUS`, `ENC_EMITTED`, `ENC_TOTAL`, `ENC_REM`, `ENC_FILL`. -/
def encView (e : Encoder) : Word × Nat × Nat × Nat × Nat :=
  (encStatusWord e, e.emitted.toNat, e.total.toNat, e.rem.toNat, e.buf.length)

/-- The fields of a decoder the vectors list: `DEC_STATUS`, `DEC_COUNT`, `DEC_SIZE`, `DEC_LASTSEQ`, `DEC_SCNT`. -/
def decView (d : Decoder) : Word × Nat × Nat × Nat × Nat :=
  (decStatusWord d, d.count.toNat, d.size.toNat, d.lastSeq.toNat, d.scnt.toNat)

/-- An image of V-ENC-1's run: the header of `ID` and a sequence number, and 4 chunk bytes. -/
def imageOf (seq : Byte) (c : List Byte) : Image :=
  [0x01, 0x23, 0x45, 0x67, 0x89, 0xAB, 0xCD, 0xEF, 0, 0, 0, seq] ++ c

/-! ## Well-formed words (smoke tests) -/

/-- V-ILL-1 to V-ILL-7: words no row of R67 matches are refused. -/
theorem test_ill_formed_words :
    [0x00000001, 0x01000100, 0x12000000, 0xFF000000, 0x11000100, 0x21000001, 0x10000001, 0x02000100, 0x1F000001,
      0x20000001, 0x22000100, 0x23000001, 0x2F800000].map commandWellFormed = List.replicate 13 false := by decide

theorem test_well_formed_words :
    [0x00000000, 0x010000FF, 0x02000009, 0x10000000, 0x110000AB, 0x1F000000, 0x20000000, 0x21000000, 0x220000EF,
      0x23000000, 0x2F000000].map commandWellFormed = List.replicate 11 true := by decide

/-- R71, R72: a number too long for its field, a pair `WR64` may not name, no byte for `ENC_PUSHB`, an image of the wrong
size. -/
theorem test_ill_formed_lines :
    [AsmLine.rd (.addressed 256), .wr (.addressed 256) 0, .wr (.named .ctrl) (2 ^ 32), .encPush 256, .decSample 256,
      .decImgBegin 65536 4, .decImgBegin 4 65536, .wr64 .decSize 0, .wr64 .encRem 0, .wr64 .encId (2 ^ 64),
      .encPushB [], .encPushB [1, 256], .decImage (List.replicate 15 0), .decImage (List.replicate 16 256)].map
      (lineWellFormed params4) = List.replicate 14 false := by decide

/-! ## Decoding: words written out from the formats of R62 to R64 -/

/-- NOP: opcode 0x00, 24 zero bits (V-REG-14). -/
theorem test_decode_nop : decoded 0b00000000_000000000000000000000000 0xDEADBEEF = some .nop := by decide

/-- RD: opcode 0x01, 16 zero bits, the address (V-REG-13). -/
theorem test_decode_rd : decoded 0b00000001_0000000000000000_11111111 0 = some (.rd 0xFF) := by decide

/-- WR: opcode 0x02, 16 zero bits, the address; the value is the write data (program P1). -/
theorem test_decode_wr : decoded 0b00000010_0000000000000000_00001001 0x01234567 = some (.wr 0x09 0x01234567) := by decide

/-- ENC_START: opcode 0x10. -/
theorem test_decode_encStart : decoded 0b00010000_000000000000000000000000 0 = some .encStart := by decide

/-- ENC_PUSH: opcode 0x11, 16 zero bits, the byte; write data ignored (V-ENC-13). -/
theorem test_decode_encPush : decoded 0b00010001_0000000000000000_10101010 0xFFFFFFFF = some (.encPush 0xAA) := by decide

/-- ENC_CLEAR: opcode 0x1F. -/
theorem test_decode_encClear : decoded 0b00011111_000000000000000000000000 0 = some .encClear := by decide

/-- DEC_START: opcode 0x20. -/
theorem test_decode_decStart : decoded 0b00100000_000000000000000000000000 0 = some .decStart := by decide

/-- DEC_IMG_BEGIN: opcode 0x21; width in bits 31:16 and height in bits 15:0 of the write data (V-DEC-18). -/
theorem test_decode_decImgBegin :
    decoded 0b00100001_000000000000000000000000 0x00050004 = some (.decImgBegin 5 4) := by decide

/-- DEC_SAMPLE: opcode 0x22, 16 zero bits, the byte (program P2). -/
theorem test_decode_decSample : decoded 0b00100010_0000000000000000_11101111 0 = some (.decSample 0xEF) := by decide

/-- DEC_FINALIZE: opcode 0x23. -/
theorem test_decode_decFinalize : decoded 0b00100011_000000000000000000000000 0 = some .decFinalize := by decide

/-- DEC_CLEAR: opcode 0x2F. -/
theorem test_decode_decClear : decoded 0b00101111_000000000000000000000000 0 = some .decClear := by decide

/-- V-ILL-3, V-ILL-6: the two reasons a word is illegal. -/
theorem test_decode_illegal :
    decoded 0x12000000 0 = none ∧ decoded 0x21000001 0x00050005 = none := by decide

/-- The table's numbering: bits 31:0 are the command word, the bits above the write data. -/
theorem test_decodeTableWord :
    decodeTableWord 32 0x21000000 = some (.decImgBegin 0 0) ∧
      decodeTableWord 64 (0x00050004 * 2 ^ 32 + 0x21000000) = some (.decImgBegin 5 4) ∧
      decodeTableWord 32 0x12000000 = none := by decide

/-- The next step runs a placed word as the first command after reset. -/
theorem test_withFetchWord_runs :
    step (State.reset.withFetchWord 32 0x110000AB) = exec (.encPush 0xAB) State.reset := rfl

/-- The same of a word with write data: `WR CTRL, 1`. -/
theorem test_withFetchWord_wdata :
    step (State.reset.withFetchWord 64 (1 * 2 ^ 32 + 0x02000004)) = exec (.wr 0x04 1) State.reset := rfl

/-! ## Assembler text -/

/-- R71: a command's line, its register by name or by number, decimal or hexadecimal. -/
theorem test_assemble_wr :
    (assemble params4 "WR ENC_ID_HI, 0x01234567" = some [⟨0x02000009, 0x01234567⟩] ∧
      assemble params4 "WR 9, 19088743" = some [⟨0x02000009, 0x01234567⟩]) ∧
      assemble params4 "WR ENC_ID_HI" = none := by decide

/-- R72: `WR64` is two `WR`s, the low half first. -/
theorem test_assemble_wr64 :
    assemble params4 "WR64 ENC_LEN, 0x0000000100000002" = some [⟨0x0200000A, 2⟩, ⟨0x0200000B, 1⟩] := by decide

/-- R72: `RD64`, `ENC_PUSHB` and `DEC_IMAGE`. -/
theorem test_assemble_pseudo :
    assemble params4 "RD64 DEC_SIZE" = some [⟨0x0100001C, 0⟩, ⟨0x0100001D, 0⟩] ∧
      rd64Value 0x00000002 0x00000001 = 0x0000000100000002 ∧
      assemble params4 "ENC_PUSHB 1, 0xAB" = some [⟨0x11000001, 0⟩, ⟨0x110000AB, 0⟩] ∧
      (assemble params4 "DEC_IMAGE 1, 2, 3, 4, 5, 6, 7, 8, 9, 10, 11, 12, 13, 14, 15, 16").map List.head? =
        some (some ⟨0x21000000, 0x00040004⟩) := by decide

/-! ## The step -/

/-- V-ILL-8: an illegal word answers ILLEGAL and leaves an engine in ERROR as it is. -/
theorem test_step_illegal :
    (afterStep { withEnc params5 encFailed with inbox := [.command 0x13000000 0] }).map (fun t => (t.enc, t.replies)) =
      some (encFailed, [⟨.illegal, 0⟩]) := by decide

/-- V-RST-1: reset in the middle of V-ENC-1 keeps what stands on `ENC_OUT`. -/
theorem test_step_reset :
    (afterStep
      { withEnc params4 encAwaiting with inbox := [.reset], encOut := [imageOf 1 [0, 0, 0, 0]] }).map
        (fun t => (t.host, t.enc, t.encOut)) =
      some (HostRegs.reset, Encoder.reset, [imageOf 1 [0, 0, 0, 0]]) := by decide

/-! ## Host access commands -/

/-- V-REG-14. -/
theorem test_nop : answer .nop (ready params5 0) = some ⟨.ok, 0⟩ := by decide

/-- V-REG-1 to V-REG-4, V-REG-10 to V-REG-13. -/
theorem test_rd :
    [0x00, 0x01, 0x02, 0x03, 0x05, 0x12, 0x20, 0xFF].map (fun a => answer (.rd a) (State.resetOf params5)) =
      [some ⟨.ok, 1⟩, some ⟨.ok, 5⟩, some ⟨.ok, 13⟩, some ⟨.ok, 16⟩, some ⟨.illegal, 0⟩, some ⟨.illegal, 0⟩,
        some ⟨.illegal, 0⟩, some ⟨.illegal, 0⟩] := by decide

/-- V-REG-16: the latched error is read and stays; program P3: the status word of a strict run. -/
theorem test_rd_status :
    answer (.rd 0x0C) (withEnc params5 encFailed) = some ⟨.ok, 0x00000083⟩ ∧
      answer (.rd 0x18) (withDec params4 { decCollecting pairs321 with strict := true }) = some ⟨.ok, 0x00000301⟩ := by
  decide

/-- V-REG-5 to V-REG-9: CTRL holds one bit; a read-only or an unmapped register is ILLEGAL. -/
theorem test_wr :
    ((after (.wr 0x04 0xFFFFFFFF) (ready params5 0)).map fun t => readReg t .ctrl) = some 1 ∧
      [0x01, 0x0C, 0x05].map (fun a => answer (.wr a 1) (ready params5 0)) = List.replicate 3 (some ⟨.illegal, 0⟩) := by
  decide

/-- V-REG-15: the high half of the length, the low half kept. -/
theorem test_wr_half :
    ((after (.wr 0x0B 1) (ready params5 2)).map fun t => t.host.encLenReg) = some 0x0000000100000002 := by decide

/-! ## Encoder commands -/

/-- V-ENC-1: the prefix of a one-byte file fills two chunks of `N = 4`. -/
theorem test_encStart :
    (after .encStart (ready params4 1)).map (fun t => (encView t.enc, t.encOut)) =
      some ((0x1, 2, 3, 1, 0), [imageOf 1 [0, 0, 0, 0], imageOf 2 [0, 0, 0, 1]]) := by decide

/-- V-ENC-8: the longest file for `N = 4`, and one byte more. -/
theorem test_encStart_capacity :
    ((after .encStart (ready params4 17179869172)).map fun t => encView t.enc) =
        some (0x1, 2, 0xFFFFFFFF, 17179869172, 0) ∧
      ((after .encStart (ready params4 17179869173)).map fun t => encView t.enc) = some (0x73, 0, 0, 0, 0) := by decide

/-- V-ENC-1: the last byte emits the padded image and ends the run. -/
theorem test_encPush :
    (after (.encPush 0xAB) (withEnc params4 encAwaiting)).map (fun t => (encView t.enc, t.encOut)) =
      some ((0x2, 3, 3, 0, 0), [imageOf 3 [0xAB, 0, 0, 0]]) := by decide

/-- V-ENC-4: the last byte fills the chunk; nothing is padded. -/
theorem test_encPush_full :
    (after (.encPush 5) (withEnc params5 encAlmostFull)).map (fun t => (encView t.enc, t.encOut)) =
      some ((0x2, 1, 1, 0, 0), [imageOf 1 [0, 0, 0, 0, 0, 0, 0, 5, 1, 2, 3, 4, 5]]) := by decide

/-- V-ENC-10: `ENC_CLEAR` from an open run. -/
theorem test_encClear :
    ((after .encClear (withEnc params5 encRunning)).map fun t => encView t.enc) = some (0, 0, 0, 0, 0) := by decide

/-! ## Decoder commands -/

/-- Program P3: `DEC_START` latches CTRL.STRICT_ID. -/
theorem test_decStart :
    ((after .decStart { State.resetOf params4 with host := ⟨true, 0, 0⟩ }).map fun t => decStatusWord t.dec) =
      some 0x00000101 := by decide

/-- V-DEC-21: `DEC_START` from DONE empties the collection. -/
theorem test_decStart_again :
    ((after .decStart (withDec params4 decFinished)).map fun t => decView t.dec) = some (0x001, 0, 0, 0, 0) := by decide

/-- V-DEC-18: the width is not `N`'s, and the dimensions that are. -/
theorem test_decImgBegin :
    ((after (.decImgBegin 5 4) (withDec params5 (decCollecting []))).map fun t => decStatusWord t.dec) = some 0x00000054 ∧
      ((after (.decImgBegin 5 5) (withDec params5 (decCollecting []))).map fun t => decStatusWord t.dec) =
        some 0x00000002 := by decide

/-- V-DEC-22: the last sample of img3 of V-ENC-1 stores its chunk. -/
theorem test_decSample :
    ((after (.decSample 0) (withDec params4 (decReceiving 15 idTest 3 [0xAB, 0, 0]))).map fun t =>
        (t.dec.pairs, t.dec.refId, decStatusWord t.dec, t.dec.lastSeq)) =
      some ([(3, [0xAB, 0, 0, 0])], idTest, 0x201, 3) := by decide

/-- V-DEC-16: with `DEC_MAX_IMAGES = 2` the last sample of the third image overflows the store. -/
theorem test_decSample_capacity :
    ((after (.decSample 0) (withDec ⟨4, 2⟩
        { decCollecting [(1, [0, 0, 0, 0]), (2, [0, 0, 0, 1])] with
          state := .inImage, scnt := 15, curId := idTest, curSeq := 3, curChunk := [0xAB, 0, 0] })).map fun t =>
        decView t.dec) = some (0x274, 2, 0, 2, 15) := by decide

/-- V-DEC-1. -/
theorem test_decFinalize :
    (after .decFinalize (withDec params4 (decCollecting pairs321))).map (fun t => (decView t.dec, t.decOut)) =
      some ((0x203, 3, 1, 1, 0), [[0xAB]]) := by decide

/-- V-DEC-3, V-DEC-5, V-DEC-6, V-DEC-8: the four errors, nothing emitted. -/
theorem test_decFinalize_errors :
    [decCollecting [(1, [0, 0, 0, 0]), (3, [0xAB, 0, 0, 0])], decCollecting [(1, [0, 0, 0, 0])],
        decCollecting [(1, [0, 0, 0, 0]), (2, [0, 0, 0, 1])], decCollecting []].map
      (fun d => (after .decFinalize (withDec params4 d)).map fun t => (decStatusWord t.dec, t.dec.count, t.decOut)) =
      [some (0x244, 2, []), some (0x214, 1, []), some (0x224, 2, []), some (0x034, 0, [])] := by decide

/-- V-DEC-18: `DEC_CLEAR` from ERROR. -/
theorem test_decClear :
    ((after .decClear (withDec params5 decFailed)).map fun t => decView t.dec) = some (0, 0, 0, 0, 0) := by decide

/-! ## The pure functions -/

/-- V-COD-2, V-COD-6, V-COD-7, V-COD-9, V-COD-10, V-COD-12. -/
theorem test_bit_codec :
    bytesToBits [0xA5] = [true, false, true, false, false, true, false, true] ∧
      bitsToSample [true] = some 0x80 ∧ bitsToSample [true, false, true] = some 0xA0 ∧ bitsToSample [] = none ∧
      sampleToBits 0x01 = [false, false, false, false, false, false, false, true] ∧
      bitsToBytes [true, false, true, false, false, true, false, true, true] = [0xA5, 0x80] := by decide

/-- V-FRM-1 to V-FRM-3. -/
theorem test_framing :
    frame [0xAB] = [0, 0, 0, 0, 0, 0, 0, 1, 0xAB] ∧
      (match unframe [0, 0, 0, 0, 0, 0, 0, 2, 0x41, 0x42, 0x43] with
        | .ok x => some x
        | .error _ => none) = some (2, [0x41, 0x42, 0x43]) ∧
      (match unframe (List.replicate 7 0) with
        | .ok _ => none
        | .error e => some e) = some ErrorCode.malformedStream ∧
      (match truncate [0x41] 2 with
        | .ok _ => none
        | .error e => some e) = some ErrorCode.truncationError := by decide

/-- V-FRM-4, V-FRM-6. -/
theorem test_header_chunk :
    header 0xFFFFFFFFFFFFFFFF 0x01020304 = List.replicate 8 0xFF ++ [1, 2, 3, 4] ∧
      chunk params4 [0, 0, 0, 0, 0, 0, 0, 1, 0xAB] 2 = [0, 0, 0, 1] ∧
      chunk params4 [0, 0, 0, 0, 0, 0, 0, 1, 0xAB] 3 = [0xAB, 0, 0, 0] := by decide

/-- V-FRM-5. -/
theorem test_totalImages :
    [0, 1, 4, 5, 17179869172, 17179869173, 2 ^ 64 - 1].map (totalImages params4) =
        [2, 3, 3, 4, 4294967295, 4294967296, 4611686018427387906] ∧
      [0, 5, 6, 18, 19, 31, 32, 55834574827].map (totalImages params5) = [1, 1, 2, 2, 3, 3, 4, 4294967295] ∧
      [0, 4294836205, 4294836206, 2 ^ 64 - 1].map (totalImages ⟨65535, 1⟩) = [1, 1, 2, 4295098384] := by decide

/-- V-FRM-7. -/
theorem test_seqIntegrity :
    [[3, 1, 2], [1], [], [1, 3], [1, 2, 2], [2], [0], [0, 1]].map seqIntegrity =
      [true, true, true, false, false, false, false, false] := by decide

/-- R44: sample 6 of a 5 by 5 raster lies in row 1, column 1. -/
theorem test_sample_position :
    samplePosition params5 6 = (1, 1) ∧ sampleAt params5 1 1 = some 6 ∧ sampleAt params5 5 0 = none := by decide

/-! ## Every statement's hypotheses are met

For each statement with hypotheses, the hypotheses at a concrete state; where a statement has several clauses, each
clause's own hypotheses at the ends of its range. -/

theorem params4_legal : params4.Legal := by decide

theorem params5_legal : params5.Legal := by decide

/-- The encoder's invariant at each of the small encoders. -/
theorem encoders_meet_invariant :
    EncoderInv params4 Encoder.reset ∧ EncoderInv params4 encAwaiting ∧ EncoderInv params5 encRunning ∧
      EncoderInv params5 encAlmostFull ∧ EncoderInv params5 encFinished ∧ EncoderInv params5 encFailed := by
  refine ⟨?_, ?_, ?_, ?_, ?_, ?_⟩ <;> constructor <;> decide

/-- The decoder's invariant at each of the small decoders. -/
theorem decoders_meet_invariant :
    DecoderInv params4 Decoder.reset ∧ DecoderInv params4 (decCollecting []) ∧
      DecoderInv params4 (decCollecting pairs321) ∧ DecoderInv params4 (decReceiving 15 idTest 3 [0xAB, 0, 0]) ∧
      DecoderInv params4 decFinished ∧ DecoderInv params4 decFailed := by
  refine ⟨?_, ?_, ?_, ?_, ?_, ?_⟩ <;> constructor <;> decide

theorem withEnc_inv (p : Params) (e : Encoder) (hl : p.Legal) (he : EncoderInv p e) (hd : DecoderInv p Decoder.reset) :
    StateInv (withEnc p e) :=
  ⟨hl, he, hd, by intro img h; cases h⟩

theorem withDec_inv (p : Params) (d : Decoder) (hl : p.Legal) (he : EncoderInv p Encoder.reset) (hd : DecoderInv p d) :
    StateInv (withDec p d) :=
  ⟨hl, he, hd, by intro img h; cases h⟩

/-- The decoder of `N = 5` after reset meets its invariant. -/
theorem decoder_reset5_inv : DecoderInv params5 Decoder.reset := by constructor <;> decide

/-- The two commands that read the write data, each at the highest value of every operand. -/
theorem meets_DecodeAcceptsExactlyTheEncodings :
    decode 0x020000FF 0xFFFFFFFF = .ok (.wr 0xFF 0xFFFFFFFF) ∧
      decode 0x21000000 0xFFFFFFFF = .ok (.decImgBegin 0xFFFF 0xFFFF) ∧
      (encode (.wr 0xFF 0xFFFFFFFF)).wdata = 0xFFFFFFFF ∧ (encode (.decImgBegin 0xFFFF 0xFFFF)).wdata = 0xFFFFFFFF :=
  ⟨rfl, rfl, by decide, by decide⟩

theorem meets_DecodeFollowsTheMatchMaskTable :
    (⟨"ENC_PUSH", 0x11000000, 0xFFFFFF00⟩ : OpcodeRow) ∈ opcodeRows ∧
      (0x110000FF : Word) &&& 0xFFFFFF00 = 0x11000000 := by decide

/-- Each clause at the ends of its range: reserved opcodes, a single reserved bit set at either end, none set. -/
theorem meets_IllegalWordsAnswerIllegalAndChangeNothing :
    ({ ready params4 1 with inbox := [.command 0x03000000 0] }).inbox = .command 0x03000000 0 :: [] ∧
      (∀ op ∈ ([0x03, 0x0F, 0x12, 0x1E, 0x24, 0x2E, 0x30, 0xFF] : List Byte),
        op ∉ ([0x00, 0x10, 0x1F, 0x20, 0x21, 0x23, 0x2F, 0x01, 0x02, 0x11, 0x22] : List Byte)) ∧
      ([0x00000001, 0x2F800000].all fun (cmd : Word) => decide
        (cmd.extractLsb' 24 8 ∈ ([0x00, 0x10, 0x1F, 0x20, 0x21, 0x23, 0x2F] : List Byte) ∧ cmd.extractLsb' 0 24 ≠ 0#24)) ∧
      ([0x01000100, 0x228000FF].all fun (cmd : Word) => decide
        (cmd.extractLsb' 24 8 ∈ ([0x01, 0x02, 0x11, 0x22] : List Byte) ∧ cmd.extractLsb' 8 16 ≠ 0#16)) ∧
      ([0x00000000, 0x2F000000].all fun (cmd : Word) => decide
        (cmd.extractLsb' 24 8 ∈ ([0x00, 0x10, 0x1F, 0x20, 0x21, 0x23, 0x2F] : List Byte) ∧ cmd.extractLsb' 0 24 = 0#24)) ∧
      ([0x01000000, 0x220000FF].all fun (cmd : Word) => decide
        (cmd.extractLsb' 24 8 ∈ ([0x01, 0x02, 0x11, 0x22] : List Byte) ∧ cmd.extractLsb' 8 16 = 0#16)) :=
  ⟨rfl, by decide, by decide, by decide, by decide, by decide⟩

theorem meets_StepRunsTheDecodedCommand :
    ({ ready params4 1 with inbox := [.command 0x110000AB 0] }).inbox = .command 0x110000AB 0 :: [] ∧
      decode 0x110000AB 0 = .ok (.encPush 0xAB) := ⟨rfl, rfl⟩

theorem meets_StepWaitsWhenNothingIsPending : (ready params4 1).inbox = [] := rfl

theorem meets_ResetRestoresEveryResetValue :
    ({ withEnc params4 encAwaiting with inbox := [.reset, .command 0 0] }).inbox = .reset :: [.command 0 0] := rfl

/-- An unmapped address on each side of the mapped ranges. -/
theorem meets_ReadAnswersTheRegisterMap :
    ∀ a ∈ ([0x05, 0x07, 0x12, 0x17, 0x20, 0xFF] : List Byte), ∀ r : Reg, regAddress r ≠ a := by
  intro a ha r
  revert a
  cases r <;> decide

/-- Read-only and unmapped addresses next to the writable ones. -/
theorem meets_WriteUpdatesOnlyItsRegister :
    ∀ a ∈ ([0x00, 0x03, 0x05, 0x07, 0x0C, 0x1F, 0xFF] : List Byte), a ∉ ([0x04, 0x08, 0x09, 0x0A, 0x0B] : List Byte) := by
  decide

/-- CTRL, a 64-bit half, a register left alone. -/
theorem meets_WrittenRegistersReadBack :
    (∃ t, exec (.wr 0x04 0xFFFFFFFF) (ready params4 1) = .next t) ∧
      (regAddress .encIdHi = 0x09 ∧ regAccess .encIdHi = .readWrite ∧ Reg.encIdHi ≠ .ctrl) ∧
      regAddress .encIdLo ≠ 0x09 := ⟨⟨_, rfl⟩, by decide, by decide⟩

theorem meets_Wr64WritesBothHalves : 0 < 2 ^ 64 ∧ 2 ^ 64 - 1 < 2 ^ 64 := by decide

/-- A read that answers read data other than 0. -/
theorem meets_EveryCommandRepliesOnce :
    (∃ t, exec (.rd 0x00) (ready params4 1) = .next t) ∧
      (after (.rd 0x00) (ready params4 1)).map State.replies = some [⟨.ok, 1⟩] := ⟨⟨_, rfl⟩, by decide⟩

/-- One command of each engine, and one of neither. -/
theorem meets_CommandsChangeOnlyTheirEngine :
    ((∃ t, exec (.encPush 0xAB) (withEnc params4 encAwaiting) = .next t) ∧ encoderInstr (.encPush 0xAB) = true) ∧
      ((∃ t, exec .decFinalize (withDec params4 (decCollecting pairs321)) = .next t) ∧
        decoderInstr .decFinalize = true) ∧
      (∃ t, exec (.wr 0x08 1) (ready params4 1) = .next t) ∧
      encoderInstr (.wr 0x08 1) = false ∧ decoderInstr (.wr 0x08 1) = false :=
  ⟨⟨⟨_, rfl⟩, rfl⟩, ⟨⟨_, rfl⟩, rfl⟩, ⟨_, rfl⟩, rfl, rfl⟩

theorem meets_EnginesDoNotObserveEachOther :
    ((∃ t, exec (.encPush 0xAB) (withEnc params4 encAwaiting) = .next t) ∧ encoderInstr (.encPush 0xAB) = true) ∧
      (∃ t, exec .decFinalize (withDec params4 (decCollecting pairs321)) = .next t) ∧ decoderInstr .decFinalize = true :=
  ⟨⟨⟨_, rfl⟩, rfl⟩, ⟨_, rfl⟩, rfl⟩

theorem meets_RunsUseTheLatchedValues :
    (encoderInstr (.encPush 0xAB) = true ∨ decoderInstr (.encPush 0xAB) = true) ∧
      Instr.encPush 0xAB ≠ .encStart ∧ Instr.encPush 0xAB ≠ .decStart ∧
      ∃ t, exec (.encPush 0xAB) (withEnc params4 encAwaiting) = .next t :=
  ⟨.inl rfl, by decide, by decide, _, rfl⟩

theorem meets_ChannelsOnlyGrow :
    ∃ t, step { withEnc params4 encAwaiting with inbox := [.command 0x110000AB 0] } = .next t := ⟨_, rfl⟩

/-- V-ENC-9: a command that answers ERROR. -/
theorem meets_RefusedCommandsKeepNoEffect :
    exec (.encPush 0x55) (ready params4 1) = .next (raiseEnc .protocolError (ready params4 1)) ∧
      (raiseEnc .protocolError (ready params4 1)).replies = (ready params4 1).replies ++ [⟨.error, 0⟩] ∧
      (⟨.error, 0⟩ : Reply).resp ≠ .ok := ⟨rfl, rfl, by decide⟩

theorem meets_ErrorIsSticky :
    (encoderInstr .encStart = true ∧ Instr.encStart ≠ .encClear ∧ (withEnc params5 encFailed).enc.state = .error) ∧
      decoderInstr .decFinalize = true ∧ Instr.decFinalize ≠ .decClear ∧ (withDec params5 decFailed).dec.state = .error := by
  decide

/-- The clears, the reset and neither. -/
theorem meets_ErrorIsLeftOnlyByClearOrReset :
    (∃ t, step { withEnc params5 encFailed with inbox := [instrEvent .encClear] } = .next t) ∧
      eventInstr (instrEvent .encClear) = some .encClear ∧ eventInstr (instrEvent .decClear) = some .decClear ∧
      (withEnc params5 encFailed).enc.state = .error ∧ (withDec params5 decFailed).dec.state = .error ∧
      eventInstr (instrEvent .encStart) ≠ some .encClear ∧ instrEvent .encStart ≠ .reset :=
  ⟨⟨_, rfl⟩, by decide, by decide, by decide, by decide, by decide, by decide⟩

theorem meets_EncoderProtocolErrors :
    (withEnc params5 encRunning).enc.state = .run ∧ (ready params5 1).enc.state = .idle ∧
      (withEnc params5 encFinished).enc.state = .done := by decide

theorem meets_DecoderProtocolErrors :
    (ready params4 1).dec.state = .idle ∧ (withDec params4 (decCollecting [])).dec.state = .collect ∧
      (withDec params4 (decReceiving 1 1 0 [])).dec.state = .inImage ∧
      (withDec params4 decFinished).dec.state = .done := by decide

/-- V-ENC-8: one byte more than fits, and the longest length there is. -/
theorem meets_EncStartRefusesTooLongFiles :
    ∀ len ∈ [17179869173, 2 ^ 64 - 1],
      (ready params4 (BitVec.ofNat 64 len)).enc.state = .idle ∧
        (8 + (ready params4 (BitVec.ofNat 64 len)).host.encLenReg.toNat + (4 * 4 - 12) - 1) / (4 * 4 - 12) >
          2 ^ 32 - 1 := by decide

/-- `N = 4` and `N = 5`, the shortest and the longest file that is not empty. -/
theorem meets_EncStartLatchesAndAppendsThePrefix :
    ∀ pl ∈ ([(params4, 1), (params4, 17179869172), (params5, 1), (params5, 55834574827)] : List (Params × DWord)),
      pl.1.Legal ∧ (ready pl.1 pl.2).enc.state = .idle ∧ (ready pl.1 pl.2).host.encLenReg ≠ 0 ∧
        (8 + (ready pl.1 pl.2).host.encLenReg.toNat + (pl.1.n * pl.1.n - 12) - 1) / (pl.1.n * pl.1.n - 12) ≤
          2 ^ 32 - 1 := by decide

theorem meets_EncStartOfTheEmptyFileCompletes :
    ∀ p ∈ [params4, params5],
      p.Legal ∧ (ready p 0).enc.state = .idle ∧ (ready p 0).host.encLenReg = 0 := by decide

/-- The chunk stays open, is filled by the last byte, and is closed early by the last byte. -/
theorem meets_EncPushPacksTheByte :
    ((withEnc params5 encRunning).enc.state = .run ∧ encRunning.buf.length + 1 ≠ 5 * 5 - 12 ∧ encRunning.rem ≠ 1) ∧
      ((withEnc params5 encAlmostFull).enc.state = .run ∧ encAlmostFull.buf.length + 1 = 5 * 5 - 12) ∧
      (withEnc params4 encAwaiting).enc.state = .run ∧ encAwaiting.buf.length + 1 < 4 * 4 - 12 ∧
      encAwaiting.rem = 1 := by decide

theorem meets_ImagesEmittedPerCommand :
    (StateInv (withEnc params4 Encoder.reset) ∧
        (∃ t, exec .encStart (withEnc params4 Encoder.reset) = .next t ∧ t.enc.state ≠ .error) ∧
        (withEnc params4 Encoder.reset).enc.state ≠ .run) ∧
      StateInv (withEnc params5 encAlmostFull) ∧
      (∃ t, exec (.encPush 5) (withEnc params5 encAlmostFull) = .next t) ∧
      (withEnc params5 encAlmostFull).enc.state = .run ∧
      encAlmostFull.len.toNat - encAlmostFull.rem.toNat + 1 = encAlmostFull.len.toNat :=
  ⟨⟨withEnc_inv _ _ params4_legal encoders_meet_invariant.1 decoders_meet_invariant.1, ⟨_, rfl, by decide⟩, by decide⟩,
    withEnc_inv _ _ params5_legal encoders_meet_invariant.2.2.2.1 decoder_reset5_inv, ⟨_, rfl⟩, rfl, by decide⟩

/-- V-ENC-1 with a `NOP`, an illegal word and a decoder command in between. -/
theorem meets_EncoderRunEqualsTheReference :
    let evs : List HostEvent :=
      [instrEvent .nop, .command 0x12000000 0, instrEvent .decStart, instrEvent (.encPush 0xAB), instrEvent (.rd 0x0C)]
    let s : State := { ready params4 1 with inbox := instrEvent .encStart :: (evs ++ [.reset]) }
    s.params.Legal ∧ (s.enc.state = .idle ∨ s.enc.state = .done) ∧ s.host.encLenReg.toNat = [(0xAB : Byte)].length ∧
      totalImages s.params [(0xAB : Byte)].length ≤ 2 ^ 32 - 1 ∧ HostEvent.reset ∉ evs ∧
      encoderCommands evs = [(0xAB : Byte)].map .encPush ∧ s.inbox = instrEvent .encStart :: (evs ++ [.reset]) := by
  decide

/-- V-ENC-14: three of five bytes pushed. -/
theorem meets_IncompleteRunEmitsAPrefix :
    let pushed : List Byte := [1, 2, 3]
    let missing : List Byte := [4, 5]
    let evs : List HostEvent := pushed.map fun b => instrEvent (.encPush b)
    let s : State := { ready params4 5 with inbox := instrEvent .encStart :: (evs ++ []) }
    s.params.Legal ∧ (s.enc.state = .idle ∨ s.enc.state = .done) ∧
      s.host.encLenReg.toNat = (pushed ++ missing).length ∧ missing ≠ [] ∧
      totalImages s.params (pushed ++ missing).length ≤ 2 ^ 32 - 1 ∧ HostEvent.reset ∉ evs ∧
      encoderCommands evs = pushed.map .encPush ∧ s.inbox = instrEvent .encStart :: (evs ++ []) := by decide

theorem meets_DecStartEmptiesTheCollection :
    (ready params4 1).dec.state = .idle ∧ (withDec params4 decFinished).dec.state = .done := by decide

/-- V-DEC-18: the accepted dimensions, and one of the two wrong. -/
theorem meets_DecImgBeginChecksTheDimensions :
    (withDec params5 (decCollecting [])).dec.state = .collect ∧
      ((5 : Half).toNat = params5.n ∧ (5 : Half).toNat = params5.n) ∧
      ((5 : Half).toNat ≠ params5.n ∨ (4 : Half).toNat ≠ params5.n) ∧
      ((4 : Half).toNat ≠ params5.n ∨ (5 : Half).toNat ≠ params5.n) := by decide

/-- Samples 0, 7, 8, 11, 12 and 14 of `N = 4`. -/
theorem meets_DecSampleAssemblesTheImage :
    ∀ k ∈ [0, 7, 8, 11, 12, 14],
      (withDec params4 (decReceiving (BitVec.ofNat 32 k) 0 0 [])).dec.state = .inImage ∧
        (withDec params4 (decReceiving (BitVec.ofNat 32 k) 0 0 [])).dec.scnt.toNat = k ∧ k + 1 < 4 * 4 ∧
        (k < 8 ∨ (8 ≤ k ∧ k < 12) ∨ 12 ≤ k) := by decide

/-- V-DEC-17, V-DEC-16 and V-DEC-22: the three ends of an image. -/
theorem meets_DecSampleCompletesTheImage :
    let stored : Decoder := decCollecting [(1, [0, 0, 0, 0])]
    let last (strict : Bool) (id : DWord) : Decoder :=
      { stored with state := .inImage, scnt := 15, strict := strict, curId := id, curSeq := 2, curChunk := [0, 0, 0] }
    (∀ d ∈ [last true (idTest - 1), last false idTest], d.state = .inImage ∧ d.scnt.toNat + 1 = 4 * 4) ∧
      ((last true (idTest - 1)).strict = true ∧ (last true (idTest - 1)).refValid = true ∧
        (last true (idTest - 1)).curId ≠ (last true (idTest - 1)).refId) ∧
      ¬ ((last false idTest).strict = true ∧ (last false idTest).refValid = true ∧
        (last false idTest).curId ≠ (last false idTest).refId) ∧
      (⟨4, 1⟩ : Params).Legal ∧ (last false idTest).count.toNat = (⟨4, 1⟩ : Params).maxImages ∧
      (last false idTest).count.toNat ≠ params4.maxImages := by decide

/-- V-DEC-8, V-DEC-3, V-DEC-5, V-DEC-6 and V-DEC-1: each check of `DEC_FINALIZE`, and none. -/
theorem meets_DecFinalizeChecksInOrder :
    let dense (d : Decoder) : Prop := (d.pairs.map fun sc => sc.1.toNat).Perm (List.range' 1 d.count.toNat)
    let b (d : Decoder) : List Byte :=
      (List.range' 1 d.count.toNat).flatMap fun j => (d.pairs.filter fun sc => sc.1.toNat = j).flatMap Prod.snd
    let payload (d : Decoder) : List Byte := ((b d).take (d.count.toNat * (4 * 4 - 12))).drop 8
    let gap := decCollecting [(1, [0, 0, 0, 0]), (3, [0xAB, 0, 0, 0])]
    let short := decCollecting [(1, [0, 0, 0, 0])]
    let cut := decCollecting [(1, [0, 0, 0, 0]), (2, [0, 0, 0, 1])]
    let whole := decCollecting pairs321
    (decCollecting []).count.toNat = 0 ∧
      (gap.count.toNat ≠ 0 ∧ ¬ dense gap) ∧
      (short.count.toNat ≠ 0 ∧ dense short ∧ (b short).length < 8) ∧
      (cut.count.toNat ≠ 0 ∧ dense cut ∧ 8 ≤ (b cut).length ∧ (payload cut).length < fromBe ((b cut).take 8)) ∧
      (whole.count.toNat ≠ 0 ∧ dense whole ∧ 8 ≤ (b whole).length ∧
        fromBe ((b whole).take 8) ≤ (payload whole).length) := by decide

theorem meets_DeliveringAnImageStoresItsPair :
    let s : State := { withDec params4 (decCollecting []) with
      inbox := (deliverImage params4 (imageOf 3 [0xAB, 0, 0, 0])).map instrEvent }
    StateInv s ∧ s.dec.state = .collect ∧ (imageOf 3 [0xAB, 0, 0, 0]).length = imageSamples s.params ∧
      s.inbox = (deliverImage s.params (imageOf 3 [0xAB, 0, 0, 0])).map instrEvent :=
  ⟨⟨params4_legal, encoders_meet_invariant.1, decoders_meet_invariant.2.1, by intro img h; cases h⟩, rfl, by decide, rfl⟩

/-- A collection that reassembles, and one that does not (V-DEC-1, V-DEC-8). -/
theorem meets_DecFinalizeEqualsTheReference :
    (StateInv (withDec params4 (decCollecting pairs321)) ∧ (withDec params4 (decCollecting pairs321)).dec.state = .collect ∧
        (∃ t, exec .decFinalize (withDec params4 (decCollecting pairs321)) = .next t) ∧
        decodeImages (withDec params4 (decCollecting pairs321)).dec.pairs = .ok [0xAB]) ∧
      StateInv (withDec params4 (decCollecting [])) ∧
      decodeImages (withDec params4 (decCollecting [])).dec.pairs = .error .emptySequence :=
  ⟨⟨withDec_inv _ _ params4_legal encoders_meet_invariant.1 decoders_meet_invariant.2.2.1, rfl, ⟨_, rfl⟩, rfl⟩,
    withDec_inv _ _ params4_legal encoders_meet_invariant.1 decoders_meet_invariant.2.1, rfl⟩

/-- V-DEC-15 with the first two images and a `NOP` in between: a strict run. -/
theorem meets_DecoderRunEqualsTheReference :
    let images : List Image := [imageOf 1 [0, 0, 0, 0], imageOf 2 [0, 0, 0, 0]]
    let evs : List HostEvent := instrEvent .nop :: (images.flatMap (deliverImage params4)).map instrEvent
    let s : State := { State.resetOf params4 with
      host := ⟨true, 0, 0⟩, inbox := instrEvent .decStart :: (evs ++ instrEvent .decFinalize :: []) }
    (s.params.Legal ∧ (s.dec.state = .idle ∨ s.dec.state = .done) ∧ images.length ≤ s.params.maxImages ∧
        (∀ img ∈ images, img.length = imageSamples s.params)) ∧
      (s.host.ctrlStrict = true → ∀ img ∈ images, ∀ img' ∈ images, (parseImage img).1 = (parseImage img').1) ∧
      (HostEvent.reset ∉ evs ∧ decoderCommands evs = images.flatMap (deliverImage s.params)) ∧
      s.inbox = instrEvent .decStart :: (evs ++ instrEvent .decFinalize :: []) :=
  ⟨by decide, by decide, by decide, rfl⟩

theorem meets_DecoderRunIgnoresTheOrderOfImages :
    let images : List Image := [imageOf 1 [0, 0, 0, 0], imageOf 2 [0, 0, 0, 1]]
    (State.resetOf params4).params.Legal ∧
      ((State.resetOf params4).dec.state = .idle ∨ (State.resetOf params4).dec.state = .done) ∧
      images.length ≤ (State.resetOf params4).params.maxImages ∧
      (∀ img ∈ images, img.length = imageSamples params4) ∧
      images.Perm [imageOf 2 [0, 0, 0, 1], imageOf 1 [0, 0, 0, 0]] := by decide

theorem meets_DecOutGrowsOnlyAtASuccessfulFinalize :
    ∃ t, step { withDec params4 (decCollecting pairs321) with inbox := [instrEvent .decFinalize] } = .next t :=
  ⟨_, rfl⟩

/-- The least and the greatest number of two bytes, and the two byte places. -/
theorem meets_BigEndianRoundTrips : 0 < 2 ^ (8 * 2) ∧ 65535 < 2 ^ (8 * 2) ∧ 0 < 2 ∧ 1 < 2 := by decide

/-- A list of 8 bits, and a group that is not full. -/
theorem meets_BitCodecRoundTrips :
    [true, false, true, false, false, true, false, true].length = 8 ∧ 1 < ([true, true, true, true, true, true, true, true,
      true].length + 7) / 8 := by decide

/-- The first and the last bit of each field. -/
theorem meets_ImageHeaderBits : (0 < 64 ∧ 63 < 64) ∧ 0 < 32 ∧ 31 < 32 := by decide

/-- The smallest and the largest `N`, and the smallest `N` of the other case. -/
theorem meets_TotalImagesFormsAgree :
    params4.Legal ∧ params5.Legal ∧ (⟨65535, 2 ^ 32 - 1⟩ : Params).Legal := by decide

theorem meets_FramedBytesLieInTheirChunks :
    params4.Legal ∧ 0 < (frame [0xAB]).length ∧ 8 < (frame [0xAB]).length ∧ 1 ≤ 1 := by decide

/-- V-ENC-1's file encodes. -/
theorem meets_DecodeInvertsEncode :
    params4.Legal ∧
      encodeImages params4 idTest [0xAB] =
        .ok [imageOf 1 [0, 0, 0, 0], imageOf 2 [0, 0, 0, 1], imageOf 3 [0xAB, 0, 0, 0]] := ⟨params4_legal, rfl⟩

theorem meets_EncodedImagesAreNumberedAndFull :
    params4.Legal ∧ ∃ images, encodeImages params4 idTest [0xAB] = .ok images ∧ images[2]? = some (imageOf 3 [0xAB, 0, 0, 0]) :=
  ⟨params4_legal, _, rfl, by decide⟩

theorem meets_DecodeIgnoresTheOrderOfImages :
    pairs321.Perm [(1, [0, 0, 0, 0]), (2, [0, 0, 0, 1]), (3, [0xAB, 0, 0, 0])] := by decide

theorem meets_ResetMeetsTheInvariants : params4.Legal ∧ params5.Legal := by decide

/-- A run in progress: the byte that ends it is the next event. -/
theorem meets_StepKeepsTheInvariants :
    StateInv { withEnc params5 encAlmostFull with inbox := [instrEvent (.encPush 5)] } ∧
      ∃ t, step { withEnc params5 encAlmostFull with inbox := [instrEvent (.encPush 5)] } = .next t :=
  ⟨⟨params5_legal, encoders_meet_invariant.2.2.2.1, decoder_reset5_inv, by intro img h; cases h⟩, _, rfl⟩

/-- V-ENC-1 after `ENC_START`, with its two images on `ENC_OUT`. -/
theorem meets_StepKeepsTheOutputNumbered :
    let s : State := { withEnc params4 encAwaiting with
      inbox := [instrEvent (.encPush 0xAB)], encOut := [imageOf 1 [0, 0, 0, 0], imageOf 2 [0, 0, 0, 1]] }
    StateInv s ∧ OutputNumbered s ∧ ∃ t, step s = .next t := by
  refine ⟨⟨params4_legal, encoders_meet_invariant.2.1, decoders_meet_invariant.1, by decide⟩, ⟨[], _, rfl, rfl, ?_⟩, _, rfl⟩
  intro k img h
  rcases k with _ | _ | k
  · obtain rfl := Option.some.inj h
    decide
  · obtain rfl := Option.some.inj h
    decide
  · simp at h

/-- V-DEC-1 at its end, with the file on `DEC_OUT`, and a `NOP` pending. -/
theorem meets_StepKeepsTheFileSized :
    let s : State := { withDec params4 decFinished with inbox := [instrEvent .nop], decOut := [[0xAB]] }
    OutputSized s ∧ s.dec.state = .done ∧ ∃ t, step s = .next t :=
  ⟨fun _ => ⟨[0xAB], rfl, rfl⟩, rfl, _, rfl⟩

end Sys2Proof.Tests
end

section
/-! PROOFS. Big-endian integers and the bits of a byte list (R13, R14, R40): what each conversion gives at a position,
and that `be_n` and `from_be` invert each other. -/

namespace Sys2Proof.Machine

/-! ## Big-endian integers -/

theorem getElem?_beBytes {n i : Nat} (v : Nat) (h : i < n) :
    (beBytes n v)[i]? = some (BitVec.ofNat 8 (v / 256 ^ (n - 1 - i))) := by
  simp [beBytes, h]

/-- Powers of 2 by whole bytes, as the rules write them, are the powers of 256 of the model. -/
theorem two_pow_eight_mul (n : Nat) : 2 ^ (8 * n) = 256 ^ n := Nat.pow_mul 2 8 n

theorem fromBe_eq_sum (bs : List Byte) :
    fromBe bs = ((List.range bs.length).map fun i => (bs.getD i 0).toNat * 256 ^ (bs.length - 1 - i)).sum := by
  induction bs with
  | nil => rfl
  | cons b bs ih =>
    simp [fromBe, ih, List.range_succ_eq_map, Function.comp_def, Nat.sub_add_eq, Nat.sub_right_comm]

theorem fromBe_beBytes {n v : Nat} (h : v < 256 ^ n) : fromBe (beBytes n v) = v := by
  rw [fromBe_beBytes_mod, Nat.mod_eq_of_lt h]

/-- `be_n` does not see a multiple of `256^n`. -/
theorem beBytes_mul_pow_add (n k v : Nat) : beBytes n (k * 256 ^ n + v) = beBytes n v := by
  induction n generalizing k with
  | zero => rfl
  | succ n ih =>
    have shift : k * 256 ^ (n + 1) = (k * 256) * 256 ^ n := by ring
    have quotient : ((k * 256) * 256 ^ n + v) / 256 ^ n = k * 256 + v / 256 ^ n := by
      rw [Nat.mul_comm (k * 256), Nat.mul_add_div (by positivity)]
    have head : BitVec.ofNat 8 (k * 256 + v / 256 ^ n) = BitVec.ofNat 8 (v / 256 ^ n) :=
      BitVec.eq_of_toNat_eq (by simp)
    rw [shift, beBytes_succ, beBytes_succ, ih, quotient, head]

theorem beBytes_fromBe (bs : List Byte) : beBytes bs.length (fromBe bs) = bs := by
  induction bs with
  | nil => rfl
  | cons b bs ih =>
    have head : (b.toNat * 256 ^ bs.length + fromBe bs) / 256 ^ bs.length = b.toNat := by
      rw [Nat.mul_comm, Nat.mul_add_div (by positivity), Nat.div_eq_of_lt (fromBe_lt bs), Nat.add_zero]
    rw [List.length_cons, beBytes_succ, fromBe, head, beBytes_mul_pow_add, ih, BitVec.ofNat_toNat, BitVec.setWidth_eq]

/-- Settles O46: the bytes and the sum by their definitions, the two inverses by induction on the bytes. -/
theorem bigEndianRoundTrips : Obligations.BigEndianRoundTrips := by
  refine ⟨fun n v i _ hi => ?_, fromBe_eq_sum, fun n v hv => ?_, beBytes_fromBe⟩
  · rw [getElem?_beBytes v hi, two_pow_eight_mul, Option.map_some, BitVec.toNat_ofNat]
  · exact fromBe_beBytes (two_pow_eight_mul n ▸ hv)

/-! ## The bits of a byte list -/

@[simp] theorem bytesToBits_nil : bytesToBits [] = [] := rfl

@[simp] theorem bytesToBits_cons (b : Byte) (bs : List Byte) :
    bytesToBits (b :: bs) = sampleToBits b ++ bytesToBits bs := rfl

@[simp] theorem length_bytesToBits (bs : List Byte) : (bytesToBits bs).length = 8 * bs.length := by
  induction bs with
  | nil => rfl
  | cons b bs ih =>
    rw [bytesToBits_cons, List.length_append, length_sampleToBits, ih, List.length_cons]
    omega

theorem getElem?_sampleToBits (b : Byte) {j : Nat} (h : j < 8) : (sampleToBits b)[j]? = some (b.getLsbD (7 - j)) := by
  interval_cases j <;> rfl

/-- The first 8 stream bits are those of the first byte, the others those of the rest of the list. -/
theorem streamBit_cons (b : Byte) (bs : List Byte) (j : Nat) :
    streamBit (b :: bs) j = if j < 8 then some (b.getLsbD (7 - j)) else streamBit bs (j - 8) := by
  split
  next h => simp [streamBit, Nat.div_eq_of_lt h, Nat.mod_eq_of_lt h]
  next h =>
    have byte : j / 8 = (j - 8) / 8 + 1 := by omega
    have bit : j % 8 = (j - 8) % 8 := by omega
    rw [streamBit, byte, bit, List.getElem?_cons_succ, streamBit]

theorem getElem?_bytesToBits (bs : List Byte) (j : Nat) : (bytesToBits bs)[j]? = streamBit bs j := by
  induction bs generalizing j with
  | nil => rfl
  | cons b bs ih =>
    rw [bytesToBits_cons, streamBit_cons, List.getElem?_append, length_sampleToBits, ih]
    split
    next h => exact getElem?_sampleToBits b h
    next => rfl

/-- Settles O48: bit `j` of the list is stream bit `j`, by induction on the bytes, 8 bits at a time. -/
theorem streamBitsAreMostSignificantFirst : Obligations.StreamBitsAreMostSignificantFirst :=
  fun bs => ⟨length_bytesToBits bs, getElem?_bytesToBits bs⟩

end Sys2Proof.Machine
end

section
/-! PROOFS. What a command may change at all, by the engine it addresses (R18, R26, R58), and that no step withdraws
anything from the channels or the replies (R31). -/

namespace Sys2Proof.Machine

/-! ## The runs behind `ENC_START` and `ENC_PUSH` -/

/-- The run `ENC_START` begins, with its size bytes taken (R103). -/
def begunRun (s : State) : State := (beBytes 8 s.host.encLenReg.toNat).foldl appendByte (latchEncoderRun s)

/-- The run of `ENC_PUSH` with its byte taken (R104). -/
def pushedRun (b : Byte) (s : State) : State := appendByte { s with enc := { s.enc with rem := s.enc.rem - 1 } } b

@[simp] theorem begunRun_rem (s : State) : (begunRun s).enc.rem = s.host.encLenReg := by
  rw [begunRun, appendBytes_frame]
  rfl

@[simp] theorem begunRun_len (s : State) : (begunRun s).enc.len = s.host.encLenReg := by
  rw [begunRun, appendBytes_frame]
  rfl

@[simp] theorem pushedRun_rem (b : Byte) (s : State) : (pushedRun b s).enc.rem = s.enc.rem - 1 := by
  rw [pushedRun, appendByte_frame]

@[simp] theorem pushedRun_len (b : Byte) (s : State) : (pushedRun b s).enc.len = s.enc.len := by
  rw [pushedRun, appendByte_frame]

theorem startEncoderRun_long (s : State) (long : totalImages s.params s.host.encLenReg.toNat > maxSequence) :
    startEncoderRun s = raiseEnc .capacityOverflow s := if_pos long

theorem startEncoderRun_fits (s : State) (fits : ¬ totalImages s.params s.host.encLenReg.toNat > maxSequence) :
    startEncoderRun s =
      respond .ok 0 (if s.host.encLenReg = 0 then finishRun (begunRun s) else begunRun s) := if_neg fits

theorem pushFileByte_eq (b : Byte) (s : State) :
    pushFileByte b s =
      respond .ok 0 (if s.enc.rem - 1 = 0 then finishRun (pushedRun b s) else pushedRun b s) := by
  rw [← pushedRun_rem b s]
  rfl

/-! ## The cases of the decoder's procedures -/

theorem deliverSample_complete (b : Byte) (s : State) (h : ¬ s.dec.scnt.toNat + 1 < imageSamples s.params) :
    deliverSample b s = completeImage (takeSample b s.dec) s := if_neg h

theorem finalizeRun_error (s : State) {e : ErrorCode} (h : reassemble s.params s.dec = .error e) :
    finalizeRun s = raiseDec e s := by
  rw [finalizeRun, h]

theorem finalizeRun_ok (s : State) {size : DWord} {file : List Byte}
    (h : reassemble s.params s.dec = .ok (size, file)) :
    finalizeRun s = respond .ok 0 (emitBytes file { s with dec := { s.dec with size := size, state := .done } }) := by
  rw [finalizeRun, h]

/-! ## What a command addressed to the encoder may do -/

/-- From `s` to `t` only the encoder, its channel and the replies changed, and the last two only grew. -/
structure EncoderEffect (s t : State) : Prop where
  params : t.params = s.params
  host : t.host = s.host
  dec : t.dec = s.dec
  inbox : t.inbox = s.inbox
  decOut : t.decOut = s.decOut
  encOut : s.encOut <+: t.encOut
  replies : s.replies <+: t.replies

namespace EncoderEffect

variable {s t u : State}

theorem eq (h : EncoderEffect s t) : t = { s with enc := t.enc, encOut := t.encOut, replies := t.replies } := by
  obtain ⟨hparams, hhost, hdec, hinbox, hdecOut, -, -⟩ := h
  rw [← hparams, ← hhost, ← hdec, ← hinbox, ← hdecOut]

theorem refl (s : State) : EncoderEffect s s := ⟨rfl, rfl, rfl, rfl, rfl, List.prefix_rfl, List.prefix_rfl⟩

theorem trans (h : EncoderEffect s t) (g : EncoderEffect t u) : EncoderEffect s u where
  params := g.params.trans h.params
  host := g.host.trans h.host
  dec := g.dec.trans h.dec
  inbox := g.inbox.trans h.inbox
  decOut := g.decOut.trans h.decOut
  encOut := h.encOut.trans g.encOut
  replies := h.replies.trans g.replies

theorem setEnc (s : State) (e : Encoder) : EncoderEffect s { s with enc := e } := { refl s with }

theorem respond (h : EncoderEffect s t) (r : Resp) (d : Word) : EncoderEffect s (respond r d t) :=
  h.trans { refl t with replies := List.prefix_append _ _ }

theorem raiseEnc (e : ErrorCode) (s : State) : EncoderEffect s (raiseEnc e s) := (setEnc s _).respond _ _

theorem emitChunk (c : List Byte) (s : State) : EncoderEffect s (emitChunk c s) :=
  { refl s with encOut := List.prefix_append _ _ }

theorem appendByte (s : State) (b : Byte) : EncoderEffect s (appendByte s b) := by
  by_cases full : s.enc.buf.length + 1 = chunkBytes s.params
  · rw [appendByte_full s b full]
    exact emitChunk _ s
  · rw [appendByte_open s b full]
    exact setEnc s _

theorem appendBytes (bs : List Byte) (s : State) : EncoderEffect s (bs.foldl Machine.appendByte s) := by
  induction bs generalizing s with
  | nil => exact refl s
  | cons b bs ih => exact (appendByte s b).trans (ih _)

theorem finishRun (s : State) : EncoderEffect s (finishRun s) := by
  by_cases pending : 0 < s.enc.buf.length
  · rw [finishRun_pending s pending]
    exact { refl s with encOut := List.prefix_append _ _ }
  · rw [finishRun_empty s (List.length_eq_zero_iff.1 (by omega))]
    exact setEnc s _

theorem startEncoderRun (s : State) : EncoderEffect s (startEncoderRun s) := by
  by_cases fits : totalImages s.params s.host.encLenReg.toNat > maxSequence
  · exact startEncoderRun_long s fits ▸ raiseEnc _ s
  · have begun : EncoderEffect s (begunRun s) := (setEnc s _).trans (appendBytes _ (latchEncoderRun s))
    rw [startEncoderRun_fits s fits]
    split
    · exact (begun.trans (finishRun _)).respond _ _
    · exact begun.respond _ _

theorem pushFileByte (b : Byte) (s : State) : EncoderEffect s (pushFileByte b s) := by
  have pushed : EncoderEffect s (pushedRun b s) := (setEnc s _).trans (appendByte _ b)
  rw [pushFileByte_eq]
  split
  · exact (pushed.trans (finishRun _)).respond _ _
  · exact pushed.respond _ _

theorem encoderCommand (legal : EncState → Bool) {body : State → State} (h : EncoderEffect s (body s)) :
    EncoderEffect s (encoderCommand legal body s) := by
  obtain ⟨-, hc⟩ | ⟨-, -, hc⟩ | ⟨-, -, hc⟩ := encoderCommand_cases legal body s
  · exact hc ▸ (refl s).respond _ _
  · exact hc ▸ h
  · exact hc ▸ raiseEnc _ s

/-- The frame of every encoder command (R18, R58). -/
theorem of_exec {i : Instr} (hi : encoderInstr i = true) (h : exec i s = .next t) : EncoderEffect s t := by
  cases i with
  | encStart => cases h; exact encoderCommand _ (startEncoderRun s)
  | encPush b => cases h; exact encoderCommand _ (pushFileByte b s)
  | encClear => cases h; exact (setEnc s _).respond _ _
  | _ => cases hi

end EncoderEffect

/-! ## What a command addressed to the decoder may do -/

/-- From `s` to `t` only the decoder, its channel and the replies changed, and the last two only grew. -/
structure DecoderEffect (s t : State) : Prop where
  params : t.params = s.params
  host : t.host = s.host
  enc : t.enc = s.enc
  inbox : t.inbox = s.inbox
  encOut : t.encOut = s.encOut
  decOut : s.decOut <+: t.decOut
  replies : s.replies <+: t.replies

namespace DecoderEffect

variable {s t : State}

theorem eq (h : DecoderEffect s t) : t = { s with dec := t.dec, decOut := t.decOut, replies := t.replies } := by
  obtain ⟨hparams, hhost, henc, hinbox, hencOut, -, -⟩ := h
  rw [← hparams, ← hhost, ← henc, ← hinbox, ← hencOut]

/-- A decoder written and a reply given: the effect of all but a successful `DEC_FINALIZE`. -/
theorem respond (s : State) (d : Decoder) (r : Resp) (w : Word) : DecoderEffect s (respond r w { s with dec := d }) :=
  ⟨rfl, rfl, rfl, rfl, rfl, List.prefix_rfl, List.prefix_append _ _⟩

theorem raiseDec (e : ErrorCode) (s : State) : DecoderEffect s (raiseDec e s) := respond s _ _ _

theorem beginImage (width height : Half) (s : State) : DecoderEffect s (beginImage width height s) := by
  obtain ⟨-, hc⟩ | ⟨-, hc⟩ := beginImage_cases width height s
  · exact hc ▸ raiseDec _ s
  · exact hc ▸ respond s _ _ _

theorem completeImage (d : Decoder) (s : State) : DecoderEffect s (completeImage d s) := by
  obtain ⟨-, hc⟩ | ⟨-, -, hc⟩ | ⟨-, -, hc⟩ := completeImage_cases d s
  · exact hc ▸ raiseDec _ s
  · exact hc ▸ raiseDec _ s
  · exact hc ▸ respond s _ _ _

theorem deliverSample (b : Byte) (s : State) : DecoderEffect s (deliverSample b s) := by
  by_cases more : s.dec.scnt.toNat + 1 < imageSamples s.params
  · exact deliverSample_open b s more ▸ respond s _ _ _
  · exact deliverSample_complete b s more ▸ completeImage _ s

theorem finalizeRun (s : State) : DecoderEffect s (finalizeRun s) := by
  obtain ⟨e, -, hc⟩ | ⟨size, file, -, hc⟩ := finalizeRun_cases s
  · exact hc ▸ raiseDec e s
  · exact hc ▸ ⟨rfl, rfl, rfl, rfl, rfl, List.prefix_append _ _, List.prefix_append _ _⟩

theorem decoderCommand (legal : DecState → Bool) {body : State → State} (h : DecoderEffect s (body s)) :
    DecoderEffect s (decoderCommand legal body s) := by
  obtain ⟨-, hc⟩ | ⟨-, -, hc⟩ | ⟨-, -, hc⟩ := decoderCommand_cases legal body s
  · exact hc ▸ respond s s.dec _ _
  · exact hc ▸ h
  · exact hc ▸ raiseDec _ s

/-- The frame of every decoder command (R18, R58). -/
theorem of_exec {i : Instr} (hi : decoderInstr i = true) (h : exec i s = .next t) : DecoderEffect s t := by
  cases i with
  | decStart => cases h; exact decoderCommand _ (respond s _ _ _)
  | decImgBegin width height => cases h; exact decoderCommand _ (beginImage width height s)
  | decSample b => cases h; exact decoderCommand _ (deliverSample b s)
  | decFinalize => cases h; exact decoderCommand _ (finalizeRun s)
  | decClear => cases h; exact respond s _ _ _
  | _ => cases hi

end DecoderEffect

/-! ## What a host access command may do -/

/-- A command of neither engine may write the host registers, and gives its reply (R26, R58). -/
theorem exec_hostAccess {i : Instr} {s t : State} (he : encoderInstr i = false) (hd : decoderInstr i = false)
    (h : exec i s = .next t) : ∃ regs r w, t = respond r w { s with host := regs } := by
  cases i with
  | nop => cases h; exact ⟨s.host, _, _, rfl⟩
  | rd a =>
    cases ha : regAt a with
    | none => cases (execRd_unmapped a s ha).symm.trans h; exact ⟨s.host, _, _, rfl⟩
    | some r => cases (execRd_mapped a r s ha).symm.trans h; exact ⟨s.host, _, _, rfl⟩
  | wr a v =>
    obtain ⟨-, regs, -, -, -, hw⟩ | ⟨-, -, hw⟩ := execWr_cases a v s
    · cases hw.symm.trans h; exact ⟨regs, _, _, rfl⟩
    · cases hw.symm.trans h; exact ⟨s.host, _, _, rfl⟩
  | encStart | encPush | encClear => cases he
  | decStart | decImgBegin | decSample | decFinalize | decClear => cases hd

/-- Every command addresses the encoder, the decoder or neither, and keeps to what that allows. -/
theorem exec_effect {i : Instr} {s t : State} (h : exec i s = .next t) :
    EncoderEffect s t ∨ DecoderEffect s t ∨ ∃ regs r w, t = respond r w { s with host := regs } := by
  cases he : encoderInstr i with
  | true => exact .inl (.of_exec he h)
  | false =>
    cases hd : decoderInstr i with
    | true => exact .inr (.inl (.of_exec hd h))
    | false => exact .inr (.inr (exec_hostAccess he hd h))

/-- Settles O18: each kind of command by the effect it may have. -/
theorem commandsChangeOnlyTheirEngine : Obligations.CommandsChangeOnlyTheirEngine := by
  intro i s t h
  refine ⟨fun he => (EncoderEffect.of_exec he h).eq, fun hd => (DecoderEffect.of_exec hd h).eq, fun he hd => ?_⟩
  obtain ⟨regs, r, w, rfl⟩ := exec_hostAccess he hd h
  rfl

/-- Settles O21: a step waits, resets, answers an illegal word or has the effect of a command, and each of them keeps
what stands at the ports. -/
theorem channelsOnlyGrow : Obligations.ChannelsOnlyGrow := by
  intro s t h
  obtain ⟨-, hs⟩ | ⟨rest, -, hs⟩ | ⟨cmd, wdata, rest, why, -, -, hs⟩ | ⟨cmd, wdata, rest, i, -, -, hs⟩ := step_cases s
  · cases hs.symm.trans h
    exact ⟨List.prefix_rfl, List.prefix_rfl, List.prefix_rfl, rfl⟩
  · cases hs.symm.trans h
    exact ⟨List.prefix_rfl, List.prefix_rfl, List.prefix_rfl, rfl⟩
  · cases hs.symm.trans h
    exact ⟨List.prefix_rfl, List.prefix_rfl, List.prefix_append _ _, rfl⟩
  · obtain he | hd | ⟨regs, r, w, rfl⟩ := exec_effect (hs.symm.trans h)
    · exact ⟨he.encOut, he.decOut ▸ List.prefix_rfl, he.replies, he.params⟩
    · exact ⟨hd.encOut ▸ List.prefix_rfl, hd.decOut, hd.replies, hd.params⟩
    · exact ⟨List.prefix_rfl, List.prefix_rfl, List.prefix_append _ _, rfl⟩

end Sys2Proof.Machine
end

section
/-! PROOFS. The invariants between commands (R27 to R30) are kept by every step: first by the bytes an encoder run
takes, then by each procedure of the two engines. -/

namespace Sys2Proof.Machine

/-! ## The states a command executes in -/

theorem encPushLegal_iff {st : EncState} : encPushLegal st = true ↔ st = .run := by cases st <;> decide

theorem decImgBeginLegal_iff {st : DecState} : decImgBeginLegal st = true ↔ st = .collect := by cases st <;> decide

theorem decSampleLegal_iff {st : DecState} : decSampleLegal st = true ↔ st = .inImage := by cases st <;> decide

theorem decFinalizeLegal_iff {st : DecState} : decFinalizeLegal st = true ↔ st = .collect := by cases st <;> decide

/-! ## The two engines in their reset states and in ERROR -/

theorem chunkBytes_pos {p : Params} (legal : p.Legal) : 0 < chunkBytes p :=
  Nat.lt_of_lt_of_le (by decide) (four_le_chunkBytes p legal)

theorem imageSamples_pos {p : Params} (legal : p.Legal) : 0 < imageSamples p := by
  have := imageSamples_eq p legal
  omega

theorem EncoderInv.reset {p : Params} (legal : p.Legal) : EncoderInv p Encoder.reset where
  fill_lt := chunkBytes_pos legal
  run_pending := nofun
  run_rem_le := nofun
  run_consumed := nofun
  total_eq := nofun
  done_closed := nofun
  emitted_le := Nat.le_refl _
  err_iff := by decide
  idle_reset _ := rfl

/-- Outside ERROR no error code is latched (R27). -/
theorem EncoderInv.err_eq {p : Params} {e : Encoder} (inv : EncoderInv p e) (h : e.state ≠ .error) :
    e.err = .noError := not_not.1 fun err => h (inv.err_iff.2 err)

/-- Error entry keeps the encoder's other fields, of which ERROR asks nothing but their bounds (R141). -/
theorem EncoderInv.raise {p : Params} {e : Encoder} {code : ErrorCode} (inv : EncoderInv p e)
    (hcode : code ≠ .noError) : EncoderInv p { e with state := .error, err := code } where
  fill_lt := inv.fill_lt
  run_pending := nofun
  run_rem_le := nofun
  run_consumed := nofun
  total_eq := nofun
  done_closed := nofun
  emitted_le := inv.emitted_le
  err_iff := ⟨fun _ => hcode, fun _ => rfl⟩
  idle_reset := nofun

/-- The decoder right after `DEC_START` has collected nothing (R121). -/
theorem DecoderInv.empty {p : Params} (legal : p.Legal) (strict : Bool) :
    DecoderInv p { Decoder.reset with state := .collect, strict := strict } where
  count_le := Nat.zero_le _
  pairs_length := rfl
  pairs_chunk := nofun
  scnt_lt := imageSamples_pos legal
  ref_iff := by simp [Decoder.reset]
  last_seq := rfl
  image_chunk := nofun
  image_id := nofun
  image_seq := nofun
  err_iff := by simp [Decoder.reset]
  idle_reset := nofun

theorem DecoderInv.reset {p : Params} (legal : p.Legal) : DecoderInv p Decoder.reset :=
  { DecoderInv.empty legal false with
    image_chunk := nofun
    image_id := nofun
    image_seq := nofun
    err_iff := by decide
    idle_reset := fun _ => rfl }

/-- Outside ERROR no error code is latched (R29). -/
theorem DecoderInv.err_eq {p : Params} {d : Decoder} (inv : DecoderInv p d) (h : d.state ≠ .error) :
    d.err = .noError := not_not.1 fun err => h (inv.err_iff.2 err)

/-- Error entry keeps the decoder's other fields (R141). -/
theorem DecoderInv.raise {p : Params} {d : Decoder} {code : ErrorCode} (inv : DecoderInv p d)
    (hcode : code ≠ .noError) : DecoderInv p { d with state := .error, err := code } :=
  { inv with
    image_chunk := nofun
    image_id := nofun
    image_seq := nofun
    err_iff := ⟨fun _ => hcode, fun _ => rfl⟩
    idle_reset := nofun }

/-! ## The bytes an encoder run takes -/

@[simp] theorem appendByte_len (s : State) (b : Byte) : (appendByte s b).enc.len = s.enc.len := by
  rw [appendByte_frame s b]

/-- One more emitted image does not overflow the count while another image is due. -/
theorem emitted_add_one {e : Encoder} (due : e.emitted.toNat < e.total.toNat) :
    (e.emitted + 1).toNat = e.emitted.toNat + 1 := by
  have := e.total.isLt
  rw [BitVec.toNat_add]
  exact Nat.mod_eq_of_lt (by simp; omega)

/-- The run of `s` has taken `c` framed bytes (R27, R100). Unlike the encoder's invariant it says nothing of `enc.rem`, so
it also holds within a command: while the size bytes are taken, and after the last byte before the run is finished. -/
structure Framing (c : Nat) (s : State) : Prop where
  legal : s.params.Legal
  state : s.enc.state = .run
  err : s.enc.err = .noError
  fill_lt : s.enc.buf.length < chunkBytes s.params
  count : s.enc.emitted.toNat * chunkBytes s.params + s.enc.buf.length = c
  total_eq : s.enc.total.toNat = totalImages s.params s.enc.len.toNat
  images : ∀ img ∈ s.encOut, img.length = imageSamples s.params
  dec : DecoderInv s.params s.dec

namespace Framing

variable {c : Nat} {s : State}

/-- The images of the run hold all its framed bytes (R87). -/
theorem framed_le (h : Framing c s) : 8 + s.enc.len.toNat ≤ s.enc.total.toNat * chunkBytes s.params :=
  h.total_eq ▸ (ceilDiv_bounds _ _ (chunkBytes_pos h.legal)).1

theorem emitted_le (h : Framing c s) (hc : c ≤ 8 + s.enc.len.toNat) : s.enc.emitted.toNat ≤ s.enc.total.toNat := by
  have pos := chunkBytes_pos h.legal
  have := h.framed_le
  have := h.count
  exact Nat.le_of_mul_le_mul_right (by omega) pos

theorem images_append (h : Framing c s) (seq : Word) {chunk : List Byte} (full : chunk.length = chunkBytes s.params) :
    ∀ img ∈ s.encOut ++ [image s.enc.id seq chunk], img.length = imageSamples s.params := by
  simp only [List.mem_append, List.mem_singleton]
  rintro img (mem | rfl)
  · exact h.images img mem
  · rw [length_image, full, imageSamples_eq _ h.legal, Nat.add_comm]

/-- `ENC_START` begins a run with no byte taken (R103). -/
theorem start (inv : StateInv s) (fits : totalImages s.params s.host.encLenReg.toNat ≤ maxSequence) :
    Framing 0 (latchEncoderRun s) where
  legal := inv.legal
  state := rfl
  err := rfl
  fill_lt := chunkBytes_pos inv.legal
  count := by simp [latchEncoderRun]
  total_eq := by
    rw [maxSequence] at fits
    exact Nat.mod_eq_of_lt (by omega)
  images := inv.images
  dec := inv.dec

theorem appendByte (h : Framing c s) (b : Byte) (hc : c < 8 + s.enc.len.toNat) :
    Framing (c + 1) (appendByte s b) := by
  have count := h.count
  by_cases full : s.enc.buf.length + 1 = chunkBytes s.params
  · have due : s.enc.emitted.toNat < s.enc.total.toNat := by
      have := h.framed_le
      have succ := Nat.succ_mul s.enc.emitted.toNat (chunkBytes s.params)
      exact Nat.le_of_mul_le_mul_right (by omega) (chunkBytes_pos h.legal)
    rw [appendByte_full s b full]
    exact
      { h with
        fill_lt := chunkBytes_pos h.legal
        count := by
          show (s.enc.emitted + 1).toNat * chunkBytes s.params + 0 = c + 1
          rw [emitted_add_one due, Nat.succ_mul]
          omega
        images := h.images_append _ (by simpa using full) }
  · have fill := h.fill_lt
    rw [appendByte_open s b full]
    exact
      { h with
        fill_lt := by
          show (s.enc.buf ++ [b]).length < chunkBytes s.params
          simp only [List.length_append, List.length_singleton]
          omega
        count := by
          show s.enc.emitted.toNat * chunkBytes s.params + (s.enc.buf ++ [b]).length = c + 1
          simp only [List.length_append, List.length_singleton]
          omega }

theorem appendBytes (h : Framing c s) (bs : List Byte) (hc : c + bs.length ≤ 8 + s.enc.len.toNat) :
    Framing (c + bs.length) (bs.foldl Machine.appendByte s) := by
  induction bs generalizing c s with
  | nil => exact h
  | cons b bs ih =>
    rw [List.length_cons] at hc ⊢
    have := ih (h.appendByte b (by omega)) (by rw [appendByte_len]; omega)
    rwa [Nat.add_assoc, Nat.add_comm 1] at this

/-- A run with bytes still to come meets the invariants (R28). -/
theorem inv_of_pending (h : Framing c s) (pending : s.enc.rem ≠ 0) (rest : c + s.enc.rem.toNat = 8 + s.enc.len.toNat)
    (rem_le : s.enc.rem.toNat ≤ s.enc.len.toNat) : StateInv s :=
  { h with
    enc :=
      { fill_lt := h.fill_lt
        run_pending := fun _ => Nat.pos_of_ne_zero fun zero => pending (BitVec.eq_of_toNat_eq zero)
        run_rem_le := fun _ => rem_le
        run_consumed := fun _ => by
          have := h.count
          omega
        total_eq := fun _ => h.total_eq
        done_closed := fun done => by simp [h.state] at done
        emitted_le := h.emitted_le (by omega)
        err_iff := by simp [h.state, h.err]
        idle_reset := fun idle => by simp [h.state] at idle } }

/-- `finish()` after the last byte has emitted exactly the images the run needs (R28, R101). -/
theorem emitted_finishRun (h : Framing c s) (all : c = 8 + s.enc.len.toNat) :
    (finishRun s).enc.emitted = s.enc.total := by
  have fill := h.fill_lt
  have count := h.count
  have pos := chunkBytes_pos h.legal
  have total {k : Nat} (least : totalImages s.params s.enc.len.toNat = k) : s.enc.total.toNat = k :=
    h.total_eq.trans least
  apply BitVec.eq_of_toNat_eq
  by_cases pending : 0 < s.enc.buf.length
  · have succ := Nat.add_one_mul s.enc.emitted.toNat (chunkBytes s.params)
    have total := total (ceilDiv_unique _ _ (s.enc.emitted.toNat + 1) pos (by omega) (by omega))
    rw [finishRun_pending s pending, total]
    exact emitted_add_one (by omega)
  · rw [finishRun_empty s (List.length_eq_zero_iff.1 (by omega))]
    exact (total (ceilDiv_unique _ _ s.enc.emitted.toNat pos (by omega) (by omega))).symm

theorem images_finishRun (h : Framing c s) : ∀ img ∈ (finishRun s).encOut, img.length = imageSamples s.params := by
  have fill := h.fill_lt
  by_cases pending : 0 < s.enc.buf.length
  · rw [finishRun_pending s pending]
    exact h.images_append _ (by rw [List.length_append, length_zeroBytes]; omega)
  · rw [finishRun_empty s (List.length_eq_zero_iff.1 (by omega))]
    exact h.images

/-- A run that has taken its last byte meets the invariants once it is finished (R28, R101). -/
theorem finishRun_inv (h : Framing c s) (last : s.enc.rem = 0) (rest : c + s.enc.rem.toNat = 8 + s.enc.len.toNat) :
    StateInv (finishRun s) := by
  have images := h.images_finishRun
  rw [finishRun_frame s, h.emitted_finishRun (by simpa [last] using rest)]
  exact
    { legal := h.legal
      dec := h.dec
      images := images
      enc :=
        { fill_lt := chunkBytes_pos h.legal
          run_pending := nofun
          run_rem_le := nofun
          run_consumed := nofun
          total_eq := fun _ => h.total_eq
          done_closed := fun _ => ⟨last, rfl, rfl⟩
          emitted_le := Nat.le_refl _
          err_iff := by simp [h.err]
          idle_reset := nofun } }

end Framing

/-! ## Commands of the encoder -/

namespace StateInv

variable {s t : State}

theorem respond (inv : StateInv s) (r : Resp) (d : Word) : StateInv (respond r d s) := { inv with }

theorem raiseEnc (inv : StateInv s) {e : ErrorCode} (he : e ≠ .noError) : StateInv (raiseEnc e s) :=
  { inv with enc := inv.enc.raise he }

theorem raiseDec (inv : StateInv s) {e : ErrorCode} (he : e ≠ .noError) : StateInv (raiseDec e s) :=
  { inv with dec := inv.dec.raise he }

theorem startEncoderRun (inv : StateInv s) : StateInv (startEncoderRun s) := by
  by_cases fits : totalImages s.params s.host.encLenReg.toNat > maxSequence
  · exact startEncoderRun_long s fits ▸ inv.raiseEnc (by decide)
  · have begun : Framing 8 (begunRun s) := by
      simpa [begunRun] using (Framing.start inv (Nat.not_lt.1 fits)).appendBytes (beBytes 8 _) (by simp)
    rw [startEncoderRun_fits s fits]
    split
    next empty => exact (begun.finishRun_inv (by simpa using empty) (by simp)).respond _ _
    next pending => exact (begun.inv_of_pending (by simpa using pending) (by simp) (by simp)).respond _ _

/-- In RUN the bytes that are not to come have been taken (R28). -/
theorem framing (inv : StateInv s) (run : s.enc.state = .run) :
    Framing (8 + s.enc.len.toNat - s.enc.rem.toNat) s :=
  { inv with
    state := run
    err := inv.enc.err_eq (by simp [run])
    fill_lt := inv.enc.fill_lt
    count := (inv.enc.run_consumed run).symm
    total_eq := inv.enc.total_eq (.inl run) }

theorem pushFileByte (inv : StateInv s) (b : Byte) (run : s.enc.state = .run) : StateInv (pushFileByte b s) := by
  have pos := inv.enc.run_pending run
  have le := inv.enc.run_rem_le run
  have rem : (s.enc.rem - 1).toNat = s.enc.rem.toNat - 1 := BitVec.toNat_sub_of_le pos
  have fewer : Framing _ { s with enc := { s.enc with rem := s.enc.rem - 1 } } := { inv.framing run with }
  have pushed : Framing _ (pushedRun b s) := fewer.appendByte b (by show _ - _ < 8 + s.enc.len.toNat; omega)
  have rest : 8 + s.enc.len.toNat - s.enc.rem.toNat + 1 + (pushedRun b s).enc.rem.toNat =
      8 + (pushedRun b s).enc.len.toNat := by
    rw [pushedRun_rem, pushedRun_len, rem]
    omega
  rw [pushFileByte_eq]
  split
  next last => exact (pushed.finishRun_inv (by simpa using last) rest).respond _ _
  next pending => exact (pushed.inv_of_pending (by simpa using pending) rest (by omega)).respond _ _

theorem encoderCommand (inv : StateInv s) (legal : EncState → Bool) {body : State → State}
    (h : legal s.enc.state = true → StateInv (body s)) : StateInv (encoderCommand legal body s) := by
  obtain ⟨-, hc⟩ | ⟨-, hl, hc⟩ | ⟨-, -, hc⟩ := encoderCommand_cases legal body s
  · exact hc ▸ inv.respond _ _
  · exact hc ▸ h hl
  · exact hc ▸ inv.raiseEnc (by decide)

/-! ## Commands of the decoder -/

theorem setDec (inv : StateInv s) {d : Decoder} (dec : DecoderInv s.params d) : StateInv { s with dec := d } :=
  { inv with dec := dec }

theorem beginImage (inv : StateInv s) (width height : Half) (collect : s.dec.state = .collect) :
    StateInv (beginImage width height s) := by
  obtain ⟨-, hc⟩ | ⟨-, hc⟩ := beginImage_cases width height s
  · exact hc ▸ inv.raiseDec (by decide)
  · refine hc ▸ (inv.setDec ?_).respond _ _
    exact
      { inv.dec with
        scnt_lt := imageSamples_pos inv.legal
        image_chunk := fun _ => rfl
        image_id := fun _ _ => Nat.one_pos
        image_seq := fun _ _ => Nat.one_pos
        err_iff := ⟨nofun, absurd (inv.dec.err_eq (by simp [collect]))⟩
        idle_reset := nofun }

theorem finalizeRun (inv : StateInv s) (collect : s.dec.state = .collect) : StateInv (finalizeRun s) := by
  obtain ⟨e, he, hc⟩ | ⟨size, file, -, hc⟩ := finalizeRun_cases s
  · exact hc ▸ inv.raiseDec (reassemble_error_ne _ _ e he)
  · have dec : DecoderInv s.params { s.dec with size := size, state := .done } :=
      { inv.dec with
        image_chunk := nofun
        image_id := nofun
        image_seq := nofun
        err_iff := ⟨nofun, absurd (inv.dec.err_eq (by simp [collect]))⟩
        idle_reset := nofun }
    exact hc ▸ { inv.setDec dec with }

end StateInv

/-! ## One sample of an image -/

/-- One more byte below the others: the value keeps within the bytes delivered (R123). -/
theorem toNat_mul_add_byte_lt {w k : Nat} (v : BitVec w) (b : Byte) (hv : v.toNat < 256 ^ k) :
    (v * 256 + b.setWidth w).toNat < 256 ^ (k + 1) := by
  have byte := b.isLt
  have bound : (v * 256 + b.setWidth w).toNat ≤ v.toNat * 256 + b.toNat := by
    rw [BitVec.toNat_add, BitVec.toNat_mul, BitVec.toNat_setWidth]
    exact (Nat.mod_le _ _).trans (Nat.add_le_add
      ((Nat.mod_le _ _).trans (Nat.mul_le_mul_left _ (Nat.mod_le _ _))) (Nat.mod_le _ _))
  rw [Nat.pow_succ]
  omega

theorem DecoderInv.takeSample {p : Params} {d : Decoder} (legal : p.Legal) (inv : DecoderInv p d)
    (image : d.state = .inImage) (room : d.scnt.toNat + 1 < imageSamples p) (b : Byte) :
    DecoderInv p { takeSample b d with scnt := d.scnt + 1 } := by
  have small := imageSamples_lt p legal
  have scnt : (d.scnt + 1).toNat = d.scnt.toNat + 1 := by
    rw [BitVec.toNat_add]
    exact Nat.mod_eq_of_lt (by simp; omega)
  have chunk := inv.image_chunk image
  have id := inv.image_id image
  have seq := inv.image_seq image
  rcases Nat.lt_or_ge d.scnt.toNat 8 with h8 | h8
  · rw [takeSample_identifier b d h8]
    exact
      { inv with
        scnt_lt := scnt ▸ room
        image_chunk := fun _ => by
          show d.curChunk.length = (d.scnt + 1).toNat - 12
          omega
        image_id := fun _ _ => by
          show (d.curId * 256 + b.setWidth 64).toNat < 256 ^ (d.scnt + 1).toNat
          rw [scnt]
          exact toNat_mul_add_byte_lt _ _ (id (by omega))
        image_seq := fun _ _ => by
          show d.curSeq.toNat < 256 ^ ((d.scnt + 1).toNat - 8)
          rw [scnt, Nat.sub_eq_zero_of_le h8]
          simpa [Nat.sub_eq_zero_of_le h8.le] using seq (by omega)
        idle_reset := fun idle => by simp [image] at idle }
  · rcases Nat.lt_or_ge d.scnt.toNat 12 with h12 | h12
    · rw [takeSample_sequence b d h8 h12]
      exact
        { inv with
          scnt_lt := scnt ▸ room
          image_chunk := fun _ => by
            show d.curChunk.length = (d.scnt + 1).toNat - 12
            omega
          image_id := fun _ (few : (d.scnt + 1).toNat ≤ 8) => by omega
          image_seq := fun _ _ => by
            show (d.curSeq * 256 + b.setWidth 32).toNat < 256 ^ ((d.scnt + 1).toNat - 8)
            rw [scnt, Nat.sub_add_comm h8]
            exact toNat_mul_add_byte_lt _ _ (seq h12.le)
          idle_reset := fun idle => by simp [image] at idle }
    · rw [takeSample_payload b d h12]
      exact
        { inv with
          scnt_lt := scnt ▸ room
          image_chunk := fun _ => by
            show (d.curChunk ++ [b]).length = (d.scnt + 1).toNat - 12
            rw [List.length_append, List.length_singleton]
            omega
          image_id := fun _ (few : (d.scnt + 1).toNat ≤ 8) => by omega
          image_seq := fun _ (few : (d.scnt + 1).toNat ≤ 12) => by omega
          idle_reset := fun idle => by simp [image] at idle }

/-- Storing the delivered image keeps the invariant while the store has room (R124). -/
theorem DecoderInv.storeImage {p : Params} {d : Decoder} (legal : p.Legal) (inv : DecoderInv p d)
    (image : d.state = .inImage) (room : d.count.toNat ≠ p.maxImages) {chunk : List Byte}
    (full : chunk.length = chunkBytes p) : DecoderInv p (storeImage { d with curChunk := chunk }) := by
  have max_le := legal.2.2.2
  have count_le := inv.count_le
  have count : (d.count + 1).toNat = d.count.toNat + 1 := by
    rw [BitVec.toNat_add]
    exact Nat.mod_eq_of_lt (by simp; omega)
  exact
    { count_le := by
        show (d.count + 1).toNat ≤ p.maxImages
        omega
      pairs_length := by
        show (d.pairs ++ [(d.curSeq, chunk)]).length = (d.count + 1).toNat
        rw [List.length_append, List.length_singleton, inv.pairs_length, count]
      pairs_chunk := by
        show ∀ sc ∈ d.pairs ++ [(d.curSeq, chunk)], sc.2.length = chunkBytes p
        simp only [List.mem_append, List.mem_singleton]
        rintro sc (mem | rfl)
        · exact inv.pairs_chunk sc mem
        · exact full
      scnt_lt := imageSamples_pos legal
      ref_iff := iff_of_true rfl fun zero => by
        rw [show d.count + 1 = 0 from zero] at count
        cases count
      last_seq := by simp [Machine.storeImage]
      image_chunk := nofun
      image_id := nofun
      image_seq := nofun
      err_iff := ⟨nofun, absurd (inv.err_eq (by simp [image]))⟩
      idle_reset := nofun }

namespace StateInv

variable {s t : State}

theorem deliverSample (inv : StateInv s) (b : Byte) (image : s.dec.state = .inImage) :
    StateInv (deliverSample b s) := by
  have lt := inv.dec.scnt_lt
  rcases Nat.lt_or_ge (s.dec.scnt.toNat + 1) (imageSamples s.params) with more | last
  · rw [deliverSample_open b s more]
    exact (inv.setDec (inv.dec.takeSample inv.legal image more b)).respond _ _
  · rw [deliverSample_last b s inv.legal (by omega)]
    obtain ⟨-, hc⟩ | ⟨-, -, hc⟩ | ⟨-, room, hc⟩ :=
      completeImage_cases { s.dec with curChunk := s.dec.curChunk ++ [b] } s
    · exact hc ▸ inv.raiseDec (by decide)
    · exact hc ▸ inv.raiseDec (by decide)
    · refine hc ▸ (inv.setDec (inv.dec.storeImage inv.legal image room ?_)).respond _ _
      have chunk := inv.dec.image_chunk image
      have samples := imageSamples_eq _ inv.legal
      have payload := four_le_chunkBytes _ inv.legal
      rw [List.length_append, List.length_singleton]
      omega

theorem decoderCommand (inv : StateInv s) (legal : DecState → Bool) {body : State → State}
    (h : legal s.dec.state = true → StateInv (body s)) : StateInv (decoderCommand legal body s) := by
  obtain ⟨-, hc⟩ | ⟨-, hl, hc⟩ | ⟨-, -, hc⟩ := decoderCommand_cases legal body s
  · exact hc ▸ inv.respond _ _
  · exact hc ▸ h hl
  · exact hc ▸ inv.raiseDec (by decide)

/-! ## Every step -/

theorem exec (inv : StateInv s) {i : Instr} (h : exec i s = .next t) : StateInv t := by
  cases i with
  | encStart => cases h; exact inv.encoderCommand _ fun _ => inv.startEncoderRun
  | encPush b => cases h; exact inv.encoderCommand _ fun legal => inv.pushFileByte b (encPushLegal_iff.1 legal)
  | encClear => cases h; exact { inv with enc := .reset inv.legal }
  | decStart => cases h; exact inv.decoderCommand _ fun _ => (inv.setDec (.empty inv.legal _)).respond _ _
  | decImgBegin width height =>
    cases h
    exact inv.decoderCommand _ fun legal => inv.beginImage width height (decImgBeginLegal_iff.1 legal)
  | decSample b => cases h; exact inv.decoderCommand _ fun legal => inv.deliverSample b (decSampleLegal_iff.1 legal)
  | decFinalize => cases h; exact inv.decoderCommand _ fun legal => inv.finalizeRun (decFinalizeLegal_iff.1 legal)
  | decClear => cases h; exact { inv with dec := .reset inv.legal }
  | nop | rd | wr =>
    obtain ⟨regs, r, w, rfl⟩ := exec_hostAccess rfl rfl h
    exact { inv with }

end StateInv

/-- Settles O57: waiting keeps the state, a reset its parameters and channels, an illegal word all but the replies, and
every command the invariants. -/
theorem stepKeepsTheInvariants : Obligations.StepKeepsTheInvariants := by
  intro s t inv h
  obtain ⟨-, hs⟩ | ⟨rest, -, hs⟩ | ⟨cmd, wdata, rest, why, -, -, hs⟩ | ⟨cmd, wdata, rest, i, -, -, hs⟩ := step_cases s
  · cases hs.symm.trans h
    exact inv
  · cases hs.symm.trans h
    exact { inv with enc := .reset inv.legal, dec := .reset inv.legal }
  · cases hs.symm.trans h
    exact { inv with }
  · exact StateInv.exec (s := { s with inbox := rest }) { inv with } (hs.symm.trans h)

end Sys2Proof.Machine
end

section
/-! PROOFS. What an engine's commands do not observe: the other engine and its channel, and past START the host
registers (R18, R32, R33, R58). Each procedure of an engine commutes with any change of what stands around that engine, because
every choice it makes is on the engine's own fields and the parameters. -/

namespace Sys2Proof.Machine

/-! ## Around the encoder -/

/-- `s` with other host registers, another decoder and another `DEC_OUT`: what stands around the encoder. -/
def aroundEncoder (h : HostRegs) (d : Decoder) (o : List (List Byte)) (s : State) : State :=
  { s with host := h, dec := d, decOut := o }

section

variable (h : HostRegs) (d : Decoder) (o : List (List Byte)) (s : State)

theorem appendByte_aroundEncoder (b : Byte) :
    appendByte (aroundEncoder h d o s) b = aroundEncoder h d o (appendByte s b) := by
  by_cases full : s.enc.buf.length + 1 = chunkBytes s.params
  · rw [appendByte_full s b full]
    exact appendByte_full (aroundEncoder h d o s) b full
  · rw [appendByte_open s b full]
    exact appendByte_open (aroundEncoder h d o s) b full

theorem appendBytes_aroundEncoder (bs : List Byte) :
    bs.foldl appendByte (aroundEncoder h d o s) = aroundEncoder h d o (bs.foldl appendByte s) := by
  induction bs generalizing s with
  | nil => rfl
  | cons b bs ih => rw [List.foldl_cons, List.foldl_cons, appendByte_aroundEncoder, ih]

theorem finishRun_aroundEncoder : finishRun (aroundEncoder h d o s) = aroundEncoder h d o (finishRun s) := by
  by_cases pending : 0 < s.enc.buf.length
  · rw [finishRun_pending s pending]
    exact finishRun_pending (aroundEncoder h d o s) pending
  · have empty : s.enc.buf = [] := List.length_eq_zero_iff.1 (by omega)
    rw [finishRun_empty s empty]
    exact finishRun_empty (aroundEncoder h d o s) empty

/-- `ENC_START` alone reads the host registers, which it latches (R32, R103). -/
theorem startEncoderRun_aroundEncoder :
    startEncoderRun (aroundEncoder s.host d o s) = aroundEncoder s.host d o (startEncoderRun s) := by
  by_cases fits : totalImages s.params s.host.encLenReg.toNat > maxSequence
  · rw [startEncoderRun_long s fits]
    exact startEncoderRun_long (aroundEncoder s.host d o s) fits
  · have begun : begunRun (aroundEncoder s.host d o s) = aroundEncoder s.host d o (begunRun s) :=
      appendBytes_aroundEncoder s.host d o (latchEncoderRun s) _
    rw [startEncoderRun_fits s fits, startEncoderRun_fits (aroundEncoder s.host d o s) fits, begun,
      finishRun_aroundEncoder, ← apply_ite]
    rfl

theorem pushFileByte_aroundEncoder (b : Byte) :
    pushFileByte b (aroundEncoder h d o s) = aroundEncoder h d o (pushFileByte b s) := by
  have pushed : pushedRun b (aroundEncoder h d o s) = aroundEncoder h d o (pushedRun b s) :=
    appendByte_aroundEncoder h d o { s with enc := { s.enc with rem := s.enc.rem - 1 } } b
  rw [pushFileByte_eq, pushFileByte_eq, pushed, finishRun_aroundEncoder, ← apply_ite]
  rfl

theorem encoderCommand_aroundEncoder (legal : EncState → Bool) {body : State → State}
    (hbody : body (aroundEncoder h d o s) = aroundEncoder h d o (body s)) :
    encoderCommand legal body (aroundEncoder h d o s) = aroundEncoder h d o (encoderCommand legal body s) := by
  obtain ⟨error, hc⟩ | ⟨noError, hl, hc⟩ | ⟨noError, hl, hc⟩ := encoderCommand_cases legal body s
  · rw [hc]
    exact if_pos error
  · rw [hc, ← hbody]
    exact (if_neg noError).trans (if_pos hl)
  · rw [hc]
    exact (if_neg noError).trans (if_neg (ne_true_of_eq_false hl))

end

/-- An encoder command commutes with any change around the encoder, but that `ENC_START` latches the host registers
(R18, R32). -/
theorem exec_aroundEncoder {i : Instr} {s t : State} (hi : encoderInstr i = true) (he : exec i s = .next t)
    (h : HostRegs) (latches : i = .encStart → h = s.host) (d : Decoder) (o : List (List Byte)) :
    exec i (aroundEncoder h d o s) = .next (aroundEncoder h d o t) := by
  cases i with
  | encStart =>
    obtain rfl := latches rfl
    cases he
    exact congrArg _ (encoderCommand_aroundEncoder s.host d o s _ (startEncoderRun_aroundEncoder d o s))
  | encPush b =>
    cases he
    exact congrArg _ (encoderCommand_aroundEncoder h d o s _ (pushFileByte_aroundEncoder h d o s b))
  | encClear =>
    cases he
    rfl
  | _ => cases hi

/-! ## Around the decoder -/

/-- `s` with other host registers, another encoder and another `ENC_OUT`: what stands around the decoder. -/
def aroundDecoder (h : HostRegs) (e : Encoder) (o : List Image) (s : State) : State :=
  { s with host := h, enc := e, encOut := o }

section

variable (h : HostRegs) (e : Encoder) (o : List Image) (s : State)

theorem beginImage_aroundDecoder (width height : Half) :
    beginImage width height (aroundDecoder h e o s) = aroundDecoder h e o (beginImage width height s) := by
  obtain ⟨wrong, hc⟩ | ⟨⟨sameWidth, sameHeight⟩, hc⟩ := beginImage_cases width height s
  · rw [hc]
    exact if_pos wrong
  · rw [hc]
    exact if_neg (not_or.2 ⟨not_not.2 sameWidth, not_not.2 sameHeight⟩)

theorem completeImage_aroundDecoder (d : Decoder) :
    completeImage d (aroundDecoder h e o s) = aroundDecoder h e o (completeImage d s) := by
  obtain ⟨mismatch, hc⟩ | ⟨same, full, hc⟩ | ⟨same, room, hc⟩ := completeImage_cases d s
  · rw [hc]
    exact if_pos mismatch
  · rw [hc]
    exact (if_neg same).trans (if_pos full)
  · rw [hc]
    exact (if_neg same).trans (if_neg room)

theorem deliverSample_aroundDecoder (b : Byte) :
    deliverSample b (aroundDecoder h e o s) = aroundDecoder h e o (deliverSample b s) := by
  by_cases more : s.dec.scnt.toNat + 1 < imageSamples s.params
  · rw [deliverSample_open b s more]
    exact deliverSample_open b (aroundDecoder h e o s) more
  · rw [deliverSample_complete b s more, ← completeImage_aroundDecoder]
    exact deliverSample_complete b (aroundDecoder h e o s) more

theorem finalizeRun_aroundDecoder : finalizeRun (aroundDecoder h e o s) = aroundDecoder h e o (finalizeRun s) := by
  obtain ⟨code, failed, hc⟩ | ⟨size, file, passed, hc⟩ := finalizeRun_cases s
  · rw [hc]
    exact finalizeRun_error (aroundDecoder h e o s) failed
  · rw [hc]
    exact finalizeRun_ok (aroundDecoder h e o s) passed

theorem decoderCommand_aroundDecoder (legal : DecState → Bool) {body : State → State}
    (hbody : body (aroundDecoder h e o s) = aroundDecoder h e o (body s)) :
    decoderCommand legal body (aroundDecoder h e o s) = aroundDecoder h e o (decoderCommand legal body s) := by
  obtain ⟨error, hc⟩ | ⟨noError, hl, hc⟩ | ⟨noError, hl, hc⟩ := decoderCommand_cases legal body s
  · rw [hc]
    exact if_pos error
  · rw [hc, ← hbody]
    exact (if_neg noError).trans (if_pos hl)
  · rw [hc]
    exact (if_neg noError).trans (if_neg (ne_true_of_eq_false hl))

end

/-- A decoder command commutes with any change around the decoder, but that `DEC_START` latches STRICT_ID (R18, R33). -/
theorem exec_aroundDecoder {i : Instr} {s t : State} (hi : decoderInstr i = true) (hd : exec i s = .next t)
    (h : HostRegs) (latches : i = .decStart → h = s.host) (e : Encoder) (o : List Image) :
    exec i (aroundDecoder h e o s) = .next (aroundDecoder h e o t) := by
  cases i with
  | decStart =>
    obtain rfl := latches rfl
    cases hd
    exact congrArg _ (decoderCommand_aroundDecoder s.host e o s _ (body := startDecoderRun) rfl)
  | decImgBegin width height =>
    cases hd
    exact congrArg _ (decoderCommand_aroundDecoder h e o s _ (beginImage_aroundDecoder h e o s width height))
  | decSample b =>
    cases hd
    exact congrArg _ (decoderCommand_aroundDecoder h e o s _ (deliverSample_aroundDecoder h e o s b))
  | decFinalize =>
    cases hd
    exact congrArg _ (decoderCommand_aroundDecoder h e o s _ (finalizeRun_aroundDecoder h e o s))
  | decClear =>
    cases hd
    rfl
  | _ => cases hi

/-! ## The statements -/

/-- Settles O19: each engine's commands commute with a change around it that keeps the host registers. -/
theorem enginesDoNotObserveEachOther : Obligations.EnginesDoNotObserveEachOther := by
  constructor
  · intro i s t d o hi he
    have same : { t with dec := d, decOut := o } = aroundEncoder s.host d o t := by
      rw [← (EncoderEffect.of_exec hi he).host]
      rfl
    rw [same]
    exact exec_aroundEncoder hi he s.host (fun _ => rfl) d o
  · intro i s t e o hi hd
    have same : { t with enc := e, encOut := o } = aroundDecoder s.host e o t := by
      rw [← (DecoderEffect.of_exec hi hd).host]
      rfl
    rw [same]
    exact exec_aroundDecoder hi hd s.host (fun _ => rfl) e o

/-- Settles O20: each engine's commands but START commute with a change around it of the host registers alone. -/
theorem runsUseTheLatchedValues : Obligations.RunsUseTheLatchedValues := by
  rintro i s t h (hi | hi) encStart decStart hx
  · have effect := EncoderEffect.of_exec hi hx
    have same : { t with host := h } = aroundEncoder h s.dec s.decOut t := by
      rw [← effect.dec, ← effect.decOut]
      rfl
    rw [same]
    exact exec_aroundEncoder hi hx h (fun start => absurd start encStart) s.dec s.decOut
  · have effect := DecoderEffect.of_exec hi hx
    have same : { t with host := h } = aroundDecoder h s.enc s.encOut t := by
      rw [← effect.enc, ← effect.encOut]
      rfl
    rw [same]
    exact exec_aroundDecoder hi hx h (fun start => absurd start decStart) s.enc s.encOut

end Sys2Proof.Machine
end

section
/-! PROOFS. The fields of the status words (R23, R24), and what registers read after a write (R25, R138). -/

namespace Sys2Proof.Machine

/-! ## The fields of the status words -/

/-- `ENC_STATUS`, bit range by bit range, for whichever numbers of the error code and the state (R23). -/
theorem encStatus_fields (err : BitVec 4) (state : BitVec 2) :
    let w : Word := (err.setWidth 32 <<< 4) ||| state.setWidth 32
    w.extractLsb' 0 2 = state ∧ w.extractLsb' 2 2 = 0#2 ∧ w.extractLsb' 4 4 = err ∧ w.extractLsb' 8 24 = 0#24 := by
  decide +revert

/-- `DEC_STATUS`, bit range by bit range, for whichever numbers of the error code and the state (R24). -/
theorem decStatus_fields (refValid strict : Bool) (err : BitVec 4) (state : BitVec 3) :
    let w : Word := ((BitVec.ofBool refValid).setWidth 32 <<< 9) ||| ((BitVec.ofBool strict).setWidth 32 <<< 8) |||
      (err.setWidth 32 <<< 4) ||| state.setWidth 32
    w.extractLsb' 0 3 = state ∧ w.getLsbD 3 = false ∧ w.extractLsb' 4 4 = err ∧ w.getLsbD 8 = strict ∧
      w.getLsbD 9 = refValid ∧ w.extractLsb' 10 22 = 0#22 := by
  decide +revert

/-- Settles O13: the fields by their bit ranges, the numbers of the states one by one. -/
theorem statusWordsHoldTheirFields : Obligations.StatusWordsHoldTheirFields := by
  refine ⟨fun s => ?_, fun s => ?_, by decide⟩
  · obtain ⟨state, others⟩ := encStatus_fields (errorCodeBits s.enc.err) (encStateCode s.enc.state)
    refine ⟨state.trans ?_, others⟩
    cases s.enc.state <;> rfl
  · obtain ⟨state, others⟩ :=
      decStatus_fields s.dec.refValid s.dec.strict (errorCodeBits s.dec.err) (decStateCode s.dec.state)
    refine ⟨state.trans ?_, others⟩
    cases s.dec.state <;> rfl

/-! ## Reading after a write -/

/-- A reply changes no register. -/
@[simp] theorem readReg_respond (r : Resp) (d : Word) (s : State) (reg : Reg) :
    readReg (respond r d s) reg = readReg s reg := by
  cases reg <;> rfl

theorem readReg_written {s : State} {v : Word} {r : Reg} {h : HostRegs} (hw : writeReg s.host v r = some h) :
    readReg { s with host := h } r = if r = .ctrl then v &&& 1 else v := by
  cases r with
  | ctrl => cases hw; exact BitVec.and_one_eq_setWidth_ofBool_getLsbD.symm
  | encIdLo | encLenLo => cases hw; exact lowHalf_joinHalves _ _
  | encIdHi | encLenHi => cases hw; exact highHalf_joinHalves _ _
  | _ => cases hw

/-- A write leaves the other half of its 64-bit register, and every other register (R138). -/
theorem readReg_not_written {s : State} {v : Word} {r r' : Reg} {h : HostRegs} (hw : writeReg s.host v r = some h)
    (other : r' ≠ r) : readReg { s with host := h } r' = readReg s r' := by
  cases r with
  | ctrl | encIdLo | encIdHi | encLenLo | encLenHi =>
    cases hw
    cases r' <;> simp [readReg, setLowHalf, setHighHalf] at other ⊢
  | _ => cases hw

/-- Settles O15: an accepted write by the two laws above, a refused one because only read-only registers refuse. -/
theorem writtenRegistersReadBack : Obligations.WrittenRegistersReadBack := by
  intro s t a v hx
  obtain ⟨r, h, ha, hw, -, ht⟩ | ⟨-, readOnly, ht⟩ := execWr_cases a v s
  · cases ht.symm.trans hx
    have same {r' : Reg} (h' : regAddress r' = a) : r' = r := by
      rw [← h', regAt_regAddress] at ha
      exact Option.some.inj ha
    simp only [readReg_respond]
    refine ⟨?_, ?_, ?_⟩
    · rintro rfl
      obtain rfl := same (r' := .ctrl) rfl
      exact readReg_written hw
    · intro r' h' _ notCtrl
      obtain rfl := same h'
      exact (readReg_written hw).trans (if_neg notCtrl)
    · intro r' h'
      refine readReg_not_written hw ?_
      rintro rfl
      exact h' (regAddress_of_regAt a r' ha)
  · cases ht.symm.trans hx
    have notWritable {r' : Reg} (h' : regAddress r' = a) : regAccess r' = .readOnly :=
      readOnly r' (h' ▸ regAt_regAddress r')
    refine ⟨?_, ?_, ?_⟩
    · rintro rfl
      cases notWritable (r' := .ctrl) rfl
    · intro r' h' writable
      cases writable.symm.trans (notWritable h')
    · exact fun r' _ => readReg_respond .illegal 0 s r'

end Sys2Proof.Machine
end

section
/-! PROOFS. The header of an image (R43, R45, R92) and the place of a framed byte in its chunk (R42, R88). -/

namespace Sys2Proof.Machine

/-! ## The header bits of an image -/

/-- The stream bits of a list come before those of the list appended to it. -/
theorem streamBit_append (as bs : List Byte) (j : Nat) :
    streamBit (as ++ bs) j = if j < 8 * as.length then streamBit as j else streamBit bs (j - 8 * as.length) := by
  have bits : bytesToBits (as ++ bs) = bytesToBits as ++ bytesToBits bs := List.flatMap_append
  rw [← getElem?_bytesToBits, bits, List.getElem?_append, length_bytesToBits, getElem?_bytesToBits, getElem?_bytesToBits]

/-- `be_n` lays the bits of a number out most significant bit first (R13, R14). -/
theorem streamBit_beBytes {n j : Nat} (v : Nat) (h : j < 8 * n) :
    streamBit (beBytes n v) j = some (v.testBit (8 * n - 1 - j)) := by
  have byte : j / 8 < n := by omega
  have bit : 7 - j % 8 < 8 := by omega
  have place : 8 * (n - 1 - j / 8) + (7 - j % 8) = 8 * n - 1 - j := by omega
  rw [streamBit, getElem?_beBytes v byte, Option.map_some, BitVec.getLsbD_ofNat, ← two_pow_eight_mul,
    Nat.testBit_div_two_pow, Nat.add_comm, place]
  simp [bit]

/-- The identifier fills the first 64 stream bits of an image (R43, R45). -/
theorem streamBit_image_id (id : DWord) (seq : Word) (c : List Byte) {b : Nat} (h : b < 64) :
    streamBit (image id seq c) b = some (id.getLsbD (63 - b)) := by
  rw [image, header, List.append_assoc, streamBit_append, length_beBytes, if_pos h, streamBit_beBytes _ h]
  rfl

/-- The sequence number fills the next 32 stream bits (R43, R45). -/
theorem streamBit_image_seq (id : DWord) (seq : Word) (c : List Byte) {b : Nat} (h : b < 32) :
    streamBit (image id seq c) (64 + b) = some (seq.getLsbD (31 - b)) := by
  rw [image, header, List.append_assoc, streamBit_append, length_beBytes, if_neg (by omega), Nat.add_sub_cancel_left,
    streamBit_append, length_beBytes, if_pos h, streamBit_beBytes _ h]
  rfl

/-- Parsing an image gives back the three parts it was made of (R92). -/
@[simp] theorem parseImage_image (id : DWord) (seq : Word) (c : List Byte) :
    parseImage (image id seq c) = (id, seq, c) := by
  have idBytes : (image id seq c).take 8 = beBytes 8 id.toNat := by
    simp [image, header]
  have seqBytes : ((image id seq c).drop 8).take 4 = beBytes 4 seq.toNat := by
    simp [image, header]
  have payload : (image id seq c).drop 12 = c := List.drop_left' (length_header id seq)
  rw [parseImage, idBytes, seqBytes, payload, fromBe_beBytes_eight, fromBe_beBytes_four]
  simp

/-- Settles O49: the bits of the two big-endian numbers by their places, and the parts by their lengths. -/
theorem imageHeaderBits : Obligations.ImageHeaderBits :=
  fun id seq c =>
    ⟨fun _ => streamBit_image_id id seq c, fun _ => streamBit_image_seq id seq c, parseImage_image id seq c⟩

/-! ## The framed stream and its chunks -/

@[simp] theorem length_frame (file : List Byte) : (frame file).length = 8 + file.length := by simp [frame]

/-- Byte `k` of a stream is byte `k mod P` of chunk `k / P + 1` (R42). -/
theorem getElem?_chunk (p : Params) (legal : p.Legal) (f : List Byte) {k : Nat} (h : k < f.length) :
    (chunk p f (k / chunkBytes p + 1))[k % chunkBytes p]? = f[k]? := by
  have offset : k % chunkBytes p < chunkBytes p := Nat.mod_lt _ (chunkBytes_pos legal)
  have place : k / chunkBytes p * chunkBytes p + k % chunkBytes p = k := Nat.div_add_mod' _ _
  rw [chunk, Nat.add_sub_cancel, List.getElem?_append_left (by rw [List.length_take, List.length_drop]; omega),
    List.getElem?_take_of_lt offset, List.getElem?_drop, place]

/-- Settles O51: the lengths of the frame and its bits, and the place of each framed byte by quotient and remainder. -/
theorem framedBytesLieInTheirChunks : Obligations.FramedBytesLieInTheirChunks := by
  intro p file legal
  refine ⟨rfl, length_frame file, ?_, fun k => getElem?_chunk p legal _, fun i _ => length_chunk p _ i⟩
  rw [length_bytesToBits, length_frame, Nat.mul_add]

end Sys2Proof.Machine
end

section
/-! PROOFS. Every step keeps the numbering of the run's emitted images (R54, R100, R101). -/

namespace Sys2Proof.Machine

/-! ## When a run emits -/

/-- While framed bytes lie past the images emitted, another image is due (R87). -/
theorem Framing.emitted_lt {c : Nat} {s : State} (h : Framing c s)
    (more : s.enc.emitted.toNat * chunkBytes s.params < 8 + s.enc.len.toNat) :
    s.enc.emitted.toNat < s.enc.total.toNat :=
  Nat.lt_of_mul_lt_mul_right (Nat.lt_of_lt_of_le more h.framed_le)

/-- `ENC_START`'s run has taken the 8 size bytes (R103). -/
theorem Framing.begun {s : State} (inv : StateInv s)
    (fits : totalImages s.params s.host.encLenReg.toNat ≤ maxSequence) : Framing 8 (begunRun s) := by
  simpa [begunRun] using (Framing.start inv fits).appendBytes (beBytes 8 _) (by simp)

namespace OutputNumbered

variable {c : Nat} {s t : State}

/-! ## The numbering along a run -/

/-- A run that has emitted nothing has nothing to number. -/
theorem of_emitted_eq_zero (h : s.enc.emitted = 0) : OutputNumbered s :=
  ⟨s.encOut, [], (List.append_nil _).symm, by simp [h], nofun⟩

/-- The numbering speaks of the encoder and of `ENC_OUT` alone. -/
theorem congr (num : OutputNumbered s) (enc : t.enc = s.enc) (out : t.encOut = s.encOut) : OutputNumbered t := by
  rwa [OutputNumbered, enc, out]

theorem respond (num : OutputNumbered s) (r : Resp) (d : Word) : OutputNumbered (respond r d s) := num.congr rfl rfl

/-- An image that is due is emitted under the next number (R100). -/
theorem emitChunk (num : OutputNumbered s) (due : s.enc.emitted.toNat < s.enc.total.toNat) (chunk : List Byte) :
    OutputNumbered (emitChunk chunk s) := by
  obtain ⟨earlier, run, out, count, numbers⟩ := num
  have next := emitted_add_one due
  refine ⟨earlier, run ++ [image s.enc.id (s.enc.emitted + 1) chunk], ?_, ?_, fun k img h => ?_⟩
  · show s.encOut ++ [_] = _
    rw [out, List.append_assoc]
  · show _ = (s.enc.emitted + 1).toNat
    rw [List.length_append, List.length_singleton, count, next]
  · rcases Nat.lt_or_ge k run.length with old | new
    · exact numbers k img (by rwa [List.getElem?_append_left old] at h)
    · rw [List.getElem?_append_right new, List.getElem?_singleton] at h
      split at h
      next last =>
        have last : k = run.length := by omega
        obtain rfl := Option.some.inj h
        rw [parseImage_image, last, count]
        exact ⟨rfl, next⟩
      next => cases h

theorem appendByte (num : OutputNumbered s) (run : Framing c s) (room : c < 8 + s.enc.len.toNat) (b : Byte) :
    OutputNumbered (appendByte s b) := by
  have count := run.count
  by_cases full : s.enc.buf.length + 1 = chunkBytes s.params
  · rw [appendByte_full s b full]
    exact num.emitChunk (run.emitted_lt (by omega)) _
  · rw [appendByte_open s b full]
    exact num

theorem appendBytes (num : OutputNumbered s) (run : Framing c s) (bs : List Byte)
    (room : c + bs.length ≤ 8 + s.enc.len.toNat) : OutputNumbered (bs.foldl Machine.appendByte s) := by
  induction bs generalizing c s with
  | nil => exact num
  | cons b bs ih =>
    rw [List.length_cons] at room
    exact ih (num.appendByte run (by omega) b) (run.appendByte b (by omega)) (by rw [appendByte_len]; omega)

/-- `finish()` emits the pending bytes, if there are any, as the run's last image (R101). -/
theorem finishRun (num : OutputNumbered s) (run : Framing c s) (all : c = 8 + s.enc.len.toNat) :
    OutputNumbered (finishRun s) := by
  have count := run.count
  by_cases pending : 0 < s.enc.buf.length
  · rw [finishRun_pending s pending]
    exact num.emitChunk (run.emitted_lt (by omega)) _
  · rw [finishRun_empty s (List.length_eq_zero_iff.1 (by omega))]
    exact num

/-! ## Every command and every step -/

theorem startEncoderRun (num : OutputNumbered s) (inv : StateInv s) : OutputNumbered (startEncoderRun s) := by
  by_cases long : totalImages s.params s.host.encLenReg.toNat > maxSequence
  · exact startEncoderRun_long s long ▸ num
  · have fits := Nat.not_lt.1 long
    have begun : OutputNumbered (begunRun s) :=
      (of_emitted_eq_zero rfl).appendBytes (.start inv fits) (beBytes 8 _) (by simp)
    rw [startEncoderRun_fits s long]
    split
    next empty => exact (begun.finishRun (.begun inv fits) (by simp [empty])).respond _ _
    next => exact begun.respond _ _

theorem pushFileByte (num : OutputNumbered s) (inv : StateInv s) (run : s.enc.state = .run) (b : Byte) :
    OutputNumbered (pushFileByte b s) := by
  have pos := inv.enc.run_pending run
  have le := inv.enc.run_rem_le run
  have room : 8 + s.enc.len.toNat - s.enc.rem.toNat < 8 + s.enc.len.toNat := by omega
  have fewer : Framing _ { s with enc := { s.enc with rem := s.enc.rem - 1 } } := { inv.framing run with }
  have pushed : OutputNumbered (pushedRun b s) :=
    appendByte (s := { s with enc := { s.enc with rem := s.enc.rem - 1 } }) num fewer room b
  rw [pushFileByte_eq]
  split
  next last =>
    have rem : (s.enc.rem - 1).toNat = s.enc.rem.toNat - 1 := BitVec.toNat_sub_of_le pos
    have zero : s.enc.rem.toNat - 1 = 0 := by rw [← rem, last]; rfl
    exact (pushed.finishRun (fewer.appendByte b room) (by rw [pushedRun_len]; omega)).respond _ _
  next => exact pushed.respond _ _

theorem encoderCommand (num : OutputNumbered s) (legal : EncState → Bool) {body : State → State}
    (h : legal s.enc.state = true → OutputNumbered (body s)) : OutputNumbered (encoderCommand legal body s) := by
  obtain ⟨-, hc⟩ | ⟨-, hl, hc⟩ | ⟨-, -, hc⟩ := encoderCommand_cases legal body s
  · exact hc ▸ num.respond _ _
  · exact hc ▸ h hl
  · exact hc ▸ num

theorem exec (num : OutputNumbered s) (inv : StateInv s) {i : Instr} (h : exec i s = .next t) : OutputNumbered t := by
  cases i with
  | encStart => cases h; exact num.encoderCommand _ fun _ => num.startEncoderRun inv
  | encPush b => cases h; exact num.encoderCommand _ fun legal => num.pushFileByte inv (encPushLegal_iff.1 legal) b
  | encClear => cases h; exact of_emitted_eq_zero rfl
  | decStart | decImgBegin | decSample | decFinalize | decClear =>
    have effect := DecoderEffect.of_exec rfl h
    exact num.congr effect.enc effect.encOut
  | nop | rd | wr =>
    obtain ⟨regs, r, w, rfl⟩ := exec_hostAccess rfl rfl h
    exact num

end OutputNumbered

/-- Settles O58: waiting and an illegal word leave the run as it is, a reset begins with nothing emitted, and every
command emits only images that are due, so under the next numbers. -/
theorem stepKeepsTheOutputNumbered : Obligations.StepKeepsTheOutputNumbered := by
  intro s t inv num h
  obtain ⟨-, hs⟩ | ⟨rest, -, hs⟩ | ⟨cmd, wdata, rest, why, -, -, hs⟩ | ⟨cmd, wdata, rest, i, -, -, hs⟩ := step_cases s
  · cases hs.symm.trans h
    exact num
  · cases hs.symm.trans h
    exact .of_emitted_eq_zero rfl
  · cases hs.symm.trans h
    exact num
  · exact OutputNumbered.exec (s := { s with inbox := rest }) num { inv with } (hs.symm.trans h)

end Sys2Proof.Machine
end

section
/-! PROOFS. The step of a command (R53, R68). -/

namespace Sys2Proof.Machine

/-- Settles O6: the oldest event is taken and what its words decode to is executed. -/
theorem stepRunsTheDecodedCommand : Obligations.StepRunsTheDecodedCommand := by
  intro s cmd wdata rest i pending decoded
  simp only [step, takeEvent_of_cons s _ rest pending, decoded]

end Sys2Proof.Machine
end

section
/-! PROOFS. Encoding and decoding invert each other (R62 to R66, R69, R71). -/

namespace Sys2Proof

open Sys2Proof.Machine

/-! ## Opcodes -/

theorem opcodeOfByte_eq_some {b : Byte} {op : Opcode} : opcodeOfByte b = some op ↔ op.code = b :=
  ⟨code_of_opcodeOfByte b op, fun h => h ▸ opcodeOfByte_code op⟩

theorem opcodeOfByte_eq_none {b : Byte} : opcodeOfByte b = none ↔ ∀ op : Opcode, op.code ≠ b := by
  simp only [Option.eq_none_iff_forall_ne_some, ne_eq, opcodeOfByte_eq_some]

theorem Opcode.code_injective {op op' : Opcode} (h : op.code = op'.code) : op = op' :=
  Option.some.inj ((opcodeOfByte_code op).symm.trans (opcodeOfByte_eq_some.2 h.symm))

@[simp] theorem opcodeOf_assembleOperands (op : Opcode) (cmd wdata : Word) :
    opcodeOf (assembleOperands op cmd wdata) = op := by
  cases op <;> rfl

/-! ## The three things a command word can be -/

theorem decode_reserved_opcode {cmd wdata : Word} (h : ∀ op : Opcode, op.code ≠ opField cmd) :
    decode cmd wdata = .error (.reservedOpcode (opField cmd)) := by
  simp only [decode, opcodeOfByte_eq_none.2 h]

theorem decode_reserved_field {cmd wdata : Word} {op : Opcode} (code : op.code = opField cmd)
    (field : reservedClear op.format cmd = false) : decode cmd wdata = .error (.reservedField op) := by
  simp only [decode, opcodeOfByte_eq_some.2 code, field, Bool.false_eq_true, if_false]

theorem decode_legal {cmd wdata : Word} {op : Opcode} (code : op.code = opField cmd)
    (field : reservedClear op.format cmd = true) : decode cmd wdata = .ok (assembleOperands op cmd wdata) := by
  simp only [decode, opcodeOfByte_eq_some.2 code, field, if_true]

/-- A word decodes exactly when its opcode is defined and its reserved field clear (R68). -/
theorem decode_eq_ok {cmd wdata : Word} {i : Instr} :
    decode cmd wdata = .ok i ↔
      ∃ op : Opcode, op.code = opField cmd ∧ reservedClear op.format cmd = true ∧ assembleOperands op cmd wdata = i := by
  constructor
  · intro h
    cases hop : opcodeOfByte (opField cmd) with
    | none => cases (decode_reserved_opcode (opcodeOfByte_eq_none.1 hop)).symm.trans h
    | some op =>
      have code := opcodeOfByte_eq_some.1 hop
      cases field : reservedClear op.format cmd with
      | false => cases (decode_reserved_field code field).symm.trans h
      | true => exact ⟨op, code, field, Except.ok.inj ((decode_legal code field).symm.trans h)⟩
  · rintro ⟨op, code, field, rfl⟩
    exact decode_legal code field

/-! ## From a command to its transaction and back -/

theorem operandByte_of_format_z {i : Instr} (h : (opcodeOf i).format = .z) : operandByte i = 0 := by
  cases i with
  | rd | wr | encPush | decSample => cases h
  | _ => rfl

theorem lowByte_encode (i : Instr) : lowByte (encode i).cmd = operandByte i := lowByte_assembled _ _

/-- The operands of a command are assembled again from its word, and from its write data where it reads them (R65). -/
theorem assembleOperands_encode (i : Instr) (wdata : Word)
    (h : opcodeOf i = .wr ∨ opcodeOf i = .decImgBegin → wdata = (encode i).wdata) :
    assembleOperands (opcodeOf i) (encode i).cmd wdata = i := by
  cases i with
  | rd | encPush | decSample => simp [opcodeOf, assembleOperands, lowByte_encode, operandByte]
  | wr addr value => simp [h (.inl rfl), opcodeOf, assembleOperands, operandByte, encode, wdataOf]
  | decImgBegin width height => simp [h (.inr rfl), opcodeOf, assembleOperands, encode, wdataOf]
  | _ => rfl

theorem decode_encode_cmd (i : Instr) (wdata : Word) :
    decode (encode i).cmd wdata = .ok (assembleOperands (opcodeOf i) (encode i).cmd wdata) :=
  decode_assembled (opcodeOf i) (operandByte i) wdata operandByte_of_format_z

/-- Settles O1: the opcode, the byte operand and the write data are read where the encoding put them. -/
theorem everyCommandDecodesFromItsEncoding : Obligations.EveryCommandDecodesFromItsEncoding := fun i =>
  (decode_encode_cmd i _).trans (congrArg _ (assembleOperands_encode i _ fun _ => rfl))

/-! ## From a legal word to its command and back -/

/-- The byte operand of what a legal word spells is its low byte, which format Z leaves 0 (R62 to R64). -/
theorem operandByte_assembleOperands {op : Opcode} {cmd : Word} (wdata : Word)
    (h : op.format = .z → lowByte cmd = 0) : operandByte (assembleOperands op cmd wdata) = lowByte cmd := by
  cases op with
  | rd | wr | encPush | decSample => rfl
  | _ => exact (h rfl).symm

theorem encode_assembleOperands_cmd {op : Opcode} {cmd : Word} (wdata : Word) (code : op.code = opField cmd)
    (field : reservedClear op.format cmd = true) : (encode (assembleOperands op cmd wdata)).cmd = cmd := by
  obtain ⟨middle, low⟩ := fields_of_reservedClear op.format cmd field
  calc (encode (assembleOperands op cmd wdata)).cmd
      = ((opField cmd).setWidth 32 <<< 24) ||| (lowByte cmd).setWidth 32 := by
        simp only [encode, opcodeOf_assembleOperands, operandByte_assembleOperands wdata low, code]
    _ = ((opField cmd).setWidth 32 <<< 24) ||| ((reservedAB cmd).setWidth 32 <<< 8) ||| (lowByte cmd).setWidth 32 := by
        simp [middle]
    _ = cmd := (word_eq_fields cmd).symm

theorem encode_assembleOperands_wdata {op : Opcode} (cmd wdata : Word) (h : op = .wr ∨ op = .decImgBegin) :
    (encode (assembleOperands op cmd wdata)).wdata = wdata := by
  obtain rfl | rfl := h
  · rfl
  · exact (wdata_eq_fields wdata).symm

/-- Settles O2: a legal word is the encoding of what it decodes to, and an encoding is a legal word. -/
theorem decodeAcceptsExactlyTheEncodings : Obligations.DecodeAcceptsExactlyTheEncodings := by
  intro cmd wdata i
  constructor
  · intro h
    obtain ⟨op, code, field, rfl⟩ := decode_eq_ok.1 h
    refine ⟨(encode_assembleOperands_cmd wdata code field).symm, fun reads => ?_⟩
    rw [opcodeOf_assembleOperands] at reads
    exact (encode_assembleOperands_wdata cmd wdata reads).symm
  · rintro ⟨rfl, reads⟩
    rw [decode_encode_cmd, assembleOperands_encode i wdata reads]

/-- Settles O5: each word is decoded as it stands. -/
theorem writtenOutWordsDecode : Obligations.WrittenOutWordsDecode :=
  ⟨rfl, rfl, rfl, rfl, rfl, rfl, rfl, rfl, rfl, rfl⟩

end Sys2Proof
end

section
/-! PROOFS. The decoder against the match and mask table, which is written apart from it (R67). -/

namespace Sys2Proof

open Sys2Proof.Machine

/-! ## The table, row by opcode -/

/-- The mask of a format: all but its operand byte (R67). -/
def Format.mask : Format → Word
  | .z => 0xFFFFFFFF
  | .a | .b => 0xFFFFFF00

/-- The table's row of an opcode, from the opcode map and the formats (R62 to R64, R66). -/
def Opcode.row (op : Opcode) : OpcodeRow := ⟨op.mnemonic, op.code.setWidth 32 <<< 24, op.format.mask⟩

theorem opcodeRows_eq_map : opcodeRows = Opcode.all.map Opcode.row := by decide

theorem Opcode.mem_all (op : Opcode) : op ∈ Opcode.all := by cases op <;> decide

theorem exists_of_mem_opcodeRows {row : OpcodeRow} (h : row ∈ opcodeRows) : ∃ op : Opcode, op.row = row := by
  rw [opcodeRows_eq_map] at h
  obtain ⟨op, -, rfl⟩ := List.mem_map.1 h
  exact ⟨op, rfl⟩

theorem Opcode.mnemonic_injective {op op' : Opcode} (h : op.mnemonic = op'.mnemonic) : op = op' :=
  List.inj_on_of_nodup_map (show (Opcode.all.map Opcode.mnemonic).Nodup by decide) op.mem_all op'.mem_all h

/-! ## Masking, field by field -/

theorem word_ext_iff {v w : Word} :
    v = w ↔ opField v = opField w ∧ reservedAB v = reservedAB w ∧ lowByte v = lowByte w := by
  constructor
  · rintro rfl
    exact ⟨rfl, rfl, rfl⟩
  · rintro ⟨op, middle, low⟩
    rw [word_eq_fields v, word_eq_fields w, op, middle, low]

@[simp] theorem opField_and (v w : Word) : opField (v &&& w) = opField v &&& opField w := BitVec.extractLsb'_and
@[simp] theorem reservedAB_and (v w : Word) : reservedAB (v &&& w) = reservedAB v &&& reservedAB w :=
  BitVec.extractLsb'_and
@[simp] theorem lowByte_and (v w : Word) : lowByte (v &&& w) = lowByte v &&& lowByte w := BitVec.extractLsb'_and

/-- The reserved field of format Z is the one of the other formats and the operand byte (R62 to R64). -/
theorem reservedClear_iff {f : Format} {cmd : Word} :
    reservedClear f cmd = true ↔ reservedAB cmd = 0 ∧ (f = .z → lowByte cmd = 0) := by
  refine ⟨fields_of_reservedClear f cmd, fun ⟨middle, low⟩ => ?_⟩
  cases f with
  | z =>
    have bare : cmd = ((opField cmd).setWidth 32 <<< 24) ||| 0 := by
      conv_lhs => rw [word_eq_fields cmd, middle, low rfl]
      simp
    rw [bare]
    exact beq_iff_eq.2 (reservedZ_assembled _)
  | a | b => exact beq_iff_eq.2 middle

theorem opField_mask (f : Format) : opField f.mask = BitVec.allOnes 8 := by cases f <;> rfl

theorem reservedAB_mask (f : Format) : reservedAB f.mask = BitVec.allOnes 16 := by cases f <;> rfl

/-- The mask lets the low byte through in format Z only (R67). -/
theorem and_lowByte_mask_eq_zero {f : Format} {byte : Byte} :
    byte &&& lowByte f.mask = 0 ↔ (f = .z → byte = 0) := by
  cases f with
  | z => rw [show lowByte Format.z.mask = BitVec.allOnes 8 from rfl, BitVec.and_allOnes, forall_prop_of_true rfl]
  | a => simp [show lowByte Format.a.mask = 0 from rfl]
  | b => simp [show lowByte Format.b.mask = 0 from rfl]

/-- A row's test asks for its opcode and a clear reserved field (R67, R68). -/
theorem and_mask_eq_pattern_iff {op : Opcode} {cmd : Word} :
    cmd &&& op.row.mask = op.row.pattern ↔ op.code = opField cmd ∧ reservedClear op.format cmd = true := by
  have mask : op.row.mask = op.format.mask := rfl
  have pattern : op.row.pattern = (op.code.setWidth 32 <<< 24) ||| (0 : Byte).setWidth 32 := by simp [Opcode.row]
  rw [word_ext_iff, mask, pattern, opField_and, reservedAB_and, lowByte_and, opField_assembled, reservedAB_assembled,
    lowByte_assembled, opField_mask, reservedAB_mask, BitVec.and_allOnes, BitVec.and_allOnes, and_lowByte_mask_eq_zero,
    reservedClear_iff, eq_comm]

/-- Settles O3: each row is an opcode's, its test is the decoder's, and opcodes differ in name and in code. -/
theorem decodeFollowsTheMatchMaskTable : Obligations.DecodeFollowsTheMatchMaskTable := by
  refine ⟨fun row mem cmd wdata => ?_, fun row mem row' mem' cmd h h' => ?_⟩
  · obtain ⟨op, rfl⟩ := exists_of_mem_opcodeRows mem
    rw [and_mask_eq_pattern_iff]
    constructor
    · rintro ⟨i, decoded, name⟩
      obtain ⟨op', code, field, rfl⟩ := decode_eq_ok.1 decoded
      rw [opcodeOf_assembleOperands] at name
      obtain rfl := Opcode.mnemonic_injective name
      exact ⟨code, field⟩
    · rintro ⟨code, field⟩
      exact ⟨_, decode_legal code field, congrArg Opcode.mnemonic (opcodeOf_assembleOperands op cmd wdata)⟩
  · obtain ⟨op, rfl⟩ := exists_of_mem_opcodeRows mem
    obtain ⟨op', rfl⟩ := exists_of_mem_opcodeRows mem'
    obtain ⟨code, -⟩ := and_mask_eq_pattern_iff.1 h
    obtain ⟨code', -⟩ := and_mask_eq_pattern_iff.1 h'
    rw [Opcode.code_injective (code.trans code'.symm)]

end Sys2Proof
end

section
/-! PROOFS. Illegal words answer ILLEGAL and nothing else; every other word executes (R68), and no step stops (R61). -/

namespace Sys2Proof.Machine

/-! ## The step of a command -/

theorem step_of_decode_error {s : State} {cmd wdata : Word} {rest : List HostEvent} {why : IllegalWord}
    (pending : s.inbox = .command cmd wdata :: rest) (decoded : decode cmd wdata = .error why) :
    step s = .next (illegal { s with inbox := rest }) := by
  simp only [step, takeEvent_of_cons s _ rest pending, decoded]

/-! ## Illegal and legal words -/

/-- The opcodes of format Z (R62, R66). -/
theorem mem_codes_format_z (b : Byte) :
    b ∈ ([0x00, 0x10, 0x1F, 0x20, 0x21, 0x23, 0x2F] : List Byte) ↔ ∃ op : Opcode, op.format = .z ∧ op.code = b := by
  rw [show ([0x00, 0x10, 0x1F, 0x20, 0x21, 0x23, 0x2F] : List Byte) =
    (Opcode.all.filter (·.format = .z)).map Opcode.code from rfl]
  simp [Opcode.mem_all]

/-- The opcodes of formats A and B (R63, R64, R66). -/
theorem mem_codes_format_ab (b : Byte) :
    b ∈ ([0x01, 0x02, 0x11, 0x22] : List Byte) ↔ ∃ op : Opcode, op.format ≠ .z ∧ op.code = b := by
  rw [show ([0x01, 0x02, 0x11, 0x22] : List Byte) = (Opcode.all.filter (·.format ≠ .z)).map Opcode.code from rfl]
  simp [Opcode.mem_all]

theorem reservedClear_of_format_z {f : Format} (h : f = .z) (cmd : Word) : reservedClear f cmd = (reservedZ cmd == 0) := by
  rw [h, reservedClear]

theorem reservedClear_of_format_ne_z {f : Format} (h : f ≠ .z) (cmd : Word) :
    reservedClear f cmd = (reservedAB cmd == 0) := by
  cases f with
  | z => exact absurd rfl h
  | a | b => rfl

/-- Settles O4: the two lists are the opcodes by format, and each clause is one of the three things a word can be. -/
theorem illegalWordsAnswerIllegalAndChangeNothing : Obligations.IllegalWordsAnswerIllegalAndChangeNothing := by
  intro s cmd wdata rest pending op formatZ formatAB refused executes
  have refuses {why : IllegalWord} (h : decode cmd wdata = .error why) : refused := step_of_decode_error pending h
  have runs {o : Opcode} (code : o.code = op) (field : reservedClear o.format cmd = true) : executes :=
    ⟨_, by rw [opcodeOf_assembleOperands, code],
      stepRunsTheDecodedCommand s cmd wdata rest _ pending (decode_legal code field)⟩
  refine ⟨fun reserved => ?_, fun mem field => ?_, fun mem field => ?_, fun mem field => ?_, fun mem field => ?_⟩
  · refine refuses (decode_reserved_opcode fun o code => reserved (List.mem_append.2 ?_))
    by_cases hz : o.format = .z
    · exact .inl ((mem_codes_format_z op).2 ⟨o, hz, code⟩)
    · exact .inr ((mem_codes_format_ab op).2 ⟨o, hz, code⟩)
  · obtain ⟨o, hz, code⟩ := (mem_codes_format_z op).1 mem
    exact refuses (decode_reserved_field code ((reservedClear_of_format_z hz cmd).trans (beq_false_of_ne field)))
  · obtain ⟨o, hz, code⟩ := (mem_codes_format_ab op).1 mem
    exact refuses (decode_reserved_field code ((reservedClear_of_format_ne_z hz cmd).trans (beq_false_of_ne field)))
  · obtain ⟨o, hz, code⟩ := (mem_codes_format_z op).1 mem
    exact runs code ((reservedClear_of_format_z hz cmd).trans (beq_iff_eq.2 field))
  · obtain ⟨o, hz, code⟩ := (mem_codes_format_ab op).1 mem
    exact runs code ((reservedClear_of_format_ne_z hz cmd).trans (beq_iff_eq.2 field))

/-! ## No step stops -/

theorem exec_total (i : Instr) (s : State) : ∃ t, exec i s = .next t := by
  cases i <;> exact ⟨_, rfl⟩

/-- Settles O8: waiting, a reset and an illegal word answer a next state, and so does every command. -/
theorem everyStepAnswersANextState : Obligations.EveryStepAnswersANextState := by
  intro s
  obtain ⟨-, hs⟩ | ⟨rest, -, hs⟩ | ⟨cmd, wdata, rest, why, -, -, hs⟩ | ⟨cmd, wdata, rest, i, -, -, hs⟩ := step_cases s
  · exact ⟨_, hs⟩
  · exact ⟨_, hs⟩
  · exact ⟨_, hs⟩
  · rw [hs]
    exact exec_total i _

end Sys2Proof.Machine
end

section
/-! PROOFS. Every command gives one reply (R60, R61), and the two writes of `WR64` (R72, R138). -/

namespace Sys2Proof.Machine

/-! ## One reply per command -/

/-- From `s` to `t` exactly one reply was added, and its read data is 0. -/
def AnswersZero (s t : State) : Prop := ∃ r, t.replies = s.replies ++ [⟨r, 0⟩]

namespace AnswersZero

variable {s t u : State}

/-- A reply given after steps that reply nothing. -/
theorem respond (r : Resp) (quiet : u.replies = s.replies) : AnswersZero s (respond r 0 u) :=
  ⟨r, congrArg (· ++ [Reply.mk r 0]) quiet⟩

theorem startEncoderRun (s : State) : AnswersZero s (startEncoderRun s) := by
  by_cases long : totalImages s.params s.host.encLenReg.toNat > maxSequence
  · exact startEncoderRun_long s long ▸ respond _ rfl
  · have begun : (begunRun s).replies = s.replies := by
      rw [begunRun, appendBytes_frame]
      rfl
    rw [startEncoderRun_fits s long]
    split
    · exact respond _ (by rw [finishRun_frame, begun])
    · exact respond _ begun

theorem pushFileByte (b : Byte) (s : State) : AnswersZero s (pushFileByte b s) := by
  have pushed : (pushedRun b s).replies = s.replies := by rw [pushedRun, appendByte_frame]
  rw [pushFileByte_eq]
  split
  · exact respond _ (by rw [finishRun_frame, pushed])
  · exact respond _ pushed

theorem encoderCommand (legal : EncState → Bool) {body : State → State} (h : AnswersZero s (body s)) :
    AnswersZero s (encoderCommand legal body s) := by
  obtain ⟨-, hc⟩ | ⟨-, -, hc⟩ | ⟨-, -, hc⟩ := encoderCommand_cases legal body s
  · exact hc ▸ respond _ rfl
  · exact hc ▸ h
  · exact hc ▸ respond _ rfl

theorem beginImage (width height : Half) (s : State) : AnswersZero s (beginImage width height s) := by
  obtain ⟨-, hc⟩ | ⟨-, hc⟩ := beginImage_cases width height s
  · exact hc ▸ respond _ rfl
  · exact hc ▸ respond _ rfl

theorem completeImage (d : Decoder) (s : State) : AnswersZero s (completeImage d s) := by
  obtain ⟨-, hc⟩ | ⟨-, -, hc⟩ | ⟨-, -, hc⟩ := completeImage_cases d s
  · exact hc ▸ respond _ rfl
  · exact hc ▸ respond _ rfl
  · exact hc ▸ respond _ rfl

theorem deliverSample (b : Byte) (s : State) : AnswersZero s (deliverSample b s) := by
  by_cases more : s.dec.scnt.toNat + 1 < imageSamples s.params
  · exact deliverSample_open b s more ▸ respond _ rfl
  · exact deliverSample_complete b s more ▸ completeImage _ s

theorem finalizeRun (s : State) : AnswersZero s (finalizeRun s) := by
  obtain ⟨e, -, hc⟩ | ⟨size, file, -, hc⟩ := finalizeRun_cases s
  · exact hc ▸ respond _ rfl
  · exact hc ▸ respond _ rfl

theorem decoderCommand (legal : DecState → Bool) {body : State → State} (h : AnswersZero s (body s)) :
    AnswersZero s (decoderCommand legal body s) := by
  obtain ⟨-, hc⟩ | ⟨-, -, hc⟩ | ⟨-, -, hc⟩ := decoderCommand_cases legal body s
  · exact hc ▸ respond _ rfl
  · exact hc ▸ h
  · exact hc ▸ respond _ rfl

/-- Every command but `RD` answers read data 0 (R60). -/
theorem of_exec {i : Instr} (notRd : ∀ a, i ≠ .rd a) (h : exec i s = .next t) : AnswersZero s t := by
  cases i with
  | nop => cases h; exact respond _ rfl
  | rd a => exact absurd rfl (notRd a)
  | wr a v =>
    obtain ⟨-, regs, -, -, -, hw⟩ | ⟨-, -, hw⟩ := execWr_cases a v s
    · cases hw.symm.trans h; exact respond _ rfl
    · cases hw.symm.trans h; exact respond _ rfl
  | encStart => cases h; exact encoderCommand _ (startEncoderRun s)
  | encPush b => cases h; exact encoderCommand _ (pushFileByte b s)
  | encClear => cases h; exact respond _ rfl
  | decStart => cases h; exact decoderCommand _ (respond _ rfl)
  | decImgBegin width height => cases h; exact decoderCommand _ (beginImage width height s)
  | decSample b => cases h; exact decoderCommand _ (deliverSample b s)
  | decFinalize => cases h; exact decoderCommand _ (finalizeRun s)
  | decClear => cases h; exact respond _ rfl

end AnswersZero

/-- Every command leaves the pending events and the parameters (R53, R160). -/
theorem exec_inbox_params {i : Instr} {s t : State} (h : exec i s = .next t) :
    t.inbox = s.inbox ∧ t.params = s.params := by
  obtain he | hd | ⟨regs, r, w, rfl⟩ := exec_effect h
  · exact ⟨he.inbox, he.params⟩
  · exact ⟨hd.inbox, hd.params⟩
  · exact ⟨rfl, rfl⟩

/-- Settles O17: `RD` answers OK with its data or ILLEGAL with none, every other command read data 0. -/
theorem everyCommandRepliesOnce : Obligations.EveryCommandRepliesOnce := by
  intro i s t h
  suffices ∃ r : Reply, t.replies = s.replies ++ [r] ∧ (r.rdata ≠ 0 → r.resp = .ok ∧ ∃ a, i = .rd a) by
    obtain ⟨r, replies, data⟩ := this
    exact ⟨r, replies, data, exec_inbox_params h⟩
  by_cases isRd : ∃ a, i = .rd a
  · obtain ⟨a, rfl⟩ := isRd
    cases ha : regAt a with
    | none =>
      cases (execRd_unmapped a s ha).symm.trans h
      exact ⟨_, rfl, fun data => absurd rfl data⟩
    | some reg =>
      cases (execRd_mapped a reg s ha).symm.trans h
      exact ⟨_, rfl, fun _ => ⟨rfl, a, rfl⟩⟩
  · obtain ⟨r, replies⟩ := AnswersZero.of_exec (fun a hi => isRd ⟨a, hi⟩) h
    exact ⟨_, replies, fun data => absurd rfl data⟩

/-! ## Running a host's commands -/

/-- The event of a command is taken and the command executed (R53). -/
theorem step_instrEvent {s : State} {i : Instr} {rest : List HostEvent} (pending : s.inbox = instrEvent i :: rest) :
    step s = exec i { s with inbox := rest } :=
  stepRunsTheDecodedCommand s _ _ rest i pending (everyCommandDecodesFromItsEncoding i)

theorem run_succ {s t : State} (k : Nat) (h : step s = .next t) : core.run (k + 1) s = core.run k t := by
  have taken : core.step s = .next t := h
  simp only [Host.Core.run, taken]

/-- The step of a `WR` to a register that takes the value (R138). -/
theorem step_wr {s : State} {v : Word} {r : Reg} {rest : List HostEvent} {h : HostRegs}
    (pending : s.inbox = instrEvent (.wr (regAddress r) v) :: rest) (hw : writeReg s.host v r = some h) :
    step s = .next (respond .ok 0 { s with inbox := rest, host := h }) := by
  rw [step_instrEvent pending]
  simp [exec, execWr, hw]

theorem run_two_writes {s : State} {r₁ r₂ : Reg} {v₁ v₂ : Word} {h₁ h₂ : HostRegs}
    (pending : s.inbox = [instrEvent (.wr (regAddress r₁) v₁), instrEvent (.wr (regAddress r₂) v₂)])
    (w₁ : writeReg s.host v₁ r₁ = some h₁) (w₂ : writeReg h₁ v₂ r₂ = some h₂) :
    core.run 2 s = .next (respond .ok 0 (respond .ok 0 { s with inbox := [], host := h₂ })) :=
  calc core.run 2 s
      = core.run 1 (respond .ok 0 { s with inbox := [instrEvent (.wr (regAddress r₂) v₂)], host := h₁ }) :=
        run_succ 1 (step_wr pending w₁)
    _ = _ := run_succ 0 (step_wr rfl w₂)

/-- `WR64` on either pair is a write of the low half and then of the high half (R72). -/
theorem wr64_run {s : State} {x : RegPair} {v : Nat} {low high : HostRegs} (writable : pairWritable x = true)
    (hv : v < 2 ^ 64) (wlow : writeReg s.host (lowHalf (BitVec.ofNat 64 v)) (pairLow x) = some low)
    (whigh : writeReg low (highHalf (BitVec.ofNat 64 v)) (pairHigh x) = some high) :
    ∃ cmds t, assembleLine s.params (.wr64 x v) = some cmds ∧
      core.run cmds.length { s with inbox := cmds.map fun c => .command c.cmd c.wdata } = .next t ∧
      t.host = high ∧ t.replies = s.replies ++ [⟨.ok, 0⟩, ⟨.ok, 0⟩] := by
  have line : lineWellFormed s.params (.wr64 x v) = true := by
    simp only [lineWellFormed, writable, Bool.true_and, decide_eq_true hv]
  exact ⟨_, _, if_pos line, run_two_writes rfl wlow whigh, rfl, List.append_assoc _ _ _⟩

/-- Settles O16: the second write keeps the half the first one wrote. -/
theorem wr64WritesBothHalves : Obligations.Wr64WritesBothHalves := by
  intro s v hv
  have joined (old : DWord) :
      setHighHalf (setLowHalf old (lowHalf (BitVec.ofNat 64 v))) (highHalf (BitVec.ofNat 64 v)) = BitVec.ofNat 64 v := by
    simp [setHighHalf, setLowHalf]
  constructor
  · rw [← joined s.host.encIdReg]
    exact wr64_run rfl hv rfl rfl
  · rw [← joined s.host.encLenReg]
    exact wr64_run rfl hv rfl rfl

end Sys2Proof.Machine
end

section
/-! PROOFS. The bit codec's functions invert each other, and a bit list is packed group by group (R80 to R83). -/

namespace Sys2Proof.Machine

/-! ## The number a bit list spells -/

theorem natOfBits_concat (bits : List Bool) (b : Bool) : natOfBits (bits ++ [b]) = Nat.bit b (natOfBits bits) := by
  rw [Nat.bit_val]
  simp [natOfBits]

/-- The last bit of the list has weight 1, the bit before it weight 2, and so on. -/
theorem testBit_natOfBits (bits : List Bool) (j : Nat) : (natOfBits bits).testBit j = bits.reverse.getD j false := by
  induction bits using List.reverseRecOn generalizing j with
  | nil => simp [natOfBits]
  | append_singleton bits b ih =>
    rw [natOfBits_concat, List.reverse_concat]
    cases j with
    | zero => exact Nat.testBit_bit_zero b _
    | succ j => exact (Nat.testBit_bit_succ j b _).trans (ih j)

/-! ## One sample -/

theorem bitsToSample_of_length_eight {bits : List Bool} (h : bits.length = 8) :
    bitsToSample bits = some (BitVec.ofNat 8 (natOfBits bits)) := by
  simp [bitsToSample, h]

/-- `bitsToSample` is refused only for no bit or more than 8 (R81). -/
theorem bitsToSample_eq_getD {bits : List Bool} (pos : 1 ≤ bits.length) (le : bits.length ≤ 8) :
    bitsToSample bits = some ((bitsToSample bits).getD 0) := by
  rw [bitsToSample, if_pos ⟨pos, le⟩, Option.getD_some]

theorem sampleToBits_natOfBits {bits : List Bool} (h : bits.length = 8) :
    sampleToBits (BitVec.ofNat 8 (natOfBits bits)) = bits := by
  refine List.ext_getElem (by simp [h]) fun j hj hj' => Option.some.inj ?_
  rw [length_sampleToBits] at hj
  have weight : 7 - j < 8 := by omega
  have place : bits.length - 1 - (7 - j) = j := by omega
  rw [← List.getElem?_eq_getElem, getElem?_sampleToBits _ hj, BitVec.getLsbD_ofNat, testBit_natOfBits,
    List.getD_eq_getElem _ _ (by simpa [h] using weight), List.getElem_reverse]
  simp [weight, place]

theorem sampleToBits_injective {a b : Byte} (h : sampleToBits a = sampleToBits b) : a = b := by
  refine BitVec.eq_of_getLsbD_eq fun i hi => ?_
  have bit := congrArg (·[7 - i]?) h
  simpa [getElem?_sampleToBits _ (show 7 - i < 8 by omega), show 7 - (7 - i) = i by omega] using bit

@[simp] theorem bitsToSample_sampleToBits (b : Byte) : bitsToSample (sampleToBits b) = some b := by
  rw [bitsToSample_of_length_eight (length_sampleToBits b)]
  exact congrArg some (sampleToBits_injective (sampleToBits_natOfBits (length_sampleToBits b)))

/-! ## Groups of 8 bits -/

/-- No group below the count is empty (R83). -/
theorem bitsToSample_bitGroup (bits : List Bool) {g : Nat} (h : g < ceilDiv bits.length 8) :
    bitsToSample (bitGroup bits g) = some ((bitsToSample (bitGroup bits g)).getD 0) := by
  have bounds := ceilDiv_bounds bits.length 8 (by decide)
  have size : (bitGroup bits g).length = min 8 (bits.length - 8 * g) := by
    rw [bitGroup, List.length_take, List.length_drop]
  exact bitsToSample_eq_getD (by omega) (by omega)

/-- So `bitsToBytes` leaves no group out (R83). -/
theorem bitsToBytes_eq_map (bits : List Bool) :
    bitsToBytes bits =
      (List.range (ceilDiv bits.length 8)).map fun g => (bitsToSample (bitGroup bits g)).getD 0 :=
  List.filterMap_eq_map_iff_forall_eq_some.2 fun _ below => bitsToSample_bitGroup bits (List.mem_range.1 below)

@[simp] theorem length_bitsToBytes (bits : List Bool) : (bitsToBytes bits).length = ceilDiv bits.length 8 := by
  simp [bitsToBytes_eq_map]

/-- Byte `g` packs group `g` (R83). -/
theorem getElem?_bitsToBytes (bits : List Bool) {g : Nat} (h : g < ceilDiv bits.length 8) :
    (bitsToBytes bits)[g]? = bitsToSample (bitGroup bits g) := by
  rw [bitsToBytes_eq_map, List.getElem?_map, List.getElem?_range h, Option.map_some, ← bitsToSample_bitGroup bits h]

theorem bitsToBytes_sampleToBits_append (b : Byte) (bits : List Bool) :
    bitsToBytes (sampleToBits b ++ bits) = b :: bitsToBytes bits := by
  have count : ceilDiv (sampleToBits b ++ bits).length 8 = ceilDiv bits.length 8 + 1 := by
    simp only [ceilDiv, List.length_append, length_sampleToBits]
    omega
  have head : bitGroup (sampleToBits b ++ bits) 0 = sampleToBits b :=
    List.take_left' (length_sampleToBits b)
  have others (g : Nat) : bitGroup (sampleToBits b ++ bits) (g + 1) = bitGroup bits g := by
    have skip : 8 * (g + 1) = (sampleToBits b).length + 8 * g := by rw [length_sampleToBits]; omega
    rw [bitGroup, skip, List.drop_length_add_append, bitGroup]
  rw [bitsToBytes, count, List.range_succ_eq_map, List.filterMap_cons, List.filterMap_map, head, bitsToBytes]
  simp [others]

theorem bitsToBytes_bytesToBits (bs : List Byte) : bitsToBytes (bytesToBits bs) = bs := by
  induction bs with
  | nil => rfl
  | cons b bs ih => rw [bytesToBits_cons, bitsToBytes_sampleToBits_append, ih]

/-- Settles O47: the bytes one after another by induction, one sample by the weights of its bits, and the packing by
its groups, none of which is empty. -/
theorem bitCodecRoundTrips : Obligations.BitCodecRoundTrips := by
  refine ⟨bitsToBytes_bytesToBits, fun bits h => ?_, fun bits => ⟨length_bitsToBytes bits, fun g h => ?_⟩⟩
  · rw [bitsToSample_of_length_eight h, Option.map_some, sampleToBits_natOfBits h]
  · exact getElem?_bitsToBytes bits h

end Sys2Proof.Machine
end

section
/-! PROOFS. How many images a file takes, and what the reference encoder's images hold together (R87 to R91, R96,
R97). -/

namespace Sys2Proof.Machine

/-! ## The image count -/

/-- A payload is a whole number of bytes (R7). -/
theorem bitsPerImage_eq (p : Params) : bitsPerImage p = 8 * chunkBytes p := by
  simp only [bitsPerImage, imageCapacityBits, chunkBytes, headerBytes]
  omega

/-- The images' payloads hold the framed stream, and fewer images would not (R87). -/
theorem totalImages_bounds {p : Params} (legal : p.Legal) (len : Nat) :
    8 + len ≤ totalImages p len * chunkBytes p ∧ totalImages p len * chunkBytes p < 8 + len + chunkBytes p :=
  ceilDiv_bounds _ _ (chunkBytes_pos legal)

theorem totalImages_pos {p : Params} (legal : p.Legal) (len : Nat) : 0 < totalImages p len := by
  have holds := (totalImages_bounds legal len).1
  exact Nat.pos_of_ne_zero fun none => by simp [none] at holds

theorem totalImages_eq_ceilDiv_bits {p : Params} (legal : p.Legal) (len : Nat) :
    totalImages p len = ceilDiv (64 + 8 * len) (bitsPerImage p) := by
  have pos := chunkBytes_pos legal
  have bounds := totalImages_bounds legal len
  have bits : totalImages p len * (8 * chunkBytes p) = 8 * (totalImages p len * chunkBytes p) := Nat.mul_left_comm _ _ _
  rw [bitsPerImage_eq]
  exact (ceilDiv_unique _ _ _ (by omega) (by omega) (by omega)).symm

theorem thirteen_le_chunkBytes {p : Params} (h : 5 ≤ p.n) : 13 ≤ chunkBytes p := by
  have : 5 * 5 ≤ p.n * p.n := Nat.mul_le_mul h h
  simp only [chunkBytes, imageSamples, headerBytes]
  omega

/-- The empty file's 8 size bytes take 2 images of the least size and 1 of any other (R87). -/
theorem totalImages_zero {p : Params} (legal : p.Legal) : totalImages p 0 = if p.n = 4 then 2 else 1 := by
  split
  next least => simp [totalImages, ceilDiv, chunkBytes, imageSamples, headerBytes, least]
  next larger =>
    have room := thirteen_le_chunkBytes (p := p) (by omega)
    exact ceilDiv_unique _ _ 1 (by omega) (by omega) (by omega)

/-- Settles O50: both forms are the least count that holds the stream. -/
theorem totalImagesFormsAgree : Obligations.TotalImagesFormsAgree := by
  intro p len legal
  obtain ⟨holds, least⟩ := totalImages_bounds legal len
  refine ⟨totalImages_eq_ceilDiv_bits legal len, totalImages_pos legal len, holds, ?_, totalImages_zero legal⟩
  have pos := chunkBytes_pos legal
  rw [Nat.sub_one_mul]
  omega

/-! ## The chunks of a stream, one after another -/

/-- Chunk `n + 1` begins after `n` chunks and is filled up with zeros past the end of the stream (R88). -/
theorem chunk_succ (p : Params) (f : List Byte) (n : Nat) :
    chunk p f (n + 1) =
      (f.drop (n * chunkBytes p)).take (chunkBytes p) ++
        zeroBytes (chunkBytes p - (f.length - n * chunkBytes p)) := by
  have fill : chunkBytes p - min (chunkBytes p) (f.length - n * chunkBytes p) =
      chunkBytes p - (f.length - n * chunkBytes p) := by omega
  rw [chunk, Nat.add_sub_cancel, List.length_take, List.length_drop, fill]

/-- The first `n` chunks together are the first `n * P` bytes of the stream, filled up with zeros (R88). -/
theorem flatMap_chunk (p : Params) (f : List Byte) (n : Nat) :
    (rangeFromOne n).flatMap (chunk p f) = f.take (n * chunkBytes p) ++ zeroBytes (n * chunkBytes p - f.length) := by
  induction n with
  | zero => simp [rangeFromOne, zeroBytes]
  | succ n ih =>
    rw [rangeFromOne_succ, List.flatMap_append, ih, List.flatMap_singleton, chunk_succ, Nat.succ_mul, List.take_add]
    rcases Nat.le_total (n * chunkBytes p) f.length with inside | past
    · have fill : n * chunkBytes p + chunkBytes p - f.length = chunkBytes p - (f.length - n * chunkBytes p) := by omega
      simp [fill, Nat.sub_eq_zero_of_le inside, zeroBytes]
    · have fill : n * chunkBytes p + chunkBytes p - f.length = (n * chunkBytes p - f.length) + chunkBytes p := by omega
      simp [fill, Nat.sub_eq_zero_of_le past, List.drop_of_length_le past, zeroBytes]

/-- The chunks of a file's images together are its framed stream, filled up with zeros (R97). -/
theorem flatMap_chunk_frame {p : Params} (legal : p.Legal) (file : List Byte) :
    (rangeFromOne (totalImages p file.length)).flatMap (chunk p (frame file)) =
      frame file ++ zeroBytes (totalImages p file.length * chunkBytes p - (8 + file.length)) := by
  rw [flatMap_chunk, length_frame, List.take_of_length_le (length_frame file ▸ (totalImages_bounds legal _).1)]

/-! ## The reference encoder's images -/

/-- What `encodeImages` gives, when it gives images (R91). -/
theorem encodeImages_eq_ok {p : Params} {id : DWord} {file : List Byte} {images : List Image} :
    encodeImages p id file = .ok images ↔
      totalImages p file.length ≤ maxSequence ∧
        images = (rangeFromOne (totalImages p file.length)).map fun i =>
          image id (BitVec.ofNat 32 i) (chunk p (frame file) i) := by
  rw [encodeImages]
  split
  next long => exact iff_of_false nofun fun h => absurd h.1 (Nat.not_le.2 long)
  next fits => simp [Nat.not_lt.1 fits, eq_comm]

/-- A sequence number the encoder writes fits its 32 bits (R91, R99). -/
theorem toNat_ofNat_sequence {i : Nat} (h : i ≤ maxSequence) : (BitVec.ofNat 32 i).toNat = i :=
  Nat.mod_eq_of_lt (Nat.lt_of_le_of_lt h (by decide))

@[simp] theorem getElem_rangeFromOne (k j : Nat) (h : j < (rangeFromOne k).length) : (rangeFromOne k)[j] = j + 1 := by
  simp [rangeFromOne]

/-- Settles O54: the images are those of the numbers 1 to the count, and their chunks together fill up the stream. -/
theorem encodedImagesAreNumberedAndFull : Obligations.EncodedImagesAreNumberedAndFull := by
  intro p id file images legal encoded
  obtain ⟨fits, rfl⟩ := encodeImages_eq_ok.1 encoded
  refine ⟨?_, fun k img h => ?_, ?_⟩
  · rw [List.length_map, length_rangeFromOne, totalImages_eq_ceilDiv_bits legal]
  · obtain ⟨below, rfl⟩ := List.getElem?_eq_some_iff.1 h
    have numbered : k < totalImages p file.length := by simpa using below
    rw [List.getElem_map, getElem_rangeFromOne, parseImage_image]
    exact ⟨length_image_chunk p legal id _ _ _, rfl, toNat_ofNat_sequence (Nat.le_trans numbered fits)⟩
  · simp only [List.flatMap_map, parseImage_image, List.length_map, length_rangeFromOne]
    exact flatMap_chunk_frame legal file

end Sys2Proof.Machine
end

section
/-! PROOFS. The reassembler: what its sequence check means, that it does not see the order of its pairs, and that it
gives back the file the reference encoder was given (R93 to R95, R98). -/

namespace Sys2Proof.Machine

/-! ## Sequence integrity -/

/-- The check passes exactly when the numbers are 1 to `K` in some order (R93). -/
theorem seqIntegrity_iff_perm {seqs : List Word} :
    seqIntegrity seqs = true ↔ (seqs.map BitVec.toNat).Perm (rangeFromOne seqs.length) := by
  rw [seqIntegrity, beq_iff_eq, sortAscending_eq_rangeFromOne]

theorem nodup_of_seqIntegrity {seqs : List Word} (h : seqIntegrity seqs = true) : seqs.Nodup :=
  ((seqIntegrity_iff_perm.1 h).nodup_iff.2 (rangeFromOne_nodup _)).of_map

theorem seqIntegrity_congr {seqs seqs' : List Word} (h : seqs.Perm seqs') : seqIntegrity seqs = seqIntegrity seqs' := by
  rw [Bool.eq_iff_iff, seqIntegrity_iff_perm, seqIntegrity_iff_perm, h.length_eq, (h.map BitVec.toNat).congr_left]

/-- Settles O52: lists without repeats are permutations of each other when they have the same members. -/
theorem sequenceIntegrityMeansDenseAndUnique : Obligations.SequenceIntegrityMeansDenseAndUnique := by
  intro seqs
  have members (j : Nat) : (j ∈ seqs.map BitVec.toNat ↔ j ∈ rangeFromOne seqs.length) ↔
      ((∃ q ∈ seqs, q.toNat = j) ↔ 1 ≤ j ∧ j ≤ seqs.length) := by
    rw [List.mem_map, mem_rangeFromOne]
  constructor
  · intro h
    exact ⟨nodup_of_seqIntegrity h, fun j => (members j).1 (seqIntegrity_iff_perm.1 h).mem_iff⟩
  · rintro ⟨unique, dense⟩
    have unique' : (seqs.map BitVec.toNat).Nodup := unique.map fun _ _ => BitVec.eq_of_toNat_eq
    exact seqIntegrity_iff_perm.2
      ((List.perm_ext_iff_of_nodup unique' (rangeFromOne_nodup _)).2 fun j => (members j).2 (dense j))

/-! ## The chunk of a number -/

/-- Without repeats, a pair of the list is the one its number finds (R94). -/
theorem chunkNumbered_of_mem {pairs : List (Word × List Byte)} (unique : (pairs.map Prod.fst).Nodup) {seq : Word}
    {c : List Byte} (mem : (seq, c) ∈ pairs) : chunkNumbered pairs seq.toNat = c := by
  cases found : pairs.find? fun sc => sc.1.toNat == seq.toNat with
  | none => exact absurd (List.find?_eq_none.1 found _ mem) (by simp)
  | some sc =>
    have number : sc.1 = seq := BitVec.eq_of_toNat_eq (by simpa using List.find?_some found)
    have same : sc = (seq, c) := List.inj_on_of_nodup_map unique (List.mem_of_find?_eq_some found) mem number
    rw [chunkNumbered, found, same]

theorem chunkNumbered_eq_nil {pairs : List (Word × List Byte)} {j : Nat} (absent : ∀ sc ∈ pairs, sc.1.toNat ≠ j) :
    chunkNumbered pairs j = [] := by
  have notFound : (pairs.find? fun sc => sc.1.toNat == j) = none := by simpa using absent
  rw [chunkNumbered, notFound]

/-- Without repeats, the chunk of a number does not depend on the order of the pairs (R98). -/
theorem chunkNumbered_congr {pairs pairs' : List (Word × List Byte)} (perm : pairs.Perm pairs')
    (unique : (pairs.map Prod.fst).Nodup) : chunkNumbered pairs = chunkNumbered pairs' := by
  funext j
  by_cases present : ∃ sc ∈ pairs, sc.1.toNat = j
  · obtain ⟨⟨seq, c⟩, mem, rfl⟩ := present
    have unique' := (perm.map Prod.fst).nodup_iff.1 unique
    exact (chunkNumbered_of_mem unique mem).trans (chunkNumbered_of_mem unique' (perm.mem_iff.1 mem)).symm
  · have absent : ∀ sc ∈ pairs, sc.1.toNat ≠ j := fun sc mem found => present ⟨sc, mem, found⟩
    have absent' : ∀ sc ∈ pairs', sc.1.toNat ≠ j := fun sc mem => absent sc (perm.mem_iff.2 mem)
    rw [chunkNumbered_eq_nil absent, chunkNumbered_eq_nil absent']

/-! ## Order independence -/

/-- Settles O55: without integrity both orders give the same error, with it the numbers are without repeats and find
the same chunks. -/
theorem decodeIgnoresTheOrderOfImages : Obligations.DecodeIgnoresTheOrderOfImages := by
  intro pairs pairs' perm
  have integrity := seqIntegrity_congr (perm.map Prod.fst)
  rw [decodeImages, decodeImages, perm.length_eq, integrity]
  split
  · rfl
  · split
    · rfl
    next sound =>
      rw [chunkNumbered_congr perm (nodup_of_seqIntegrity (integrity.trans (by simpa using sound)))]

/-! ## The round trip -/

/-- Unframing gives back the file and whatever was appended to the frame (R84, R85). -/
theorem unframe_frame_append (file pad : List Byte) (h : file.length < 2 ^ 64) :
    unframe (frame file ++ pad) = .ok (BitVec.ofNat 64 file.length, file ++ pad) := by
  have size : (frame file ++ pad).take 8 = beBytes 8 file.length := by simp [frame]
  have payload : (frame file ++ pad).drop 8 = file ++ pad := by simp [frame]
  have long : ¬ (frame file ++ pad).length < 8 := by
    rw [List.length_append, length_frame]
    omega
  rw [unframe, if_neg long, size, payload, fromBe_beBytes h]

/-- Truncating at the file's length discards whatever was appended to it (R86). -/
theorem truncate_append (file pad : List Byte) (h : file.length < 2 ^ 64) :
    truncate (file ++ pad) (BitVec.ofNat 64 file.length) = .ok file := by
  have size : (BitVec.ofNat 64 file.length).toNat = file.length := Nat.mod_eq_of_lt h
  simp [truncate, size]

/-- A file the encoder accepts has a length of 64 bits (R84, R99). -/
theorem length_lt_of_fits {p : Params} (legal : p.Legal) {len : Nat} (fits : totalImages p len ≤ maxSequence) :
    len < 2 ^ 64 := by
  have holds := (totalImages_bounds legal len).1
  have small : chunkBytes p < 2 ^ 32 := by
    have := imageSamples_eq p legal
    have := imageSamples_lt p legal
    omega
  have bound : totalImages p len * chunkBytes p ≤ maxSequence * 2 ^ 32 := Nat.mul_le_mul fits small.le
  rw [maxSequence] at bound
  omega

/-- What `decodeImages` gives once the pairs are complete and the size can be read (R94). -/
theorem decodeImages_of_seqIntegrity {pairs : List (Word × List Byte)} {size : DWord} {payload : List Byte}
    (nonempty : pairs.length ≠ 0) (sound : seqIntegrity (pairs.map Prod.fst) = true)
    (unframed : unframe ((rangeFromOne pairs.length).flatMap (chunkNumbered pairs)) = .ok (size, payload)) :
    decodeImages pairs = truncate payload size := by
  rw [decodeImages, if_neg nonempty, if_neg (by simp [sound]), unframed]

/-- The pairs the reference encoder's images of a file parse to (R91, R92). -/
def encodedPairs (p : Params) (file : List Byte) : List (Word × List Byte) :=
  (rangeFromOne (totalImages p file.length)).map fun i => (BitVec.ofNat 32 i, chunk p (frame file) i)

theorem pairs_of_encodeImages {p : Params} {id : DWord} {file : List Byte} {images : List Image}
    (encoded : encodeImages p id file = .ok images) :
    images.map (fun img => (parseImage img).2) = encodedPairs p file := by
  obtain ⟨-, rfl⟩ := encodeImages_eq_ok.1 encoded
  simp [encodedPairs]

@[simp] theorem length_encodedPairs (p : Params) (file : List Byte) :
    (encodedPairs p file).length = totalImages p file.length := by simp [encodedPairs]

/-- The pairs are numbered 1 to the count, which fits 32 bits (R91, R93). -/
theorem seqIntegrity_encodedPairs {p : Params} {file : List Byte} (fits : totalImages p file.length ≤ maxSequence) :
    seqIntegrity ((encodedPairs p file).map Prod.fst) = true := by
  have numbers : ((encodedPairs p file).map Prod.fst).map BitVec.toNat = rangeFromOne (totalImages p file.length) := by
    rw [encodedPairs, List.map_map, List.map_map]
    exact (List.map_congr_left fun i mem => toNat_ofNat_sequence (((mem_rangeFromOne _ i).1 mem).2.trans fits)).trans
      (List.map_id _)
  rw [seqIntegrity_iff_perm, numbers, List.length_map, length_encodedPairs]

/-- Each number finds the chunk the encoder wrote under it (R91, R94). -/
theorem chunkNumbered_encodedPairs {p : Params} {file : List Byte} (fits : totalImages p file.length ≤ maxSequence)
    {i : Nat} (mem : i ∈ rangeFromOne (totalImages p file.length)) :
    chunkNumbered (encodedPairs p file) i = chunk p (frame file) i := by
  have found := chunkNumbered_of_mem (nodup_of_seqIntegrity (seqIntegrity_encodedPairs fits)) (List.mem_map_of_mem mem)
  rwa [toNat_ofNat_sequence (((mem_rangeFromOne _ i).1 mem).2.trans fits)] at found

/-- Settles O53: the pairs pass the sequence check, their chunks in order are the framed file and zeros, and reading the
size and truncating undo the framing and the filling. -/
theorem decodeInvertsEncode : Obligations.DecodeInvertsEncode := by
  intro p id file images legal encoded
  have fits := (encodeImages_eq_ok.1 encoded).1
  have small := length_lt_of_fits legal fits
  have stream : (rangeFromOne (encodedPairs p file).length).flatMap (chunkNumbered (encodedPairs p file)) =
      frame file ++ zeroBytes (totalImages p file.length * chunkBytes p - (8 + file.length)) := by
    rw [length_encodedPairs, List.flatMap_congr fun i => chunkNumbered_encodedPairs fits, flatMap_chunk_frame legal]
  have nonempty : (encodedPairs p file).length ≠ 0 := by
    rw [length_encodedPairs]
    exact (totalImages_pos legal _).ne'
  rw [pairs_of_encodeImages encoded, decodeImages_of_seqIntegrity nonempty (seqIntegrity_encodedPairs fits)
    (stream ▸ unframe_frame_append file _ small), truncate_append file _ small]

end Sys2Proof.Machine
end

section
/-! PROOFS. What each command of the encoder does: the legality table, error entry, the size bytes and one byte of the
file (R100 to R105). -/

namespace Sys2Proof.Machine

/-! ## The legality table -/

theorem encStartLegal_iff {st : EncState} : encStartLegal st = true ↔ st = .idle ∨ st = .done := by
  cases st <;> decide

theorem encoderCommand_legal {legal : EncState → Bool} (body : State → State) {s : State}
    (noError : s.enc.state ≠ .error) (h : legal s.enc.state = true) : encoderCommand legal body s = body s :=
  (if_neg noError).trans (if_pos h)

theorem encoderCommand_illegal {legal : EncState → Bool} (body : State → State) {s : State}
    (noError : s.enc.state ≠ .error) (h : legal s.enc.state = false) :
    encoderCommand legal body s = raiseEnc .protocolError s :=
  (if_neg noError).trans (if_neg (ne_true_of_eq_false h))

/-- `ENC_START` executes in IDLE and DONE (R102). -/
theorem exec_encStart {s : State} (h : s.enc.state = .idle ∨ s.enc.state = .done) :
    exec .encStart s = .next (startEncoderRun s) := by
  have noError : s.enc.state ≠ .error := by rintro error; simp [error] at h
  exact congrArg _ (encoderCommand_legal startEncoderRun noError (encStartLegal_iff.2 h))

/-- `ENC_PUSH` executes in RUN (R102). -/
theorem exec_encPush {s : State} (b : Byte) (run : s.enc.state = .run) :
    exec (.encPush b) s = .next (pushFileByte b s) :=
  congrArg _ (encoderCommand_legal (pushFileByte b) (by simp [run]) (encPushLegal_iff.2 run))

theorem exec_encStart_error {s : State} (error : s.enc.state = .error) :
    exec .encStart s = .next (engineInError s) := congrArg _ (if_pos error)

theorem idle_or_done {st : EncState} (notRun : st ≠ .run) (notError : st ≠ .error) : st = .idle ∨ st = .done := by
  cases st with
  | idle => exact .inl rfl
  | done => exact .inr rfl
  | run => exact absurd rfl notRun
  | error => exact absurd rfl notError

/-- Settles O25: the two commands in the states their legality tests exclude. -/
theorem encoderProtocolErrors : Obligations.EncoderProtocolErrors := by
  refine fun s b => ⟨fun run => ?_, fun h => ?_⟩
  · exact congrArg _ (encoderCommand_illegal startEncoderRun (by simp [run]) (by rw [run]; rfl))
  · obtain idle | done := h
    · exact congrArg _ (encoderCommand_illegal (pushFileByte b) (by simp [idle]) (by rw [idle]; rfl))
    · exact congrArg _ (encoderCommand_illegal (pushFileByte b) (by simp [done]) (by rw [done]; rfl))

/-- Settles O27: the number of images is judged before anything is latched. -/
theorem encStartRefusesTooLongFiles : Obligations.EncStartRefusesTooLongFiles := by
  intro s h p long
  rw [exec_encStart h, startEncoderRun_long s long]
  rfl

/-- Settles O31: the cleared encoder and the reply, written out. -/
theorem encClearResetsTheEncoder : Obligations.EncClearResetsTheEncoder := fun _ => rfl

/-! ## The runs within a command -/

@[simp] theorem begunRun_params (s : State) : (begunRun s).params = s.params := by
  rw [begunRun, appendBytes_frame]
  rfl

@[simp] theorem begunRun_replies (s : State) : (begunRun s).replies = s.replies := by
  rw [begunRun, appendBytes_frame]
  rfl

@[simp] theorem begunRun_id (s : State) : (begunRun s).enc.id = s.host.encIdReg := by
  rw [begunRun, appendBytes_frame]
  rfl

@[simp] theorem begunRun_state (s : State) : (begunRun s).enc.state = .run := by
  rw [begunRun, appendBytes_frame]
  rfl

@[simp] theorem pushedRun_params (b : Byte) (s : State) : (pushedRun b s).params = s.params := by
  rw [pushedRun, appendByte_frame]

@[simp] theorem pushedRun_replies (b : Byte) (s : State) : (pushedRun b s).replies = s.replies := by
  rw [pushedRun, appendByte_frame]

@[simp] theorem pushedRun_id (b : Byte) (s : State) : (pushedRun b s).enc.id = s.enc.id := by
  rw [pushedRun, appendByte_frame]

@[simp] theorem pushedRun_state (b : Byte) (s : State) : (pushedRun b s).enc.state = s.enc.state := by
  rw [pushedRun, appendByte_frame]

@[simp] theorem finishRun_replies (s : State) : (finishRun s).replies = s.replies := by rw [finishRun_frame]

@[simp] theorem finishRun_len (s : State) : (finishRun s).enc.len = s.enc.len := by rw [finishRun_frame]

@[simp] theorem finishRun_state (s : State) : (finishRun s).enc.state = .done := by rw [finishRun_frame]

/-- `ENC_START`'s run has consumed the size bytes (R103). -/
theorem begunRun_consumed {s : State} (legal : s.params.Legal) :
    Consumed s.encOut (beBytes 8 s.host.encLenReg.toNat) (begunRun s) := prefix_consumed s legal

/-- The run of `ENC_PUSH` has consumed its byte too (R104). -/
theorem pushedRun_consumed {before : List Image} {f : List Byte} {s : State} (h : Consumed before f s) (b : Byte)
    (fits : s.enc.emitted.toNat + 1 < 2 ^ 32) : Consumed before (f ++ [b]) (pushedRun b s) := by
  obtain ⟨fill_lt, count, pending, out⟩ := h
  exact appendByte_consumed before f { s with enc := { s.enc with rem := s.enc.rem - 1 } } b
    ⟨fill_lt, count, pending, out⟩ fits

/-! ## The size bytes -/

/-- Bytes that just fill the chunk are emitted as its image (R100). -/
theorem appendBytes_full {bs : List Byte} (s : State) (nonempty : bs ≠ [])
    (h : s.enc.buf.length + bs.length = chunkBytes s.params) :
    bs.foldl appendByte s = emitChunk (s.enc.buf ++ bs) s := by
  obtain ⟨init, b, rfl⟩ := List.eq_nil_or_concat bs |>.resolve_left nonempty
  rw [List.concat_eq_append, List.length_append, List.length_singleton] at h
  rw [List.concat_eq_append, List.foldl_append, appendBytes_open init s (by omega), List.foldl_cons, List.foldl_nil,
    appendByte_full _ b (by simpa using by omega)]
  simp [emitChunk, emitImage]

/-- With `N = 4` the size bytes fill, and emit, the first two chunks (R103, R106). -/
theorem begunRun_least {s : State} (four : chunkBytes s.params = 4) :
    begunRun s =
      { latchEncoderRun s with
        enc := { (latchEncoderRun s).enc with emitted := 2 }
        encOut := s.encOut ++
          [image s.host.encIdReg 1 ((beBytes 8 s.host.encLenReg.toNat).take 4),
           image s.host.encIdReg 2 ((beBytes 8 s.host.encLenReg.toNat).drop 4)] } := by
  have halves := List.take_append_drop 4 (beBytes 8 s.host.encLenReg.toNat)
  have takeLength : ((beBytes 8 s.host.encLenReg.toNat).take 4).length = 4 := by simp
  have dropLength : ((beBytes 8 s.host.encLenReg.toNat).drop 4).length = 4 := by simp
  rw [begunRun]
  conv_lhs => rw [← halves]
  rw [List.foldl_append,
    appendBytes_full _ (List.ne_nil_of_length_eq_add_one takeLength) (by simp [latchEncoderRun, four]),
    appendBytes_full _ (List.ne_nil_of_length_eq_add_one dropLength) (by simp [latchEncoderRun, emitChunk, four])]
  simp [emitChunk, emitImage, latchEncoderRun]

/-- With a larger `N` the size bytes wait in the buffer (R103, R106). -/
theorem begunRun_larger {s : State} (more : 8 < chunkBytes s.params) :
    begunRun s =
      { latchEncoderRun s with enc := { (latchEncoderRun s).enc with buf := beBytes 8 s.host.encLenReg.toNat } } :=
  appendBytes_open _ (latchEncoderRun s) (by simpa [latchEncoderRun] using more)

theorem chunkBytes_of_least {p : Params} (least : p.n = 4) : chunkBytes p = 4 := by
  simp [chunkBytes, imageSamples, headerBytes, least]

theorem chunkBytes_of_larger {p : Params} (legal : p.Legal) (larger : p.n ≠ 4) : 8 < chunkBytes p := by
  have room := thirteen_le_chunkBytes (p := p) (by omega)
  omega

/-- Settles O28: the size bytes by whether a chunk holds them, and a run that is not finished, as bytes are to come. -/
theorem encStartLatchesAndAppendsThePrefix : Obligations.EncStartLatchesAndAppendsThePrefix := by
  intro s legal h nonempty p total bytes run fits
  rw [exec_encStart h, startEncoderRun_fits s (Nat.not_lt.2 fits), if_neg nonempty]
  refine ⟨fun least => ?_, fun larger => ?_⟩
  · rw [begunRun_least (chunkBytes_of_least least)]
    rfl
  · rw [begunRun_larger (chunkBytes_of_larger legal larger)]
    rfl

theorem beBytes_zero (n : Nat) : beBytes n 0 = zeroBytes n := by
  simp [beBytes, zeroBytes]

/-- Settles O29: the size bytes as in O28, all of them 0, and a run that is finished at once: with no byte pending for
`N = 4`, with 8 bytes to be padded for a larger `N`. -/
theorem encStartOfTheEmptyFileCompletes : Obligations.EncStartOfTheEmptyFileCompletes := by
  intro s legal h empty id closed
  have count := totalImages_zero legal
  have len : s.host.encLenReg.toNat = 0 := congrArg BitVec.toNat empty
  have fits : ¬ totalImages s.params s.host.encLenReg.toNat > maxSequence := by
    rw [len, count]
    split <;> decide
  have latched : latchEncoderRun s = { s with enc :=
      ⟨.run, .noError, s.host.encIdReg, 0, 0, BitVec.ofNat 32 (totalImages s.params 0), 0, []⟩ } := by
    rw [latchEncoderRun, len, empty]
  rw [exec_encStart h, startEncoderRun_fits s fits, if_pos empty]
  refine ⟨fun least => ?_, fun larger => ?_⟩
  · rw [begunRun_least (chunkBytes_of_least least), finishRun_empty _ (by rw [latched]), latched, len, count,
      if_pos least]
    rfl
  · have more := chunkBytes_of_larger legal larger
    have padded : zeroBytes 8 ++ zeroBytes (chunkBytes s.params - 8) = zeroBytes (chunkBytes s.params) := by
      rw [zeroBytes, zeroBytes, List.replicate_append_replicate, Nat.add_sub_cancel' more.le, zeroBytes]
    rw [begunRun_larger more, len, beBytes_zero, latched, count, if_neg larger, finishRun_pending _ (by simp),
      length_zeroBytes, padded]
    rfl

/-! ## One byte of the file -/

/-- The byte that fills the chunk is emitted with it (R100). -/
theorem pushedRun_full {s : State} (b : Byte) (full : s.enc.buf.length + 1 = chunkBytes s.params) :
    pushedRun b s = emitChunk (s.enc.buf ++ [b]) { s with enc := { s.enc with rem := s.enc.rem - 1 } } :=
  appendByte_full { s with enc := { s.enc with rem := s.enc.rem - 1 } } b full

/-- A byte that does not fill the chunk is buffered (R100). -/
theorem pushedRun_open {s : State} (b : Byte) (more : s.enc.buf.length + 1 ≠ chunkBytes s.params) :
    pushedRun b s = { s with enc := { s.enc with rem := s.enc.rem - 1, buf := s.enc.buf ++ [b] } } :=
  appendByte_open { s with enc := { s.enc with rem := s.enc.rem - 1 } } b more

/-- Settles O30: the byte fills the chunk or not, and is the last or not. -/
theorem encPushPacksTheByte : Obligations.EncPushPacksTheByte := by
  intro s b run p e
  have last : e.rem - 1 = 0 ↔ e.rem = 1 := sub_eq_zero
  rw [exec_encPush b run, pushFileByte_eq]
  refine ⟨fun more pending => ?_, fun full => ?_, fun more one => ?_⟩
  · rw [if_neg (mt last.1 pending), pushedRun_open b more]
    rfl
  · rw [pushedRun_full b full]
    split
    next zero =>
      rw [finishRun_empty _ rfl, if_pos (last.1 zero)]
      rfl
    next pending =>
      rw [if_neg (mt last.2 pending), ← run]
      rfl
  · have zero := last.2 one
    rw [if_pos zero, pushedRun_open b more.ne, finishRun_pending _ (by simp), zero, List.length_append]
    rfl

end Sys2Proof.Machine
end

section
/-! PROOFS. Running a host's events of which only the commands of one kind matter (R53, R107, R128). -/

namespace Sys2Proof.Machine

/-! ## Replies in the places of their events -/

theorem repliedOk_nil (kind : Instr → Bool) (replies : List Reply) : repliedOk kind [] replies := nofun

theorem repliedOk_cons {kind : Instr → Bool} {ev : HostEvent} {evs : List HostEvent} {r : Reply} {replies : List Reply}
    (head : ∀ i, eventInstr ev = some i → kind i = true → r = ⟨.ok, 0⟩) (tail : repliedOk kind evs replies) :
    repliedOk kind (ev :: evs) (r :: replies) := by
  intro k e i at_k decoded own
  cases k with
  | zero =>
    obtain rfl := Option.some.inj at_k
    exact congrArg some (head i decoded own)
  | succ k => exact tail k e i at_k decoded own

/-! ## One event, and all of them -/

/-- `inv cmds s` says what holds while `cmds` are the commands of a kind still to come: every other event keeps it, and
each of those commands answers OK and leaves the rest of them to come. -/
structure RunInvariant (kind : Instr → Bool) (inv : List Instr → State → Prop) : Prop where
  inbox {cmds : List Instr} {s : State} (h : inv cmds s) (evs : List HostEvent) : inv cmds { s with inbox := evs }
  illegal {cmds : List Instr} {s : State} (h : inv cmds s) : inv cmds (illegal s)
  other {cmds : List Instr} {i : Instr} {s t : State} (h : inv cmds s) (other : kind i = false)
    (hx : exec i s = .next t) : inv cmds t
  own {cmds : List Instr} {i : Instr} {s t : State} (h : inv (i :: cmds) s) (own : kind i = true)
    (hx : exec i s = .next t) : inv cmds t ∧ t.replies = s.replies ++ [⟨.ok, 0⟩]

namespace RunInvariant

variable {kind : Instr → Bool} {inv : List Instr → State → Prop} {evs rest : List HostEvent} {s : State}

/-- One event is taken and answered by one reply (R53, R61). -/
theorem step (h : RunInvariant kind inv) {ev : HostEvent} (notReset : ev ≠ .reset) (pending : s.inbox = ev :: rest)
    (holds : inv (((ev :: evs).filterMap eventInstr).filter kind) s) :
    ∃ t r, step s = .next t ∧ t.inbox = rest ∧ inv ((evs.filterMap eventInstr).filter kind) t ∧
      t.replies = s.replies ++ [r] ∧ ∀ i, eventInstr ev = some i → kind i = true → r = ⟨.ok, 0⟩ := by
  have taken := h.inbox holds rest
  cases ev with
  | reset => exact absurd rfl notReset
  | command cmd wdata =>
    cases decoded : decode cmd wdata with
    | error why =>
      have spells : eventInstr (.command cmd wdata) = none := by simp only [eventInstr, decoded]
      rw [List.filterMap_cons_none spells] at taken
      exact ⟨_, _, step_of_decode_error pending decoded, rfl, h.illegal taken, rfl, by simp [spells]⟩
    | ok i =>
      have spells : eventInstr (.command cmd wdata) = some i := by simp only [eventInstr, decoded]
      rw [List.filterMap_cons_some spells, List.filter_cons] at taken
      obtain ⟨t, hx⟩ := exec_total i { s with inbox := rest }
      obtain ⟨r, replies, -, inbox, -⟩ := everyCommandRepliesOnce i _ t hx
      have hs := (stepRunsTheDecodedCommand s cmd wdata rest i pending decoded).trans hx
      cases isOwn : kind i with
      | false =>
        rw [isOwn] at taken
        exact ⟨t, r, hs, inbox, h.other taken isOwn hx, replies, by simp [spells, isOwn]⟩
      | true =>
        rw [isOwn] at taken
        obtain ⟨kept, ok⟩ := h.own taken isOwn hx
        exact ⟨t, _, hs, inbox, kept, ok, fun _ _ _ => rfl⟩

/-- All events but resets are taken one by one; at the end no command of the kind is to come. -/
theorem run (h : RunInvariant kind inv) (noReset : .reset ∉ evs) (pending : s.inbox = evs ++ rest)
    (holds : inv ((evs.filterMap eventInstr).filter kind) s) :
    ∃ t replies, core.run evs.length s = .next t ∧ t.inbox = rest ∧ inv [] t ∧ t.replies = s.replies ++ replies ∧
      repliedOk kind evs replies := by
  induction evs generalizing s with
  | nil => exact ⟨s, [], rfl, pending, holds, (List.append_nil _).symm, repliedOk_nil kind _⟩
  | cons ev evs ih =>
    obtain ⟨notReset, noReset⟩ := not_or.1 (mt List.mem_cons.2 noReset)
    obtain ⟨t, r, hs, inbox, kept, reply, ok⟩ := h.step (Ne.symm notReset) pending holds
    obtain ⟨u, replies, hr, inbox', kept', replies', oks⟩ := ih noReset inbox kept
    refine ⟨u, r :: replies, (run_succ _ hs).trans hr, inbox', kept', ?_, repliedOk_cons ok oks⟩
    rw [replies', reply, List.append_assoc, List.singleton_append]

end RunInvariant

end Sys2Proof.Machine
end

section
/-! PROOFS. The run of the encoder against the reference encoder: how many images each command emits (R106), and which
(R107, R108). -/

namespace Sys2Proof.Machine

/-! ## What a run that has consumed framed bytes has emitted -/

namespace Consumed

variable {before : List Image} {f : List Byte} {s t : State}

theorem emitted_eq (h : Consumed before f s) : s.enc.emitted.toNat = f.length / chunkBytes s.params := by
  have fill := h.fill_lt
  rw [← h.count, Nat.mul_comm, Nat.mul_add_div (by omega), Nat.div_eq_of_lt fill, Nat.add_zero]

theorem fill_eq (h : Consumed before f s) : s.enc.buf.length = f.length % chunkBytes s.params := by
  rw [← h.count, Nat.mul_add_mod', Nat.mod_eq_of_lt h.fill_lt]

theorem length_out (h : Consumed before f s) : s.encOut.length = before.length + f.length / chunkBytes s.params := by
  rw [h.out, ← h.emitted_eq]
  simp

/-- What is consumed is told by the parameters, the encoder and `ENC_OUT`. -/
theorem congr (h : Consumed before f s) (params : t.params = s.params) (enc : t.enc = s.enc)
    (out : t.encOut = s.encOut) : Consumed before f t := by
  obtain ⟨fill_lt, count, pending, emitted⟩ := h
  constructor <;> simpa only [params, enc, out]

end Consumed

/-! ## How many images a command emits -/

theorem length_encOut_finishRun (s : State) :
    (finishRun s).encOut.length = s.encOut.length + if s.enc.buf.length ≠ 0 then 1 else 0 := by
  split
  next pending => rw [finishRun_pending s (Nat.pos_of_ne_zero pending), List.length_append, List.length_singleton]
  next empty => rw [finishRun_empty s (List.length_eq_zero_iff.1 (not_not.1 empty)), Nat.add_zero]

/-- `ENC_START` emits the full chunks of the size bytes, and for the empty file the rest of it (R106). -/
theorem length_encOut_startEncoderRun {s : State} (legal : s.params.Legal)
    (fits : ¬ totalImages s.params s.host.encLenReg.toNat > maxSequence) :
    (startEncoderRun s).encOut.length = s.encOut.length + 8 / chunkBytes s.params +
      if (startEncoderRun s).enc.len = 0 ∧ 8 % chunkBytes s.params ≠ 0 then 1 else 0 := by
  have consumed := begunRun_consumed legal
  have emitted := consumed.length_out
  have fill := consumed.fill_eq
  rw [begunRun_params, length_beBytes] at emitted fill
  rw [startEncoderRun_fits s fits]
  split
  next empty =>
    simp only [respond_encOut, respond_enc, length_encOut_finishRun, finishRun_len, begunRun_len, empty, emitted, fill,
      true_and]
  next pending =>
    simp only [respond_encOut, respond_enc, begunRun_len, pending, emitted, false_and, if_false, Nat.add_zero]

/-- Push number `j` of a run takes framed byte `8 + j`, which is the last of its chunk exactly when it fills the buffer
(R106). -/
theorem pushed_mod_eq_zero_iff {p : Params} {e : Encoder} (inv : EncoderInv p e) (run : e.state = .run) :
    (8 + (e.len.toNat - e.rem.toNat + 1)) % chunkBytes p = 0 ↔ e.buf.length + 1 = chunkBytes p := by
  have consumed := inv.run_consumed run
  have le := inv.run_rem_le run
  have fill := inv.fill_lt
  have place : 8 + (e.len.toNat - e.rem.toNat + 1) = e.emitted.toNat * chunkBytes p + (e.buf.length + 1) := by omega
  rw [place, Nat.mul_add_mod']
  rcases Nat.lt_or_ge (e.buf.length + 1) (chunkBytes p) with more | full
  · rw [Nat.mod_eq_of_lt more]
    omega
  · rw [show e.buf.length + 1 = chunkBytes p by omega, Nat.mod_self]
    simp

/-- Settles O32: a start by the 8 bytes it has consumed, a push by what it does to the chunk; a run that is done meets
the invariant of DONE. -/
theorem imagesEmittedPerCommand : Obligations.ImagesEmittedPerCommand := by
  intro s t inv p
  refine ⟨fun hx notRun noError => ?_, fun b hx run => ?_⟩
  · have notError : s.enc.state ≠ .error := by
      intro error
      cases hx.symm.trans (exec_encStart_error error)
      exact noError error
    cases (exec_encStart (idle_or_done notRun notError)).symm.trans hx
    by_cases long : totalImages s.params s.host.encLenReg.toNat > maxSequence
    · rw [startEncoderRun_long s long] at noError
      exact absurd rfl noError
    · exact length_encOut_startEncoderRun inv.legal long
  · intro j
    have le := inv.enc.run_rem_le run
    have pos := inv.enc.run_pending run
    have fill := inv.enc.fill_lt
    have filled : (8 + j) % p = 0 ↔ s.enc.buf.length + 1 = p := pushed_mod_eq_zero_iff inv.enc run
    have last : s.enc.rem = 1 ↔ j = s.enc.len.toNat := by
      rw [← BitVec.toNat_inj, show (1 : DWord).toNat = 1 from rfl]
      omega
    have closed (params : t.params = s.params) (len : t.enc.len = s.enc.len) (done : t.enc.state = .done) :
        t.enc.emitted = t.enc.total ∧ t.enc.total.toNat = (8 + s.enc.len.toNat + p - 1) / p := by
      have inv' := (inv.exec hx).enc
      obtain ⟨-, -, emitted⟩ := inv'.done_closed done
      have total := inv'.total_eq (.inr done)
      rw [params, len] at total
      exact ⟨emitted, total⟩
    obtain ⟨openChunk, fullChunk, lastByte⟩ := encPushPacksTheByte s b run
    by_cases full : s.enc.buf.length + 1 = p
    · cases (fullChunk full).symm.trans hx
      exact ⟨List.length_append.trans (congrArg _ (if_pos (.inl (filled.2 full))).symm),
        fun all => closed rfl rfl (if_pos (last.2 all))⟩
    · have more : s.enc.buf.length + 1 < p := Nat.lt_of_le_of_ne fill full
      by_cases one : s.enc.rem = 1
      · have all := last.1 one
        cases (lastByte more one).symm.trans hx
        exact ⟨List.length_append.trans (congrArg _ (if_pos (.inr ⟨all, all ▸ mt filled.1 full⟩)).symm),
          fun _ => closed rfl rfl rfl⟩
      · have notLast := mt last.2 one
        cases (openChunk full one).symm.trans hx
        refine ⟨?_, fun all => absurd all notLast⟩
        rw [if_neg (not_or.2 ⟨mt filled.1 full, mt And.left notLast⟩), Nat.add_zero]

/-! ## The run of a file -/

/-- The run that `ENC_START` began in `s` has taken the file bytes `pushed`, and `missing` is to come. It is also said
within a command, of a run that has taken its last byte and is not finished yet. -/
structure Taken (s : State) (pushed missing : List Byte) (t : State) : Prop where
  legal : s.params.Legal
  fits : totalImages s.params (pushed ++ missing).length ≤ maxSequence
  params : t.params = s.params
  id : t.enc.id = s.host.encIdReg
  state : t.enc.state = .run
  rem : t.enc.rem.toNat = missing.length
  consumed : Consumed s.encOut (beBytes 8 (pushed ++ missing).length ++ pushed) t

/-- The run that began in `s` is done and has emitted the reference encoder's images of the file. -/
def Completed (s : State) (file : List Byte) (t : State) : Prop :=
  t.enc.state = .done ∧
    ∃ images, encodeImages s.params s.host.encIdReg file = .ok images ∧ t.encOut = s.encOut ++ images

/-- Where the run that began in `s` stands between commands, by the bytes to come. -/
def RunAt (s : State) (pushed : List Byte) : List Byte → State → Prop
  | [] => Completed s pushed
  | b :: missing => Taken s pushed (b :: missing)

theorem frame_append (pushed missing : List Byte) :
    frame (pushed ++ missing) = beBytes 8 (pushed ++ missing).length ++ pushed ++ missing := by
  rw [frame, List.append_assoc]

namespace Taken

variable {s t : State} {pushed missing file : List Byte}

/-- While framed bytes lie past the images emitted, one more image can be numbered (R87, R91). -/
theorem emitted_lt (h : Taken s pushed missing t)
    (more : t.enc.emitted.toNat * chunkBytes t.params < 8 + (pushed ++ missing).length) :
    t.enc.emitted.toNat + 1 < 2 ^ 32 := by
  have holds := (totalImages_bounds h.legal (pushed ++ missing).length).1
  have fits := h.fits
  rw [maxSequence] at fits
  rw [h.params] at more
  have due := Nat.lt_of_mul_lt_mul_right (Nat.lt_of_lt_of_le more holds)
  omega

theorem of_begunRun (legal : s.params.Legal) (len : s.host.encLenReg.toNat = file.length)
    (fits : totalImages s.params file.length ≤ maxSequence) : Taken s [] file (begunRun s) where
  legal := legal
  fits := fits
  params := begunRun_params s
  id := begunRun_id s
  state := begunRun_state s
  rem := by rw [begunRun_rem, len]
  consumed := by
    rw [List.nil_append, List.append_nil, ← len]
    exact begunRun_consumed legal

theorem push {b : Byte} (h : Taken s pushed (b :: missing) t) : Taken s (pushed ++ [b]) missing (pushedRun b t) := by
  have joined : pushed ++ [b] ++ missing = pushed ++ b :: missing := List.append_assoc _ _ _
  have count := h.consumed.count
  have more : t.enc.emitted.toNat * chunkBytes t.params < 8 + (pushed ++ b :: missing).length := by
    simp only [List.length_append, List.length_cons, length_beBytes] at count ⊢
    omega
  exact
    { legal := h.legal
      fits := joined ▸ h.fits
      params := (pushedRun_params b t).trans h.params
      id := (pushedRun_id b t).trans h.id
      state := (pushedRun_state b t).trans h.state
      rem := by
        have rem := h.rem
        rw [List.length_cons] at rem
        rw [pushedRun_rem, BitVec.toNat_sub_of_le (by show 1 ≤ t.enc.rem.toNat; omega), rem]
        rfl
      consumed := by
        rw [joined, ← List.append_assoc]
        exact pushedRun_consumed h.consumed b (h.emitted_lt more) }

/-- A run that has taken its last byte is completed by `finish()` (R101). -/
theorem finish (h : Taken s file [] t) : Completed s file (finishRun t) := by
  have consumed := h.consumed
  have fits := h.fits
  rw [List.append_nil] at consumed fits
  have count := consumed.count
  have stream : beBytes 8 file.length ++ file = frame file := rfl
  rw [stream, length_frame] at count
  have numbered (pending : t.enc.buf ≠ []) : t.enc.emitted.toNat + 1 < 2 ^ 32 := by
    have := List.length_pos_of_ne_nil pending
    exact h.emitted_lt (by rw [List.append_nil]; omega)
  have out := (finishRun_out _ _ _ consumed numbered).2
  rw [stream, length_frame, h.params, h.id] at out
  exact ⟨finishRun_state t, _, encodeImages_eq_ok.2 ⟨fits, rfl⟩, out⟩

/-- The end of `ENC_START` and of `ENC_PUSH`: the run is finished exactly when no byte is to come (R103, R104). -/
theorem close (h : Taken s pushed missing t) :
    RunAt s pushed missing (if t.enc.rem = 0 then finishRun t else t) := by
  have rem := h.rem
  cases missing with
  | nil =>
    rw [if_pos (BitVec.eq_of_toNat_eq rem)]
    exact h.finish
  | cons b missing =>
    rw [if_neg fun zero => by simp [zero] at rem]
    exact h

end Taken

/-- Where a run stands is told by the parameters, the encoder and `ENC_OUT`. -/
theorem RunAt.congr {s t u : State} {pushed missing : List Byte} (h : RunAt s pushed missing t)
    (params : u.params = t.params) (enc : u.enc = t.enc) (out : u.encOut = t.encOut) : RunAt s pushed missing u := by
  cases missing with
  | nil =>
    obtain ⟨done, images, encoded, emitted⟩ := h
    exact ⟨enc ▸ done, images, encoded, out.trans emitted⟩
  | cons b missing =>
    exact
      { h with
        params := params.trans h.params
        id := enc ▸ h.id
        state := enc ▸ h.state
        rem := enc ▸ h.rem
        consumed := h.consumed.congr params enc out }

/-! ## The commands of the run -/

/-- `ENC_START` answers OK and begins the run of the file (R103). -/
theorem startEncoderRun_runAt {s : State} {file : List Byte} (legal : s.params.Legal)
    (len : s.host.encLenReg.toNat = file.length) (fits : totalImages s.params file.length ≤ maxSequence) :
    RunAt s [] file (startEncoderRun s) ∧ (startEncoderRun s).replies = s.replies ++ [⟨.ok, 0⟩] := by
  have begun := (Taken.of_begunRun legal len fits).close
  rw [begunRun_rem] at begun
  rw [startEncoderRun_fits s (Nat.not_lt.2 (len ▸ fits))]
  refine ⟨begun.congr rfl rfl rfl, ?_⟩
  rw [respond_replies, apply_ite State.replies, finishRun_replies, begunRun_replies, ite_self]

/-- `ENC_PUSH` of the next byte answers OK and goes on with the run (R104). -/
theorem pushFileByte_runAt {s t : State} {pushed missing : List Byte} {b : Byte}
    (h : RunAt s pushed (b :: missing) t) :
    RunAt s (pushed ++ [b]) missing (pushFileByte b t) ∧ (pushFileByte b t).replies = t.replies ++ [⟨.ok, 0⟩] := by
  have taken := (Taken.push h).close
  rw [pushedRun_rem] at taken
  rw [pushFileByte_eq]
  refine ⟨taken.congr rfl rfl rfl, ?_⟩
  rw [respond_replies, apply_ite State.replies, finishRun_replies, pushedRun_replies, ite_self]

/-- Commands that are not the encoder's leave the parameters, the encoder and `ENC_OUT` (R18, R58). -/
theorem exec_keeps_encoder {i : Instr} {s t : State} (other : encoderInstr i = false) (h : exec i s = .next t) :
    t.params = s.params ∧ t.enc = s.enc ∧ t.encOut = s.encOut := by
  cases hd : decoderInstr i with
  | true =>
    have effect := DecoderEffect.of_exec hd h
    exact ⟨effect.params, effect.enc, effect.encOut⟩
  | false =>
    obtain ⟨regs, r, w, rfl⟩ := exec_hostAccess other hd h
    exact ⟨rfl, rfl, rfl⟩

/-- Of the bytes `file`, those to be pushed by `cmds` are still to come, and after them `missing`. -/
def RunWith (s : State) (file missing : List Byte) (cmds : List Instr) (t : State) : Prop :=
  ∃ pushed todo, pushed ++ todo = file ∧ cmds = todo.map .encPush ∧ RunAt s pushed (todo ++ missing) t

/-- Whatever comes between the pushes of a run leaves it where it stands, and each push goes on with it. -/
theorem runInvariant_runWith (s : State) (file missing : List Byte) :
    RunInvariant encoderInstr (RunWith s file missing) where
  inbox := by
    rintro cmds t ⟨pushed, todo, split, rfl, h⟩ evs
    exact ⟨pushed, todo, split, rfl, h.congr rfl rfl rfl⟩
  illegal := by
    rintro cmds t ⟨pushed, todo, split, rfl, h⟩
    exact ⟨pushed, todo, split, rfl, h.congr rfl rfl rfl⟩
  other := by
    rintro cmds i t u ⟨pushed, todo, split, rfl, h⟩ other hx
    obtain ⟨params, enc, out⟩ := exec_keeps_encoder other hx
    exact ⟨pushed, todo, split, rfl, h.congr params enc out⟩
  own := by
    rintro cmds i t u ⟨pushed, _ | ⟨b, todo⟩, split, same, h⟩ - hx
    · cases same
    · cases same
      cases (exec_encPush b (Taken.state h)).symm.trans hx
      obtain ⟨goesOn, ok⟩ := pushFileByte_runAt h
      exact ⟨⟨pushed ++ [b], todo, by rw [List.append_assoc]; exact split, rfl, goesOn⟩, ok⟩

/-- The run of `ENC_START` and the pushes of `pushed`, with anything in between but encoder commands and resets. -/
theorem run_encStart {s : State} {evs rest : List HostEvent} {pushed missing : List Byte} (legal : s.params.Legal)
    (state : s.enc.state = .idle ∨ s.enc.state = .done)
    (len : s.host.encLenReg.toNat = (pushed ++ missing).length)
    (fits : totalImages s.params (pushed ++ missing).length ≤ maxSequence) (noReset : .reset ∉ evs)
    (cmds : encoderCommands evs = pushed.map .encPush) (pending : s.inbox = instrEvent .encStart :: (evs ++ rest)) :
    ∃ t replies, core.run (1 + evs.length) s = .next t ∧ t.inbox = rest ∧
      RunAt { s with inbox := evs ++ rest } pushed missing t ∧
      t.replies = s.replies ++ replies ∧ repliedOk encoderInstr (instrEvent .encStart :: evs) replies := by
  let s' : State := { s with inbox := evs ++ rest }
  have started : step s = .next (startEncoderRun s') := (step_instrEvent pending).trans (exec_encStart state)
  obtain ⟨begun, ok⟩ := startEncoderRun_runAt (s := s') legal len fits
  have inbox : (startEncoderRun s').inbox = evs ++ rest := (EncoderEffect.startEncoderRun s').inbox
  obtain ⟨t, replies, run, inbox', ⟨pushed', todo, split, none, ends⟩, replies', oks⟩ :=
    (runInvariant_runWith s' pushed missing).run noReset inbox ⟨[], pushed, rfl, cmds, begun⟩
  obtain rfl : todo = [] := List.map_eq_nil_iff.1 none.symm
  rw [List.append_nil] at split
  obtain rfl := split
  refine ⟨t, ⟨.ok, 0⟩ :: replies, ?_, inbox', ends, ?_, repliedOk_cons (fun _ _ _ => rfl) oks⟩
  · rw [Nat.add_comm, run_succ _ started, run]
  · rw [replies', ok, List.append_assoc]
    rfl

/-- Settles O33: with all bytes pushed the run stands completed. -/
theorem encoderRunEqualsTheReference : Obligations.EncoderRunEqualsTheReference := by
  intro s evs rest file legal state len fits noReset cmds pending
  obtain ⟨t, replies, run, inbox, ⟨done, images, encoded, out⟩, replied, oks⟩ :=
    run_encStart (missing := []) legal state (by rwa [List.append_nil]) (by rwa [List.append_nil]) noReset cmds pending
  exact ⟨t, images, replies, run, inbox, encoded, out, done, replied, oks⟩

theorem take_rangeFromOne {k n : Nat} (h : k ≤ n) : (rangeFromOne n).take k = rangeFromOne k := by
  rw [rangeFromOne, ← List.map_take, List.take_range, Nat.min_eq_left h, rangeFromOne]

/-- A run with bytes to come has emitted the first images of the file, from full chunks (R108). -/
theorem Taken.emits_prefix {s t : State} {pushed missing : List Byte} (h : Taken s pushed missing t) :
    ∃ images, encodeImages s.params s.host.encIdReg (pushed ++ missing) = .ok images ∧
      t.encOut = s.encOut ++ images.take t.enc.emitted.toNat ∧
      t.enc.emitted.toNat = (8 + pushed.length) / chunkBytes s.params := by
  have count := h.consumed.count
  have out := h.consumed.out
  have emitted := h.consumed.emitted_eq
  rw [List.length_append, length_beBytes, h.params] at count emitted
  have holds := (totalImages_bounds h.legal (pushed ++ missing).length).1
  have le : t.enc.emitted.toNat ≤ totalImages s.params (pushed ++ missing).length := by
    refine Nat.le_of_mul_le_mul_right ?_ (chunkBytes_pos h.legal)
    have length : (pushed ++ missing).length = pushed.length + missing.length := List.length_append
    omega
  refine ⟨_, encodeImages_eq_ok.2 ⟨h.fits, rfl⟩, ?_, emitted⟩
  have taken : t.enc.emitted.toNat * chunkBytes s.params ≤ (beBytes 8 (pushed ++ missing).length ++ pushed).length := by
    rw [List.length_append, length_beBytes]
    omega
  rw [← List.map_take, take_rangeFromOne le, frame_append, emitted_append _ _ _ missing _ taken, out, h.params, h.id]

/-- Settles O34: with bytes missing the run has taken those pushed. -/
theorem incompleteRunEmitsAPrefix : Obligations.IncompleteRunEmitsAPrefix := by
  intro s evs rest pushed missing legal state len nonempty fits noReset cmds pending
  obtain ⟨t, -, run, -, stands, -, -⟩ := run_encStart legal state len fits noReset cmds pending
  cases missing with
  | nil => exact absurd rfl nonempty
  | cons b missing =>
    obtain ⟨images, encoded, out, emitted⟩ := Taken.emits_prefix stands
    exact ⟨t, images, run, Taken.state stands, encoded, out, emitted⟩

end Sys2Proof.Machine
end

section
/-! PROOFS. What each command of the decoder does: the legality table, error entry, one sample, the stored image and the
checks of `DEC_FINALIZE` (R120 to R126). -/

namespace Sys2Proof.Machine

/-! ## The legality table -/

theorem decStartLegal_iff {st : DecState} : decStartLegal st = true ↔ st = .idle ∨ st = .done := by
  cases st <;> decide

theorem decoderCommand_legal {legal : DecState → Bool} (body : State → State) {s : State}
    (noError : s.dec.state ≠ .error) (h : legal s.dec.state = true) : decoderCommand legal body s = body s :=
  (if_neg noError).trans (if_pos h)

theorem decoderCommand_illegal {legal : DecState → Bool} (body : State → State) {s : State}
    (noError : s.dec.state ≠ .error) (h : legal s.dec.state = false) :
    decoderCommand legal body s = raiseDec .protocolError s :=
  (if_neg noError).trans (if_neg (ne_true_of_eq_false h))

/-- `DEC_START` executes in IDLE and DONE (R120). -/
theorem exec_decStart {s : State} (h : s.dec.state = .idle ∨ s.dec.state = .done) :
    exec .decStart s = .next (startDecoderRun s) := by
  have noError : s.dec.state ≠ .error := by rintro error; simp [error] at h
  exact congrArg _ (decoderCommand_legal startDecoderRun noError (decStartLegal_iff.2 h))

/-- `DEC_IMG_BEGIN` executes in COLLECT (R120). -/
theorem exec_decImgBegin {s : State} (width height : Half) (collect : s.dec.state = .collect) :
    exec (.decImgBegin width height) s = .next (beginImage width height s) :=
  congrArg _ (decoderCommand_legal (beginImage width height) (by simp [collect]) (decImgBeginLegal_iff.2 collect))

/-- `DEC_SAMPLE` executes in IN_IMAGE (R120). -/
theorem exec_decSample {s : State} (b : Byte) (image : s.dec.state = .inImage) :
    exec (.decSample b) s = .next (deliverSample b s) :=
  congrArg _ (decoderCommand_legal (deliverSample b) (by simp [image]) (decSampleLegal_iff.2 image))

/-- `DEC_FINALIZE` executes in COLLECT (R120). -/
theorem exec_decFinalize {s : State} (collect : s.dec.state = .collect) :
    exec .decFinalize s = .next (finalizeRun s) :=
  congrArg _ (decoderCommand_legal finalizeRun (by simp [collect]) (decFinalizeLegal_iff.2 collect))

/-- Settles O26: the four commands in the states their legality tests exclude. -/
theorem decoderProtocolErrors : Obligations.DecoderProtocolErrors := by
  intro s w h b refused
  have raises {legal : DecState → Bool} (body : State → State) {st : DecState} (state : s.dec.state = st)
      (noError : st ≠ .error) (illegal : legal st = false) : decoderCommand legal body s = raiseDec .protocolError s :=
    decoderCommand_illegal body (state ▸ noError) (state ▸ illegal)
  refine ⟨?_, ?_, ?_, ?_⟩
  · rintro (state | state) <;> exact congrArg _ (raises startDecoderRun state (by decide) rfl)
  · rintro (state | state | state) <;> exact congrArg _ (raises (beginImage w h) state (by decide) rfl)
  · rintro (state | state | state) <;> exact congrArg _ (raises (deliverSample b) state (by decide) rfl)
  · rintro (state | state | state) <;> exact congrArg _ (raises finalizeRun state (by decide) rfl)

/-- Settles O35: the reset decoder but for its state and the strict bit, written out. -/
theorem decStartEmptiesTheCollection : Obligations.DecStartEmptiesTheCollection := fun _ h => exec_decStart h

/-- Settles O40: the cleared decoder and the reply, written out. -/
theorem decClearResetsTheDecoder : Obligations.DecClearResetsTheDecoder := fun _ => rfl

/-! ## One image -/

theorem beginImage_accepted {width height : Half} {s : State} (hw : width.toNat = s.params.n)
    (hh : height.toNat = s.params.n) :
    beginImage width height s = respond .ok 0
      { s with dec := { s.dec with scnt := 0, curId := 0, curSeq := 0, curChunk := [], state := .inImage } } :=
  if_neg (not_or.2 ⟨not_not.2 hw, not_not.2 hh⟩)

/-- Settles O36: the dimensions are compared before anything is cleared. -/
theorem decImgBeginChecksTheDimensions : Obligations.DecImgBeginChecksTheDimensions := by
  intro s w h collect
  rw [exec_decImgBegin w h collect]
  exact ⟨fun ⟨hw, hh⟩ => congrArg _ (beginImage_accepted hw hh), fun wrong => congrArg _ (if_pos wrong)⟩

/-- One byte more below the others, as a number and in the registers (R123). -/
theorem ofNat_mul_add_byte (w n : Nat) (b : Byte) :
    BitVec.ofNat w (n * 256 + b.toNat) = BitVec.ofNat w n * 256 + b.setWidth w := by
  rw [BitVec.ofNat_add, BitVec.ofNat_mul, BitVec.ofNat_toNat]
  rfl

@[simp] theorem takeSample_state (b : Byte) (d : Decoder) : (takeSample b d).state = d.state := by
  unfold takeSample
  split
  · rfl
  · split <;> rfl

/-- Settles O37: the sample goes where its index says. -/
theorem decSampleAssemblesTheImage : Obligations.DecSampleAssemblesTheImage := by
  intro s b image d k more after
  rw [exec_decSample b image, deliverSample_open b s more, ofNat_mul_add_byte, ofNat_mul_add_byte, BitVec.ofNat_toNat,
    BitVec.ofNat_toNat, BitVec.setWidth_eq, BitVec.setWidth_eq]
  refine ⟨fun h8 => ?_, fun h8 h12 => ?_, fun h12 => ?_⟩
  · rw [takeSample_identifier b _ h8]
    rfl
  · rw [takeSample_sequence b _ h8 h12]
    rfl
  · rw [takeSample_payload b _ h12]
    rfl

/-- Settles O38: the three ends of an image, in their order. -/
theorem decSampleCompletesTheImage : Obligations.DecSampleCompletesTheImage := by
  intro s b legal image last d mismatch raised
  rw [exec_decSample b image, deliverSample_last b s legal last]
  exact ⟨fun differs => congrArg _ (if_pos differs),
    fun same full => congrArg _ ((if_neg same).trans (if_pos full)),
    fun same room => congrArg _ ((if_neg same).trans (if_neg room))⟩

/-! ## The checks of `DEC_FINALIZE` -/

section

variable {p : Params} {d : Decoder}

/-- The numbers of the stored pairs are 1 to `dec.count` in some order: what the second check asks (R125). -/
def Decoder.Dense (d : Decoder) : Prop := (d.pairs.map fun sc => sc.1.toNat).Perm (List.range' 1 d.count.toNat)

/-- The stored chunks one after another in the order of their numbers (R125). -/
def Decoder.joined (d : Decoder) : List Byte :=
  (List.range' 1 d.count.toNat).flatMap fun j => (d.pairs.filter fun sc => sc.1.toNat = j).flatMap Prod.snd

/-- What follows the size bytes of the joined chunks (R125). -/
def Decoder.payload (p : Params) (d : Decoder) : List Byte :=
  (d.joined.take (d.count.toNat * chunkBytes p)).drop 8

theorem sorted_iff_dense :
    sortAscending (d.pairs.map fun sc => sc.1.toNat) = rangeFromOne d.count.toNat ↔ d.Dense := by
  rw [sortAscending_eq_rangeFromOne, rangeFromOne_eq_range', Decoder.Dense]

theorem collectedBytes_eq_joined : collectedBytes d.pairs d.count.toNat = d.joined := by
  have picked (pairs : List (Word × List Byte)) (j : Nat) :
      (pairs.flatMap fun sc => if sc.1.toNat = j then sc.2 else []) =
        (pairs.filter fun sc => sc.1.toNat = j).flatMap Prod.snd := by
    induction pairs with
    | nil => rfl
    | cons sc pairs ih =>
      rw [List.flatMap_cons, ih, List.filter_cons]
      by_cases number : sc.1.toNat = j
      · simp [number]
      · simp [number]
  rw [collectedBytes, rangeFromOne_eq_range']
  exact List.flatMap_congr fun j _ => picked d.pairs j

theorem reassemble_empty (empty : d.count.toNat = 0) : reassemble p d = .error .emptySequence := if_pos empty

theorem reassemble_gap (nonempty : d.count.toNat ≠ 0) (gap : ¬ d.Dense) :
    reassemble p d = .error .sequenceIntegrityError :=
  (if_neg nonempty).trans (if_pos (mt sorted_iff_dense.1 gap))

/-- Past the sequence check the joined chunks are judged by their length and the declared size (R125). -/
theorem reassemble_dense (nonempty : d.count.toNat ≠ 0) (dense : d.Dense) :
    reassemble p d =
      if d.joined.length < 8 then .error .malformedStream
      else if (d.payload p).length < fromBe (d.joined.take 8) then .error .truncationError
      else .ok (BitVec.ofNat 64 (fromBe (d.joined.take 8)), (d.payload p).take (fromBe (d.joined.take 8))) := by
  rw [Decoder.payload, ← collectedBytes_eq_joined]
  exact (if_neg nonempty).trans (if_neg (not_not.2 (sorted_iff_dense.2 dense)))

end

/-- Settles O39: the first check that fails names the error. -/
theorem decFinalizeChecksInOrder : Obligations.DecFinalizeChecksInOrder := by
  intro s collect
  rw [exec_decFinalize collect]
  refine ⟨fun empty => ?_, fun nonempty gap => ?_, fun nonempty dense short => ?_, fun nonempty dense long cut => ?_,
    fun nonempty dense long whole => ?_⟩
  · exact congrArg _ (finalizeRun_error s (reassemble_empty empty))
  · exact congrArg _ (finalizeRun_error s (reassemble_gap nonempty gap))
  · exact congrArg _ (finalizeRun_error s ((reassemble_dense nonempty dense).trans (if_pos short)))
  · exact congrArg _ (finalizeRun_error s
      ((reassemble_dense nonempty dense).trans ((if_neg (Nat.not_lt.2 long)).trans (if_pos cut))))
  · exact congrArg _ (finalizeRun_ok s
      ((reassemble_dense nonempty dense).trans ((if_neg (Nat.not_lt.2 long)).trans (if_neg (Nat.not_lt.2 whole)))))

end Sys2Proof.Machine
end

section
/-! PROOFS. What reaches `DEC_OUT`, and with it DONE: a file of the declared size, by `DEC_FINALIZE` alone (R125, R130). -/

namespace Sys2Proof.Machine

/-- Eight bytes spell a number of 64 bits (R14). -/
theorem fromBe_take_eight_lt (bs : List Byte) : fromBe (bs.take 8) < 2 ^ 64 :=
  (fromBe_lt _).trans_le (Nat.pow_le_pow_right (by decide : 0 < 256) (List.length_take_le 8 bs))

/-- A file that `DEC_FINALIZE` reassembles has the declared size (R125). -/
theorem length_of_reassemble_ok {p : Params} {d : Decoder} {size : DWord} {file : List Byte}
    (h : reassemble p d = .ok (size, file)) : file.length = size.toNat := by
  by_cases empty : d.count.toNat = 0
  · cases (reassemble_empty empty).symm.trans h
  by_cases dense : d.Dense
  · rw [reassemble_dense empty dense] at h
    split at h
    · cases h
    · split at h
      · cases h
      next whole =>
        cases h
        rw [List.length_take, BitVec.toNat_ofNat, Nat.mod_eq_of_lt (fromBe_take_eight_lt _)]
        exact Nat.min_eq_left (Nat.not_lt.1 whole)
  · cases (reassemble_gap empty dense).symm.trans h

/-- From `s` to `t` nothing reached `DEC_OUT`, and the decoder is in DONE only as it was before. -/
def EmitsNoFile (s t : State) : Prop := t.decOut = s.decOut ∧ (t.dec.state = .done → t.dec = s.dec)

/-- From `s` in COLLECT to `t` in DONE one file of the declared size reached `DEC_OUT`. -/
def EmitsFile (s t : State) : Prop :=
  s.dec.state = .collect ∧ t.dec.state = .done ∧
    ∃ file, t.decOut = s.decOut ++ [file] ∧ file.length = t.dec.size.toNat

namespace EmitsNoFile

theorem raiseDec (e : ErrorCode) (s : State) : EmitsNoFile s (raiseDec e s) := ⟨rfl, nofun⟩

theorem beginImage (width height : Half) (s : State) : EmitsNoFile s (beginImage width height s) := by
  obtain ⟨-, hc⟩ | ⟨-, hc⟩ := beginImage_cases width height s
  · exact hc ▸ raiseDec _ s
  · exact hc ▸ ⟨rfl, nofun⟩

theorem completeImage (d : Decoder) (s : State) : EmitsNoFile s (completeImage d s) := by
  obtain ⟨-, hc⟩ | ⟨-, -, hc⟩ | ⟨-, -, hc⟩ := completeImage_cases d s
  · exact hc ▸ raiseDec _ s
  · exact hc ▸ raiseDec _ s
  · exact hc ▸ ⟨rfl, nofun⟩

theorem deliverSample {s : State} (image : s.dec.state = .inImage) (b : Byte) :
    EmitsNoFile s (deliverSample b s) := by
  by_cases more : s.dec.scnt.toNat + 1 < imageSamples s.params
  · rw [deliverSample_open b s more]
    exact ⟨rfl, fun done => by simp [takeSample_state, image] at done⟩
  · exact deliverSample_complete b s more ▸ completeImage _ s

theorem decoderCommand (legal : DecState → Bool) {body : State → State} {s : State}
    (h : legal s.dec.state = true → EmitsNoFile s (body s)) : EmitsNoFile s (decoderCommand legal body s) := by
  obtain ⟨-, hc⟩ | ⟨-, hl, hc⟩ | ⟨-, -, hc⟩ := decoderCommand_cases legal body s
  · exact hc ▸ ⟨rfl, fun _ => rfl⟩
  · exact hc ▸ h hl
  · exact hc ▸ raiseDec _ s

end EmitsNoFile

theorem finalizeRun_emits {s : State} (collect : s.dec.state = .collect) :
    EmitsNoFile s (finalizeRun s) ∨ EmitsFile s (finalizeRun s) := by
  obtain ⟨e, -, hc⟩ | ⟨size, file, passed, hc⟩ := finalizeRun_cases s
  · exact .inl (hc ▸ .raiseDec e s)
  · exact .inr (hc ▸ ⟨collect, rfl, file, rfl, length_of_reassemble_ok passed⟩)

/-- A command emits no file, or it is a `DEC_FINALIZE` that emits one (R130). -/
theorem exec_emits {i : Instr} {s t : State} (h : exec i s = .next t) :
    EmitsNoFile s t ∨ (i = .decFinalize ∧ EmitsFile s t) := by
  cases i with
  | decStart => cases h; exact .inl (.decoderCommand _ fun _ => ⟨rfl, nofun⟩)
  | decImgBegin width height => cases h; exact .inl (.decoderCommand _ fun _ => .beginImage width height s)
  | decSample b => cases h; exact .inl (.decoderCommand _ fun legal => .deliverSample (decSampleLegal_iff.1 legal) b)
  | decFinalize =>
    cases h
    by_cases collect : s.dec.state = .collect
    · rw [decoderCommand_legal finalizeRun (by simp [collect]) (decFinalizeLegal_iff.2 collect)]
      exact (finalizeRun_emits collect).imp_right fun emits => ⟨rfl, emits⟩
    · exact .inl (.decoderCommand _ fun legal => absurd (decFinalizeLegal_iff.1 legal) collect)
  | decClear => cases h; exact .inl ⟨rfl, nofun⟩
  | encStart | encPush | encClear =>
    have effect := EncoderEffect.of_exec rfl h
    exact .inl ⟨effect.decOut, fun _ => effect.dec⟩
  | nop | rd | wr =>
    obtain ⟨regs, r, w, rfl⟩ := exec_hostAccess rfl rfl h
    exact .inl ⟨rfl, fun _ => rfl⟩

/-- A step emits no file, or it takes a `DEC_FINALIZE` that emits one (R130). -/
theorem step_emits {s t : State} (h : step s = .next t) :
    EmitsNoFile s t ∨ ((∃ ev, s.inbox.head? = some ev ∧ eventInstr ev = some .decFinalize) ∧ EmitsFile s t) := by
  obtain ⟨-, hs⟩ | ⟨rest, -, hs⟩ | ⟨cmd, wdata, rest, why, -, -, hs⟩ | ⟨cmd, wdata, rest, i, pending, decoded, hs⟩ :=
    step_cases s
  · cases hs.symm.trans h
    exact .inl ⟨rfl, fun _ => rfl⟩
  · cases hs.symm.trans h
    exact .inl ⟨rfl, nofun⟩
  · cases hs.symm.trans h
    exact .inl ⟨rfl, fun _ => rfl⟩
  · obtain emitsNone | ⟨rfl, emits⟩ := exec_emits (hs.symm.trans h)
    · exact .inl emitsNone
    · exact .inr ⟨⟨_, by rw [pending]; rfl, by simp only [eventInstr, decoded]⟩, emits⟩

/-- Settles O59: DONE stands with the file it stood with, or the step emitted a file of the declared size. -/
theorem stepKeepsTheFileSized : Obligations.StepKeepsTheFileSized := by
  intro s t sized h done
  obtain ⟨out, same⟩ | ⟨-, -, -, file, out, size⟩ := step_emits h
  · rw [out, same done]
    exact sized (same done ▸ done)
  · exact ⟨file, by rw [out, List.getLast?_concat], size⟩

/-- Settles O45: the event a step appends is the file of a `DEC_FINALIZE`. -/
theorem decOutGrowsOnlyAtASuccessfulFinalize : Obligations.DecOutGrowsOnlyAtASuccessfulFinalize := by
  intro s t h
  obtain ⟨out, -⟩ | ⟨⟨ev, next, spells⟩, collect, done, file, out, -⟩ := step_emits h
  · exact .inl out
  · exact .inr ⟨ev, file, next, spells, collect, done, out⟩

end Sys2Proof.Machine
end

section
/-! PROOFS. `DEC_FINALIZE` against the reference reassembler on the stored pairs (R94, R125, R128). -/

namespace Sys2Proof.Machine

/-- Without repeats, the pairs of a number have the one chunk that the number finds (R94). -/
theorem flatMap_filter_eq_chunkNumbered {pairs : List (Word × List Byte)} (unique : (pairs.map Prod.fst).Nodup)
    (j : Nat) : (pairs.filter fun sc => sc.1.toNat = j).flatMap Prod.snd = chunkNumbered pairs j := by
  induction pairs with
  | nil => rfl
  | cons sc pairs ih =>
    obtain ⟨fresh, unique⟩ := List.nodup_cons.1 unique
    by_cases number : sc.1.toNat = j
    · have others : (pairs.filter fun sc => sc.1.toNat = j) = [] := by
        refine List.filter_eq_nil_iff.2 fun other mem same => fresh ?_
        have same : other.1 = sc.1 := BitVec.eq_of_toNat_eq ((of_decide_eq_true same).trans number.symm)
        exact same ▸ List.mem_map_of_mem mem
      simp [chunkNumbered, number, others]
    · simpa [chunkNumbered, number] using ih unique

theorem length_chunkNumbered_le {pairs : List (Word × List Byte)} {n : Nat} (sized : ∀ sc ∈ pairs, sc.2.length = n)
    (j : Nat) : (chunkNumbered pairs j).length ≤ n := by
  rw [chunkNumbered]
  split
  next sc found => exact (sized sc (List.mem_of_find?_eq_some found)).le
  next => exact Nat.zero_le n

/-- As many pairs are stored as are counted, each with a chunk of `P` bytes (R29). -/
structure Stored (p : Params) (d : Decoder) : Prop where
  length : d.pairs.length = d.count.toNat
  chunk : ∀ sc ∈ d.pairs, sc.2.length = chunkBytes p

theorem DecoderInv.stored {p : Params} {d : Decoder} (inv : DecoderInv p d) : Stored p d :=
  ⟨inv.pairs_length, inv.pairs_chunk⟩

namespace Stored

variable {p : Params} {d : Decoder}

/-- The two forms of the sequence check agree when as many pairs are stored as are counted (R93, R125). -/
theorem seqIntegrity_iff (h : Stored p d) : seqIntegrity (d.pairs.map Prod.fst) = true ↔ d.Dense := by
  rw [seqIntegrity_iff_perm, List.map_map, List.length_map, h.length, rangeFromOne_eq_range']
  rfl

/-- The joined chunks are those the reference reassembler joins (R94, R125). -/
theorem flatMap_chunkNumbered (h : Stored p d) (dense : d.Dense) :
    (rangeFromOne d.pairs.length).flatMap (chunkNumbered d.pairs) = d.joined := by
  rw [h.length, rangeFromOne_eq_range']
  exact List.flatMap_congr fun j _ =>
    (flatMap_filter_eq_chunkNumbered (nodup_of_seqIntegrity (h.seqIntegrity_iff.2 dense)) j).symm

/-- Chunks of `P` bytes leave nothing beyond `K * P` to be cut off (R125). -/
theorem payload_eq (h : Stored p d) (dense : d.Dense) : d.payload p = d.joined.drop 8 := by
  have bound : d.joined.length ≤ d.count.toNat * chunkBytes p := by
    rw [← h.flatMap_chunkNumbered dense, List.length_flatMap, h.length]
    refine (List.sum_le_card_nsmul _ (chunkBytes p) fun l mem => ?_).trans ?_
    · obtain ⟨j, -, rfl⟩ := List.mem_map.1 mem
      exact length_chunkNumbered_le h.chunk j
    · rw [List.length_map, length_rangeFromOne, smul_eq_mul]
  rw [Decoder.payload, List.take_of_length_le bound]

/-- What the reference reassembler gives once its first two checks have passed (R94). -/
theorem decodeImages_dense (h : Stored p d) (nonempty : d.count.toNat ≠ 0) (dense : d.Dense) :
    decodeImages d.pairs =
      if d.joined.length < 8 then .error .malformedStream
      else truncate (d.payload p) (BitVec.ofNat 64 (fromBe (d.joined.take 8))) := by
  rw [decodeImages, if_neg (h.length ▸ nonempty), if_neg (by simp [h.seqIntegrity_iff.2 dense]),
    h.flatMap_chunkNumbered dense, unframe, h.payload_eq dense]
  by_cases short : d.joined.length < 8
  · rw [if_pos short, if_pos short]
  · rw [if_neg short, if_neg short]

/-- `DEC_FINALIZE` reassembles what the reference reassembler makes of the stored pairs (R94, R128). -/
theorem reassemble_eq_decodeImages (h : Stored p d) :
    reassemble p d = (decodeImages d.pairs).map fun file => (BitVec.ofNat 64 file.length, file) := by
  by_cases empty : d.count.toNat = 0
  · rw [reassemble_empty empty, decodeImages, if_pos (h.length.trans empty)]
    rfl
  by_cases dense : d.Dense
  · rw [reassemble_dense empty dense, h.decodeImages_dense empty dense]
    split
    · rfl
    · rw [truncate, BitVec.toNat_ofNat, Nat.mod_eq_of_lt (fromBe_take_eight_lt _)]
      split
      · rfl
      next whole =>
        rw [Except.map, List.length_take_of_le (Nat.not_lt.1 whole)]
  · rw [reassemble_gap empty dense, decodeImages, if_neg (h.length ▸ empty),
      if_pos (by simpa using mt h.seqIntegrity_iff.1 dense)]
    rfl

end Stored

section

variable {s : State} (h : Stored s.params s.dec)

include h

/-- `DEC_FINALIZE` of pairs the reference reassembler makes a file of (R125). -/
theorem finalizeRun_of_decodeImages_ok {file : List Byte} (decoded : decodeImages s.dec.pairs = .ok file) :
    finalizeRun s = respond .ok 0
      (emitBytes file { s with dec := { s.dec with size := BitVec.ofNat 64 file.length, state := .done } }) :=
  finalizeRun_ok s (by rw [h.reassemble_eq_decodeImages, decoded]; rfl)

/-- `DEC_FINALIZE` of pairs the reference reassembler refuses (R125). -/
theorem finalizeRun_of_decodeImages_error {e : ErrorCode} (decoded : decodeImages s.dec.pairs = .error e) :
    finalizeRun s = raiseDec e s :=
  finalizeRun_error s (by rw [h.reassemble_eq_decodeImages, decoded]; rfl)

/-- A reassembled file has a length of 64 bits (R86). -/
theorem toNat_ofNat_length_of_decodeImages {file : List Byte} (decoded : decodeImages s.dec.pairs = .ok file) :
    (BitVec.ofNat 64 file.length).toNat = file.length :=
  (length_of_reassemble_ok (p := s.params) (d := s.dec) (by rw [h.reassemble_eq_decodeImages, decoded]; rfl)).symm

end

/-- Settles O42: what is reassembled is what the reference makes of the pairs. -/
theorem decFinalizeEqualsTheReference : Obligations.DecFinalizeEqualsTheReference := by
  intro s t inv collect h
  cases (exec_decFinalize collect).symm.trans h
  refine ⟨fun file decoded => ?_, fun e decoded => ?_⟩
  · rw [finalizeRun_of_decodeImages_ok inv.dec.stored decoded]
    exact ⟨rfl, toNat_ofNat_length_of_decodeImages inv.dec.stored decoded, rfl⟩
  · rw [finalizeRun_of_decodeImages_error inv.dec.stored decoded]
    exact ⟨rfl, rfl, rfl⟩

end Sys2Proof.Machine
end

section
/-! PROOFS. The delivery of one image, sample by sample (R122 to R124, R127): within an image the decoder holds what
`parseImage` makes of the samples so far. -/

namespace Sys2Proof.Machine

/-! ## One more sample of an image -/

theorem fromBe_concat (bs : List Byte) (b : Byte) : fromBe (bs ++ [b]) = fromBe bs * 256 + b.toNat := by
  simp [fromBe_append, fromBe]

theorem ofNat_fromBe_concat (w : Nat) (bs : List Byte) (b : Byte) :
    BitVec.ofNat w (fromBe (bs ++ [b])) = BitVec.ofNat w (fromBe bs) * 256 + b.setWidth w := by
  rw [fromBe_concat, ofNat_mul_add_byte]

theorem take_concat_of_lt {n : Nat} {bs : List Byte} (b : Byte) (h : bs.length < n) :
    (bs ++ [b]).take n = bs.take n ++ [b] := by
  rw [List.take_of_length_le (by simpa using h), List.take_of_length_le h.le]

theorem drop_concat_of_lt {n : Nat} {bs : List Byte} (b : Byte) (h : bs.length < n) :
    (bs ++ [b]).drop n = bs.drop n := by
  rw [List.drop_of_length_le (by simpa using h), List.drop_of_length_le h.le]

section

variable {taken : Image} (b : Byte)

/-- Samples 0 to 7 spell the identifier (R92, R123). -/
theorem parseImage_concat_identifier (h : taken.length < 8) :
    parseImage (taken ++ [b]) =
      ((parseImage taken).1 * 256 + b.setWidth 64, (parseImage taken).2.1, (parseImage taken).2.2) := by
  rw [parseImage, take_concat_of_lt b h, drop_concat_of_lt b h, drop_concat_of_lt b (h.trans (by decide)),
    ofNat_fromBe_concat]
  rfl

/-- Samples 8 to 11 spell the sequence number (R92, R123). -/
theorem parseImage_concat_sequence (h8 : 8 ≤ taken.length) (h12 : taken.length < 12) :
    parseImage (taken ++ [b]) =
      ((parseImage taken).1, (parseImage taken).2.1 * 256 + b.setWidth 32, (parseImage taken).2.2) := by
  have few : (taken.drop 8).length < 4 := by
    rw [List.length_drop]
    omega
  rw [parseImage, List.take_append_of_le_length h8, List.drop_append_of_le_length h8, take_concat_of_lt b few,
    drop_concat_of_lt b h12, ofNat_fromBe_concat]
  rfl

/-- The other samples make the chunk (R92, R123). -/
theorem parseImage_concat_payload (h : 12 ≤ taken.length) :
    parseImage (taken ++ [b]) = ((parseImage taken).1, (parseImage taken).2.1, (parseImage taken).2.2 ++ [b]) := by
  have h8 : 8 ≤ taken.length := Nat.le_trans (by decide) h
  have all : 4 ≤ (taken.drop 8).length := by
    rw [List.length_drop]
    omega
  rw [parseImage, List.take_append_of_le_length h8, List.drop_append_of_le_length h8,
    List.take_append_of_le_length all, List.drop_append_of_le_length h]
  rfl

end

/-! ## The decoder within an image -/

/-- The decoder `d`, taken from COLLECT into an image of which it has received `taken` (R122, R123). -/
def receiving (d : Decoder) (taken : Image) : Decoder :=
  { d with
    state := .inImage
    scnt := BitVec.ofNat 32 taken.length
    curId := (parseImage taken).1
    curSeq := (parseImage taken).2.1
    curChunk := (parseImage taken).2.2 }

theorem scnt_receiving (d : Decoder) {taken : Image} (h : taken.length < 2 ^ 32) :
    (receiving d taken).scnt.toNat = taken.length := Nat.mod_eq_of_lt h

/-- A sample is parsed with those before it; counting it is left to the caller (R123). -/
theorem takeSample_receiving (d : Decoder) {taken : Image} (b : Byte) (h : taken.length < 2 ^ 32) :
    takeSample b (receiving d taken) = { receiving d (taken ++ [b]) with scnt := BitVec.ofNat 32 taken.length } := by
  have count := scnt_receiving d h
  rcases Nat.lt_or_ge taken.length 8 with h8 | h8
  · rw [takeSample_identifier b _ (count.trans_lt h8), receiving, receiving, parseImage_concat_identifier b h8]
  · rcases Nat.lt_or_ge taken.length 12 with h12 | h12
    · rw [takeSample_sequence b _ (count ▸ h8) (count.trans_lt h12), receiving, receiving,
        parseImage_concat_sequence b h8 h12]
    · rw [takeSample_payload b _ (count ▸ h12), receiving, receiving, parseImage_concat_payload b h12]

section

variable {s : State} {d : Decoder} {taken : Image} (legal : s.params.Legal) (dec : s.dec = receiving d taken) (b : Byte)

include legal dec

theorem deliverSample_receiving_open (more : taken.length + 1 < imageSamples s.params) :
    deliverSample b s = respond .ok 0 { s with dec := receiving d (taken ++ [b]) } := by
  have small : taken.length < 2 ^ 32 := (Nat.lt_of_succ_lt more).trans (imageSamples_lt _ legal)
  have count : s.dec.scnt.toNat = taken.length := by rw [dec, scnt_receiving d small]
  have next : s.dec.scnt + 1 = BitVec.ofNat 32 (taken ++ [b]).length := by
    rw [dec, List.length_append, BitVec.ofNat_add]
    rfl
  rw [deliverSample_open b s (count.symm ▸ more), next, dec, takeSample_receiving d b small]
  rfl

theorem deliverSample_receiving_last (last : taken.length + 1 = imageSamples s.params) :
    deliverSample b s = completeImage (receiving d (taken ++ [b])) s := by
  have small : taken.length < 2 ^ 32 := (Nat.lt_of_succ_le last.le).trans (imageSamples_lt _ legal)
  have count : s.dec.scnt.toNat = taken.length := by rw [dec, scnt_receiving d small]
  rw [deliverSample_complete b s (by omega), dec, takeSample_receiving d b small]
  rfl

end

/-! ## A whole image -/

theorem exists_last_sample {p : Params} {img : Image} (legal : p.Legal) (full : img.length = imageSamples p) :
    ∃ taken b, img = taken ++ [b] :=
  (List.eq_nil_or_concat' img).resolve_left (List.ne_nil_of_length_pos (full ▸ imageSamples_pos legal))

/-- `N` fits the fields of `DEC_IMG_BEGIN` (R6, R65). -/
theorem toNat_ofNat_side {p : Params} (legal : p.Legal) : (BitVec.ofNat 16 p.n).toNat = p.n := by
  obtain ⟨-, n_le, -⟩ := legal
  exact Nat.mod_eq_of_lt (Nat.lt_succ_of_le n_le)

/-- `DEC_IMG_BEGIN N, N` is accepted (R122). -/
theorem exec_decImgBegin_side {s : State} (legal : s.params.Legal) (collect : s.dec.state = .collect) :
    exec (.decImgBegin (BitVec.ofNat 16 s.params.n) (BitVec.ofNat 16 s.params.n)) s =
      .next (respond .ok 0 { s with dec := receiving s.dec [] }) :=
  (exec_decImgBegin _ _ collect).trans
    (congrArg _ (beginImage_accepted (toNat_ofNat_side legal) (toNat_ofNat_side legal)))

/-- A first part of a run, and the rest from where it ended. -/
theorem run_add {s t : State} {k : Nat} (m : Nat) (h : core.run k s = .next t) : core.run (k + m) s = core.run m t := by
  induction k generalizing s with
  | zero =>
    cases h
    rw [Nat.zero_add]
  | succ k ih =>
    obtain ⟨u, hu⟩ := everyStepAnswersANextState s
    rw [Nat.add_right_comm]
    exact (run_succ (k + m) hu).trans (ih ((run_succ k hu).symm.trans h))

section

/-- `s` in COLLECT after the image's announcement and its samples `taken`, all answered OK, with `evs` to come. -/
def midImage (s : State) (taken : Image) (evs : List HostEvent) : State :=
  { s with
    dec := receiving s.dec taken
    inbox := evs
    replies := s.replies ++ List.replicate (taken.length + 1) ⟨.ok, 0⟩ }

variable {s : State} {taken : Image} {b : Byte} {rest : List HostEvent} (legal : s.params.Legal)

include legal

theorem step_midImage_open (more : taken.length + 1 < imageSamples s.params) :
    step (midImage s taken (instrEvent (.decSample b) :: rest)) = .next (midImage s (taken ++ [b]) rest) := by
  have taken_on := deliverSample_receiving_open (s := midImage s taken rest) legal rfl b more
  rw [step_instrEvent rfl]
  refine (exec_decSample (s := midImage s taken rest) b rfl).trans (congrArg _ (taken_on.trans ?_))
  simp [midImage, respond, List.replicate_succ']

theorem step_midImage_last (last : taken.length + 1 = imageSamples s.params) :
    step (midImage s taken (instrEvent (.decSample b) :: rest)) =
      .next (completeImage (receiving s.dec (taken ++ [b])) (midImage s taken rest)) := by
  rw [step_instrEvent rfl]
  exact (exec_decSample (s := midImage s taken rest) b rfl).trans
    (congrArg _ (deliverSample_receiving_last (s := midImage s taken rest) legal rfl b last))

/-- Samples that leave the image open are taken one by one (R123). -/
theorem run_midImage {todo : Image} (more : taken.length + todo.length < imageSamples s.params) :
    core.run todo.length (midImage s taken ((todo.map .decSample).map instrEvent ++ rest)) =
      .next (midImage s (taken ++ todo) rest) := by
  induction todo generalizing taken with
  | nil =>
    rw [List.append_nil]
    rfl
  | cons b todo ih =>
    rw [List.length_cons] at more
    have next := ih (taken := taken ++ [b]) (by rw [List.length_append, List.length_singleton]; omega)
    rw [List.append_assoc, List.singleton_append] at next
    exact (run_succ todo.length (step_midImage_open legal (by omega))).trans next

/-- The delivery of one image in COLLECT: all commands are answered OK but the last, which completes it (R127). -/
theorem run_deliverImage (collect : s.dec.state = .collect) (full : (taken ++ [b]).length = imageSamples s.params)
    (pending : s.inbox = (deliverImage s.params (taken ++ [b])).map instrEvent ++ rest) :
    core.run (imageSamples s.params + 1) s =
      .next (completeImage (receiving s.dec (taken ++ [b])) (midImage s taken rest)) := by
  rw [List.length_append, List.length_singleton] at full
  have events : (deliverImage s.params (taken ++ [b])).map instrEvent ++ rest =
      instrEvent (.decImgBegin (BitVec.ofNat 16 s.params.n) (BitVec.ofNat 16 s.params.n)) ::
        ((taken.map .decSample).map instrEvent ++ instrEvent (.decSample b) :: rest) := by
    simp [deliverImage]
  have begun := (step_instrEvent (pending.trans events)).trans
    (exec_decImgBegin_side (s := { s with inbox := _ }) legal collect)
  have samples := run_midImage (taken := []) (todo := taken) (rest := instrEvent (.decSample b) :: rest) legal
    (by simpa using full.le)
  rw [← full]
  exact (run_succ _ begun).trans ((run_add 1 samples).trans (run_succ 0 (step_midImage_last legal full)))

end

/-- Settles O41: the image completes with its last sample, in one of the three ways an image can. -/
theorem deliveringAnImageStoresItsPair : Obligations.DeliveringAnImageStoresItsPair := by
  intro s img inv collect full pending
  obtain ⟨taken, b, rfl⟩ := exists_last_sample inv.legal full
  have replied : taken.length + 1 = imageSamples s.params := by simpa using full
  refine ⟨_, run_deliverImage (rest := []) inv.legal collect full (by rw [pending, List.append_nil]), ?_⟩
  obtain ⟨-, hc⟩ | ⟨-, -, hc⟩ | ⟨-, -, hc⟩ :=
    completeImage_cases (receiving s.dec (taken ++ [b])) (midImage s taken [])
  · rw [hc, ← replied]
    exact .inr ⟨rfl, .inl rfl, rfl, rfl⟩
  · rw [hc, ← replied]
    exact .inr ⟨rfl, .inr rfl, rfl, rfl⟩
  · rw [hc, ← replied, List.replicate_succ', ← List.append_assoc]
    exact .inl ⟨rfl, rfl, rfl⟩

end Sys2Proof.Machine
end

section
/-! PROOFS. The run of the decoder against the reference reassembler, and that it does not see the order of its images
(R128, R129). -/

namespace Sys2Proof.Machine

/-! ## Between two images -/

/-- All the images carry one identifier. -/
abbrev OneIdentifier (images : List Image) : Prop :=
  ∀ img ∈ images, ∀ img' ∈ images, (parseImage img).1 = (parseImage img').1

theorem not_oneIdentifier_append {images more : List Image} (h : ¬ OneIdentifier images) :
    ¬ OneIdentifier (images ++ more) :=
  fun one => h fun a ha b hb => one a (List.mem_append_left _ ha) b (List.mem_append_left _ hb)

/-- What a run of the decoder holds between two images: the parsed pairs of those delivered, and the identifier that
every other of them must have when the run is strict (R29, R124). -/
structure Collecting (p : Params) (strict : Bool) (images : List Image) (d : Decoder) : Prop where
  state : d.state = .collect
  err : d.err = .noError
  strict_eq : d.strict = strict
  count : d.count.toNat = images.length
  pairs : d.pairs = images.map fun img => (parseImage img).2
  full : ∀ img ∈ images, img.length = imageSamples p
  ref : d.refValid = true → ∃ img ∈ images, (parseImage img).1 = d.refId
  same : strict = true → ∀ img ∈ images, d.refValid = true ∧ (parseImage img).1 = d.refId

namespace Collecting

variable {p : Params} {strict : Bool} {images : List Image} {img : Image} {d : Decoder}

/-- `DEC_START` begins with no image (R121). -/
theorem start (p : Params) (strict : Bool) :
    Collecting p strict [] { Decoder.reset with state := .collect, strict := strict } where
  state := rfl
  err := rfl
  strict_eq := rfl
  count := rfl
  pairs := rfl
  full := nofun
  ref := nofun
  same _ := nofun

theorem stored (h : Collecting p strict images d) : Stored p d where
  length := by rw [h.pairs, h.count, List.length_map]
  chunk := by
    rw [h.pairs]
    rintro sc stored
    obtain ⟨img, mem, rfl⟩ := List.mem_map.1 stored
    show (img.drop 12).length = _
    rw [List.length_drop, h.full img mem, chunkBytes, headerBytes]

theorem store (h : Collecting p strict images d) (legal : p.Legal) (room : images.length < p.maxImages)
    (full : img.length = imageSamples p)
    (matches_ref : ¬ (d.strict = true ∧ d.refValid = true ∧ (parseImage img).1 ≠ d.refId)) :
    Collecting p strict (images ++ [img]) (storeImage (receiving d img)) where
  state := rfl
  err := h.err
  strict_eq := h.strict_eq
  count := by
    have count := h.count
    obtain ⟨-, -, -, max_le⟩ := legal
    show (d.count + 1).toNat = _
    rw [BitVec.toNat_add, List.length_append, count]
    exact Nat.mod_eq_of_lt (by simp; omega)
  pairs := by
    show d.pairs ++ [(parseImage img).2] = _
    rw [h.pairs, List.map_append, List.map_singleton]
  full := by
    simpa [or_imp, forall_and, full] using h.full
  ref _ := by
    show ∃ other ∈ images ++ [img], (parseImage other).1 = if d.refValid = true then d.refId else (parseImage img).1
    split
    next valid =>
      obtain ⟨other, mem, id⟩ := h.ref valid
      exact ⟨other, List.mem_append_left _ mem, id⟩
    next => exact ⟨img, by simp, rfl⟩
  same isStrict other mem := by
    refine ⟨rfl, ?_⟩
    show (parseImage other).1 = if d.refValid = true then d.refId else (parseImage img).1
    obtain old | new := List.mem_append.1 mem
    · obtain ⟨valid, id⟩ := h.same isStrict other old
      rw [if_pos valid, id]
    · rw [List.mem_singleton.1 new]
      split
      next valid =>
        exact not_not.1 fun differs => matches_ref ⟨h.strict_eq.trans isStrict, valid, differs⟩
      next => rfl

/-- The end of one more image while the store has room: it is stored, or its identifier is not the run's (R124). -/
theorem completeImage_cases (h : Collecting p strict images d) (legal : p.Legal) (room : images.length < p.maxImages)
    (full : img.length = imageSamples p) {s : State} (params : s.params = p) :
    (Collecting p strict (images ++ [img]) (storeImage (receiving d img)) ∧
        completeImage (receiving d img) s = respond .ok 0 { s with dec := storeImage (receiving d img) }) ∨
      ((strict = true ∧ ¬ OneIdentifier (images ++ [img])) ∧
        completeImage (receiving d img) s = raiseDec .streamIdentifierMismatch s) := by
  obtain ⟨⟨isStrict, valid, differs⟩, hc⟩ | ⟨-, noRoom, -⟩ | ⟨matches_ref, -, hc⟩ :=
    Machine.completeImage_cases (receiving d img) s
  · obtain ⟨other, mem, id⟩ := h.ref valid
    refine .inr ⟨⟨h.strict_eq.symm.trans isStrict, fun one => differs ?_⟩, hc⟩
    exact (one img (by simp) other (List.mem_append_left _ mem)).trans id
  · exact absurd (h.count.symm.trans (noRoom.trans (congrArg Params.maxImages params))) room.ne
  · exact .inl ⟨h.store legal room full matches_ref, hc⟩

end Collecting

/-! ## The commands of a run -/

/-- Images the decoder stores all of: as many as it has room for, and of one identifier when the run is strict. -/
structure Storable (p : Params) (strict : Bool) (images : List Image) : Prop where
  legal : p.Legal
  room : images.length ≤ p.maxImages
  full : ∀ img ∈ images, img.length = imageSamples p
  one : strict = true → OneIdentifier images

theorem Collecting.completeImage_storable {p : Params} {strict : Bool} {images done todo : List Image} {img : Image}
    {d : Decoder} (ok : Storable p strict images) (split : done ++ img :: todo = images)
    (h : Collecting p strict done d) {s : State} (params : s.params = p) :
    Collecting p strict (done ++ [img]) (storeImage (receiving d img)) ∧
      completeImage (receiving d img) s = respond .ok 0 { s with dec := storeImage (receiving d img) } := by
  subst split
  have room := ok.room
  rw [List.length_append, List.length_cons] at room
  refine (h.completeImage_cases ok.legal (by omega) (ok.full img (by simp)) params).resolve_right ?_
  rintro ⟨⟨isStrict, differ⟩, -⟩
  exact not_oneIdentifier_append differ (List.append_cons done img todo ▸ ok.one isStrict)

/-- Where the decoder of a run stands, by the images delivered and the commands to come: between two images, or within
one with its samples from `b` on to come. -/
def Delivering (p : Params) (strict : Bool) (images : List Image) (cmds : List Instr) (d : Decoder) : Prop :=
  (∃ done todo, done ++ todo = images ∧ cmds = todo.flatMap (deliverImage p) ∧ Collecting p strict done d) ∨
  (∃ done taken b more todo before, done ++ (taken ++ b :: more) :: todo = images ∧
    cmds = (b :: more).map .decSample ++ todo.flatMap (deliverImage p) ∧ Collecting p strict done before ∧
    d = receiving before taken)

/-- A run of `images` as far as `cmds` are to come, with nothing emitted yet. -/
def DeliveringWith (p : Params) (strict : Bool) (images : List Image) (out : List (List Byte)) (cmds : List Instr)
    (t : State) : Prop :=
  t.params = p ∧ t.decOut = out ∧ Delivering p strict images cmds t.dec

/-- Commands that are not the decoder's leave the parameters, the decoder and `DEC_OUT` (R18, R58). -/
theorem exec_keeps_decoder {i : Instr} {s t : State} (other : decoderInstr i = false) (h : exec i s = .next t) :
    t.params = s.params ∧ t.dec = s.dec ∧ t.decOut = s.decOut := by
  cases he : encoderInstr i with
  | true =>
    have effect := EncoderEffect.of_exec he h
    exact ⟨effect.params, effect.dec, effect.decOut⟩
  | false =>
    obtain ⟨regs, r, w, rfl⟩ := exec_hostAccess he other h
    exact ⟨rfl, rfl, rfl⟩

/-- Each command of a run's deliveries answers OK and goes on with it (R122 to R124). -/
theorem Delivering.exec {p : Params} {strict : Bool} {images : List Image} {i : Instr} {cmds : List Instr}
    {s t : State} (ok : Storable p strict images) (params : s.params = p)
    (h : Delivering p strict images (i :: cmds) s.dec) (hx : exec i s = .next t) :
    t.decOut = s.decOut ∧ Delivering p strict images cmds t.dec ∧ t.replies = s.replies ++ [⟨.ok, 0⟩] := by
  subst params
  obtain ⟨done, _ | ⟨img, todo⟩, split, same, h⟩ | ⟨done, taken, b, more, todo, before, split, same, h, dec⟩ := h
  · cases same
  · cases same
    have full := ok.full img (by simp [← split])
    obtain ⟨b, more, rfl⟩ := List.exists_cons_of_length_pos (full ▸ imageSamples_pos ok.legal)
    cases (exec_decImgBegin_side ok.legal h.state).symm.trans hx
    exact ⟨rfl, .inr ⟨done, [], b, more, todo, s.dec, split, rfl, h, rfl⟩, rfl⟩
  · cases same
    have full := ok.full (taken ++ b :: more) (by simp [← split])
    rw [List.length_append, List.length_cons] at full
    cases (exec_decSample b (by rw [dec]; rfl)).symm.trans hx
    cases more with
    | nil =>
      obtain ⟨stored, hc⟩ := h.completeImage_storable ok split (s := s) rfl
      rw [deliverSample_receiving_last ok.legal dec b (by simpa using full), hc]
      exact ⟨rfl, .inl ⟨done ++ [taken ++ [b]], todo, by rw [List.append_assoc]; exact split, rfl, stored⟩, rfl⟩
    | cons c more =>
      rw [deliverSample_receiving_open ok.legal dec b (by rw [List.length_cons] at full; omega)]
      have split' : done ++ (taken ++ [b] ++ c :: more) :: todo = images := by rw [List.append_assoc]; exact split
      exact ⟨rfl, .inr ⟨done, taken ++ [b], c, more, todo, before, split', rfl, h, rfl⟩, rfl⟩

/-- Whatever comes between the deliveries of a run leaves it where it stands, and each of them goes on with it. -/
theorem runInvariant_deliveringWith {p : Params} {strict : Bool} {images : List Image} (ok : Storable p strict images)
    (out : List (List Byte)) : RunInvariant decoderInstr (DeliveringWith p strict images out) where
  inbox h _ := h
  illegal h := h
  other := by
    rintro cmds i t u ⟨params, out, h⟩ other hx
    obtain ⟨params', dec, out'⟩ := exec_keeps_decoder other hx
    exact ⟨params'.trans params, out'.trans out, dec ▸ h⟩
  own := by
    rintro cmds i t u ⟨params, out, h⟩ - hx
    obtain ⟨out', goesOn, replied⟩ := h.exec ok params hx
    exact ⟨⟨(exec_inbox_params hx).2.trans params, out'.trans out, goesOn⟩, replied⟩

/-- With no command to come, all the images are collected. -/
theorem Delivering.finished {p : Params} {strict : Bool} {images : List Image} {d : Decoder}
    (h : Delivering p strict images [] d) : Collecting p strict images d := by
  obtain ⟨done, _ | ⟨img, todo⟩, split, same, h⟩ | ⟨done, taken, b, more, todo, before, split, same, h, dec⟩ := h
  · rw [← split, List.append_nil]
    exact h
  · cases same
  · cases same

/-! ## The end of a run -/

/-- `DEC_FINALIZE` has ended a run with the answer `r`, given as the reply `last`; `out` was emitted before (R125). -/
structure FinalizedAs (out : List (List Byte)) (r : Except ErrorCode (List Byte)) (last : Reply) (t : State) : Prop where
  file : ∀ file, r = .ok file →
    t.decOut = out ++ [file] ∧ t.dec.state = .done ∧ t.dec.err = .noError ∧ last = ⟨.ok, 0⟩
  error : ∀ e, r = .error e → t.decOut = out ∧ t.dec.state = .error ∧ t.dec.err = e ∧ last = ⟨.error, 0⟩

/-- `DEC_FINALIZE` of collected images answers what the reference reassembler does (R125, R128). -/
theorem Collecting.finalizeRun {strict : Bool} {images : List Image} {s : State}
    (h : Collecting s.params strict images s.dec) :
    ∃ last, (finalizeRun s).replies = s.replies ++ [last] ∧
      FinalizedAs s.decOut (decodeImages (images.map fun img => (parseImage img).2)) last (finalizeRun s) := by
  rw [← h.pairs]
  cases decoded : decodeImages s.dec.pairs with
  | ok file =>
    rw [finalizeRun_of_decodeImages_ok h.stored decoded]
    exact ⟨_, rfl, by rintro _ ⟨⟩; exact ⟨rfl, rfl, h.err, rfl⟩, nofun⟩
  | error e =>
    rw [finalizeRun_of_decodeImages_error h.stored decoded]
    exact ⟨_, rfl, nofun, by rintro _ ⟨⟩; exact ⟨rfl, rfl, rfl, rfl⟩⟩

theorem step_decFinalize {s : State} {rest : List HostEvent} (collect : s.dec.state = .collect)
    (pending : s.inbox = instrEvent .decFinalize :: rest) :
    step s = .next (finalizeRun { s with inbox := rest }) :=
  (step_instrEvent pending).trans (exec_decFinalize (s := { s with inbox := rest }) collect)

theorem step_decStart {s : State} {rest : List HostEvent} (state : s.dec.state = .idle ∨ s.dec.state = .done)
    (pending : s.inbox = instrEvent .decStart :: rest) :
    step s = .next (startDecoderRun { s with inbox := rest }) :=
  (step_instrEvent pending).trans (exec_decStart (s := { s with inbox := rest }) state)

/-- Settles O43: with all deliveries made the decoder holds the parsed pairs, which `DEC_FINALIZE` reassembles. -/
theorem decoderRunEqualsTheReference : Obligations.DecoderRunEqualsTheReference := by
  intro s evs rest images legal state room full one noReset cmds pending
  have ok : Storable s.params s.host.ctrlStrict images := ⟨legal, room, full, one⟩
  have started := step_decStart state pending
  obtain ⟨u, replies, run, inbox, ⟨params, out, delivered⟩, replied, oks⟩ :=
    (runInvariant_deliveringWith ok s.decOut).run (rest := instrEvent .decFinalize :: rest)
      (s := startDecoderRun { s with inbox := _ }) noReset rfl
      ⟨rfl, rfl, .inl ⟨[], images, rfl, cmds, .start s.params s.host.ctrlStrict⟩⟩
  have collected := delivered.finished
  obtain ⟨last, finalReply, answers⟩ :=
    Collecting.finalizeRun (s := { u with inbox := rest }) (params.symm ▸ collected)
  refine ⟨finalizeRun { u with inbox := rest }, ⟨.ok, 0⟩ :: replies, last, ?_, ?_, ?_,
    repliedOk_cons (fun _ _ _ => rfl) oks, ?_, ?_⟩
  · exact (run_succ _ started).trans ((run_add 1 run).trans (run_succ 0 (step_decFinalize collected.state inbox)))
  · exact (DecoderEffect.finalizeRun { u with inbox := rest }).inbox
  · rw [finalReply, replied]
    simp [startDecoderRun, respond]
  · intro file decoded
    obtain ⟨out', done, -, reply⟩ := answers.file file decoded
    exact ⟨out'.trans (congrArg (· ++ [file]) out), done, reply⟩
  · intro e decoded
    obtain ⟨out', rest⟩ := answers.error e decoded
    exact ⟨out'.trans out, rest⟩

/-! ## A run whose images may differ in their identifiers -/

/-- What a run of the decoder gives: in strict mode the images must carry one identifier, and then the reference
reassembler decides (R124, R129). -/
def runOutcome (strict : Bool) (images : List Image) : Except ErrorCode (List Byte) :=
  if strict = true ∧ ¬ OneIdentifier images then .error .streamIdentifierMismatch
  else decodeImages (images.map fun img => (parseImage img).2)

theorem runOutcome_congr (strict : Bool) {images images' : List Image} (perm : images.Perm images') :
    runOutcome strict images = runOutcome strict images' := by
  have one : OneIdentifier images ↔ OneIdentifier images' := by simp only [OneIdentifier, perm.mem_iff]
  rw [runOutcome, runOutcome, decodeIgnoresTheOrderOfImages _ _ (perm.map _)]
  simp only [one]

theorem Collecting.one {p : Params} {strict : Bool} {images : List Image} {d : Decoder}
    (h : Collecting p strict images d) (isStrict : strict = true) : OneIdentifier images := by
  intro img mem img' mem'
  rw [(h.same isStrict img mem).2, (h.same isStrict img' mem').2]

/-- A decoder in ERROR refuses every command but `DEC_CLEAR` (R146). -/
theorem exec_decoder_error {i : Instr} {s : State} (own : decoderInstr i = true) (notClear : i ≠ .decClear)
    (error : s.dec.state = .error) : exec i s = .next (engineInError s) := by
  cases i with
  | decStart | decImgBegin | decSample | decFinalize => exact congrArg _ (if_pos error)
  | decClear => exact absurd rfl notClear
  | _ => cases own

/-- Commands to a decoder in ERROR leave it and its channel as they are (R146). -/
theorem run_decoder_error {cmds : List Instr} {s : State} {rest : List HostEvent}
    (own : ∀ i ∈ cmds, decoderInstr i = true ∧ i ≠ .decClear) (error : s.dec.state = .error)
    (pending : s.inbox = cmds.map instrEvent ++ rest) :
    ∃ t, core.run cmds.length s = .next t ∧ t.inbox = rest ∧ t.dec = s.dec ∧ t.decOut = s.decOut := by
  induction cmds generalizing s with
  | nil => exact ⟨s, rfl, pending, rfl, rfl⟩
  | cons i cmds ih =>
    obtain ⟨⟨ownHead, notClear⟩, own⟩ := List.forall_mem_cons.1 own
    have refused := (step_instrEvent pending).trans (exec_decoder_error ownHead notClear error)
    obtain ⟨t, run, inbox, dec, out⟩ := ih (s := engineInError { s with inbox := _ }) own error rfl
    exact ⟨t, (run_succ _ refused).trans run, inbox, dec, out⟩

theorem decoderInstr_of_mem_deliverImage {p : Params} {img : Image} {i : Instr} (mem : i ∈ deliverImage p img) :
    decoderInstr i = true ∧ i ≠ .decClear := by
  obtain rfl | mem := List.mem_cons.1 mem
  · exact ⟨rfl, nofun⟩
  · obtain ⟨b, -, rfl⟩ := List.mem_map.1 mem
    exact ⟨rfl, nofun⟩

/-- In strict mode an image had another identifier than the first, and the decoder is in ERROR (R124). -/
def Mismatched (strict : Bool) (images : List Image) (d : Decoder) : Prop :=
  d.state = .error ∧ d.err = .streamIdentifierMismatch ∧ strict = true ∧ ¬ OneIdentifier images

/-- The delivery of images one after another ends with all of them collected or with a mismatch (R124, R127). -/
theorem Collecting.run {p : Params} {strict : Bool} {done todo : List Image} {s : State} {rest : List HostEvent}
    (params : s.params = p) (legal : p.Legal) (h : Collecting p strict done s.dec)
    (room : done.length + todo.length ≤ p.maxImages) (full : ∀ img ∈ todo, img.length = imageSamples p)
    (pending : s.inbox = (todo.flatMap (deliverImage p)).map instrEvent ++ rest) :
    ∃ t, core.run (todo.flatMap (deliverImage p)).length s = .next t ∧ t.inbox = rest ∧ t.decOut = s.decOut ∧
      (Collecting t.params strict (done ++ todo) t.dec ∨ Mismatched strict (done ++ todo) t.dec) := by
  induction todo generalizing s done with
  | nil => exact ⟨s, rfl, pending, rfl, .inl (by rwa [List.append_nil, params])⟩
  | cons img todo ih =>
    obtain ⟨fullHead, fullTail⟩ := List.forall_mem_cons.1 full
    obtain ⟨taken, b, rfl⟩ := exists_last_sample legal fullHead
    rw [List.length_cons] at room
    rw [List.flatMap_cons, List.map_append, List.append_assoc] at pending
    have split : done ++ (taken ++ [b]) :: todo = done ++ [taken ++ [b]] ++ todo := List.append_cons _ _ _
    have commands : (deliverImage p (taken ++ [b])).length = imageSamples p + 1 := by
      rw [deliverImage, List.length_cons, List.length_map, fullHead]
    have delivered := run_deliverImage (params ▸ legal) h.state (params ▸ fullHead) (params ▸ pending)
    rw [List.flatMap_cons, List.length_append, commands, split]
    rw [params] at delivered
    obtain ⟨stored, hc⟩ | ⟨⟨isStrict, differ⟩, hc⟩ :=
      h.completeImage_cases legal (by omega) fullHead (s := midImage s taken _) params
    · rw [hc] at delivered
      obtain ⟨t, run, ends⟩ := ih (s := respond .ok 0 { midImage s taken _ with dec := storeImage _ }) params stored
        (by rw [List.length_append, List.length_singleton]; omega) fullTail rfl
      exact ⟨t, (run_add _ delivered).trans run, ends⟩
    · rw [hc] at delivered
      have own : ∀ i ∈ todo.flatMap (deliverImage p), decoderInstr i = true ∧ i ≠ .decClear := by
        intro i mem
        obtain ⟨img, -, mem⟩ := List.mem_flatMap.1 mem
        exact decoderInstr_of_mem_deliverImage mem
      obtain ⟨t, run, inbox, dec, out⟩ :=
        run_decoder_error (s := raiseDec .streamIdentifierMismatch (midImage s taken _)) own rfl rfl
      exact ⟨t, (run_add _ delivered).trans run, inbox, out,
        .inr (dec ▸ ⟨rfl, rfl, isStrict, not_oneIdentifier_append differ⟩)⟩

/-- The answer of a run ends it in one way. -/
theorem FinalizedAs.unique {out : List (List Byte)} {r : Except ErrorCode (List Byte)} {last last' : Reply}
    {t t' : State} (h : FinalizedAs out r last t) (h' : FinalizedAs out r last' t') :
    t.decOut = t'.decOut ∧ t.dec.state = t'.dec.state ∧ t.dec.err = t'.dec.err := by
  cases r with
  | ok file =>
    obtain ⟨out, state, err, -⟩ := h.file file rfl
    obtain ⟨out', state', err', -⟩ := h'.file file rfl
    exact ⟨out.trans out'.symm, state.trans state'.symm, err.trans err'.symm⟩
  | error e =>
    obtain ⟨out, state, err, -⟩ := h.error e rfl
    obtain ⟨out', state', err', -⟩ := h'.error e rfl
    exact ⟨out.trans out'.symm, state.trans state'.symm, err.trans err'.symm⟩

/-- A run with nothing in between ends with its outcome, whether its images are of one identifier or not (R129). -/
theorem run_finalizedAs {s : State} {images : List Image} (legal : s.params.Legal)
    (state : s.dec.state = .idle ∨ s.dec.state = .done) (room : images.length ≤ s.params.maxImages)
    (full : ∀ img ∈ images, img.length = imageSamples s.params)
    (pending : s.inbox =
      (.decStart :: (images.flatMap (deliverImage s.params) ++ [.decFinalize])).map instrEvent) :
    ∃ t last, core.run s.inbox.length s = .next t ∧
      FinalizedAs s.decOut (runOutcome s.host.ctrlStrict images) last t := by
  rw [List.map_cons, List.map_append] at pending
  let begun := startDecoderRun
    { s with inbox := (images.flatMap (deliverImage s.params)).map instrEvent ++ [instrEvent .decFinalize] }
  obtain ⟨u, run, inbox, out, ends⟩ :=
    Collecting.run (p := s.params) (todo := images) (s := begun) rfl legal (.start s.params s.host.ctrlStrict)
      (by rwa [List.length_nil, Nat.zero_add]) full rfl
  have whole {t : State} (finalized : step u = .next t) : core.run s.inbox.length s = .next t := by
    rw [pending, List.length_cons, List.length_append, List.length_map]
    exact (run_succ _ (step_decStart state pending)).trans ((run_add 1 run).trans (run_succ 0 finalized))
  rw [List.nil_append] at ends
  obtain collected | ⟨error, err, isStrict, differ⟩ := ends
  · obtain ⟨last, -, answers⟩ := Collecting.finalizeRun (s := { u with inbox := [] }) collected
    refine ⟨_, last, whole (step_decFinalize collected.state inbox), ?_⟩
    rw [runOutcome, if_neg fun ⟨isStrict, differ⟩ => differ (collected.one isStrict)]
    exact out ▸ answers
  · refine ⟨_, ⟨.error, 0⟩, whole ((step_instrEvent inbox).trans (exec_decoder_error rfl nofun error)), ?_⟩
    rw [runOutcome, if_pos ⟨isStrict, differ⟩]
    exact ⟨nofun, by rintro _ ⟨⟩; exact ⟨out, error, err, rfl⟩⟩

/-- Settles O44: the outcome of a run does not see the order of its images. -/
theorem decoderRunIgnoresTheOrderOfImages : Obligations.DecoderRunIgnoresTheOrderOfImages := by
  intro s images images' legal state room full perm events
  obtain ⟨t, last, run, answers⟩ := run_finalizedAs (s := { s with inbox := events images }) legal state room full rfl
  obtain ⟨t', last', run', answers'⟩ := run_finalizedAs (s := { s with inbox := events images' }) legal state
    (perm.length_eq ▸ room) (fun img mem => full img (perm.mem_iff.2 mem)) rfl
  exact ⟨t, t', run, run', answers.unique (runOutcome_congr _ perm ▸ answers')⟩

end Sys2Proof.Machine
end

section
/-! PROOFS. What the host access commands answer and write, with the registers as numbers (R136 to R138). -/

namespace Sys2Proof.Machine

/-! ## `NOP` -/

/-- Settles O11: the meaning of `NOP` is its reply. -/
theorem nopOnlyReplies : Obligations.NopOnlyReplies := fun _ => rfl

/-! ## The words of the register map as numbers -/

theorem lowHalf_eq_ofNat (v : DWord) : lowHalf v = BitVec.ofNat 32 (v.toNat % 2 ^ 32) := by
  rw [← lowHalf_toNat, BitVec.ofNat_toNat, BitVec.setWidth_eq]

theorem highHalf_eq_ofNat (v : DWord) : highHalf v = BitVec.ofNat 32 (v.toNat / 2 ^ 32) := by
  rw [← highHalf_toNat, BitVec.ofNat_toNat, BitVec.setWidth_eq]

theorem joinHalves_eq_ofNat (hi lo : Word) : joinHalves hi lo = BitVec.ofNat 64 (hi.toNat * 2 ^ 32 + lo.toNat) := by
  rw [← joinHalves_toNat, BitVec.ofNat_toNat, BitVec.setWidth_eq]

theorem setLowHalf_eq_ofNat (v : DWord) (w : Word) :
    setLowHalf v w = BitVec.ofNat 64 (v.toNat / 2 ^ 32 * 2 ^ 32 + w.toNat) := by
  rw [setLowHalf, joinHalves_eq_ofNat, highHalf_toNat]

theorem setHighHalf_eq_ofNat (v : DWord) (w : Word) :
    setHighHalf v w = BitVec.ofNat 64 (w.toNat * 2 ^ 32 + v.toNat % 2 ^ 32) := by
  rw [setHighHalf, joinHalves_eq_ofNat, lowHalf_toNat]

theorem ctrlWord_eq_ofNat (strict : Bool) : ctrlWord strict = BitVec.ofNat 32 strict.toNat := by cases strict <;> rfl

/-- `ENC_STATUS` as a number: ERR has weight 16 (R23). -/
theorem encStatusWord_eq_ofNat (e : Encoder) :
    encStatusWord e = BitVec.ofNat 32 ((encStateCode e.state).toNat + 16 * (errorCodeBits e.err).toNat) := by
  unfold encStatusWord
  generalize errorCodeBits e.err = err, encStateCode e.state = state
  decide +revert

/-- `DEC_STATUS` as a number: ERR has weight 16, STRICT 256 and REF_VALID 512 (R24). -/
theorem decStatusWord_eq_ofNat (d : Decoder) :
    decStatusWord d = BitVec.ofNat 32 ((decStateCode d.state).toNat + 16 * (errorCodeBits d.err).toNat +
      256 * d.strict.toNat + 512 * d.refValid.toNat) := by
  unfold decStatusWord
  generalize errorCodeBits d.err = err, decStateCode d.state = state, d.strict = strict, d.refValid = refValid
  decide +revert

/-! ## `RD` -/

theorem exec_rd_regAddress (r : Reg) (s : State) :
    exec (.rd (regAddress r)) s = .next (respond .ok (readReg s r) s) :=
  execRd_mapped _ r s (regAt_regAddress r)

theorem exec_rd_unmapped {a : Byte} (s : State) (h : ∀ r : Reg, regAddress r ≠ a) :
    exec (.rd a) s = .next (illegal s) :=
  execRd_unmapped a s ((regAt_eq_none a).2 h)

/-- Settles O12: the map lists each register's address with the number it reads. -/
theorem readAnswersTheRegisterMap : Obligations.ReadAnswersTheRegisterMap := by
  intro s map
  have listed : map.map (fun av => (av.1, BitVec.ofNat 32 av.2)) = Reg.all.map fun r => (regAddress r, readReg s r) := by
    simp only [map, Reg.all, List.map_cons, List.map_nil, regAddress, readReg, lowHalf_eq_ofNat, highHalf_eq_ofNat,
      ctrlWord_eq_ofNat, encStatusWord_eq_ofNat, decStatusWord_eq_ofNat, BitVec.ofNat_toNat, BitVec.setWidth_eq]
    rfl -- the numbers of PARAM_VER and PARAM_P are those of the model by definition
  have addresses : map.map Prod.fst = Reg.all.map regAddress := rfl
  constructor
  · intro av mem
    obtain ⟨r, -, reads⟩ := List.mem_map.1 (listed ▸ List.mem_map_of_mem mem)
    obtain ⟨address, word⟩ := Prod.mk.inj reads
    rw [← address, ← word]
    exact exec_rd_regAddress r s
  · intro a unmapped
    rw [addresses] at unmapped
    exact exec_rd_unmapped s fun r address => unmapped (List.mem_map.2 ⟨r, mem_regAll r, address⟩)

/-! ## `WR` -/

theorem exec_wr_regAddress {s : State} {v : Word} {r : Reg} {h : HostRegs} (hw : writeReg s.host v r = some h) :
    exec (.wr (regAddress r) v) s = .next (respond .ok 0 { s with host := h }) := by
  simp [exec, execWr, hw]

/-- A `WR` that finds no writable register at its address is ILLEGAL (R138). -/
theorem exec_wr_not_writable {a : Byte} (s : State) (v : Word)
    (h : ∀ r : Reg, regAccess r = .readWrite → regAddress r ≠ a) : exec (.wr a v) s = .next (illegal s) := by
  obtain ⟨r, -, ha, -, writable, -⟩ | ⟨-, -, hx⟩ := execWr_cases a v s
  · exact absurd (regAddress_of_regAt a r ha) (h r writable)
  · exact hx

theorem regAddress_mem_of_readWrite {r : Reg} (h : regAccess r = .readWrite) :
    regAddress r ∈ ([0x04, 0x08, 0x09, 0x0A, 0x0B] : List Byte) := by
  cases r with
  | ctrl | encIdLo | encIdHi | encLenLo | encLenHi => decide
  | _ => cases h

/-- Settles O14: the five writable registers one by one, with the joined halves as numbers. -/
theorem writeUpdatesOnlyItsRegister : Obligations.WriteUpdatesOnlyItsRegister := by
  intro s v done
  simp only [← setLowHalf_eq_ofNat, ← setHighHalf_eq_ofNat]
  refine ⟨exec_wr_regAddress (r := .ctrl) rfl, exec_wr_regAddress (r := .encIdLo) rfl,
    exec_wr_regAddress (r := .encIdHi) rfl, exec_wr_regAddress (r := .encLenLo) rfl,
    exec_wr_regAddress (r := .encLenHi) rfl, fun a other => ?_⟩
  refine exec_wr_not_writable s v fun r writable address => other ?_
  exact address ▸ regAddress_mem_of_readWrite writable

end Sys2Proof.Machine
end

section
/-! PROOFS. How commands that do not answer OK end (R141, R142, R148), that an engine in ERROR is left as it is by all but
its CLEAR (R146), and that its CLEAR and reset are the only ways out (R147). -/

namespace Sys2Proof.Machine

/-! ## An engine in ERROR -/

/-- An encoder in ERROR refuses every command but `ENC_CLEAR` (R146). -/
theorem exec_encoder_error {i : Instr} {s : State} (own : encoderInstr i = true) (notClear : i ≠ .encClear)
    (error : s.enc.state = .error) : exec i s = .next (engineInError s) := by
  cases i with
  | encStart | encPush => exact congrArg _ (if_pos error)
  | encClear => exact absurd rfl notClear
  | _ => cases own

/-- Settles O23: each engine in ERROR refuses its commands. -/
theorem errorIsSticky : Obligations.ErrorIsSticky := by
  rintro i s (⟨own, notClear, error⟩ | ⟨own, notClear, error⟩)
  · exact exec_encoder_error own notClear error
  · exact exec_decoder_error own notClear error

/-! ## The ways out of ERROR -/

/-- An encoder in ERROR is kept by its own commands, which are refused, and by the others, which do not address it. -/
theorem exec_keeps_encoder_error {i : Instr} {s t : State} (notClear : i ≠ .encClear) (error : s.enc.state = .error)
    (h : exec i s = .next t) : t.enc = s.enc := by
  cases own : encoderInstr i with
  | true => cases (exec_encoder_error own notClear error).symm.trans h; rfl
  | false => exact (exec_keeps_encoder own h).2.1

/-- A decoder in ERROR is kept by its own commands, which are refused, and by the others, which do not address it. -/
theorem exec_keeps_decoder_error {i : Instr} {s t : State} (notClear : i ≠ .decClear) (error : s.dec.state = .error)
    (h : exec i s = .next t) : t.dec = s.dec := by
  cases own : decoderInstr i with
  | true => cases (exec_decoder_error own notClear error).symm.trans h; rfl
  | false => exact (exec_keeps_decoder own h).2.1

/-- Settles O24: waiting and an illegal word touch no engine, a reset clears both, and a command is a CLEAR of the engine
or keeps it in its ERROR. -/
theorem errorIsLeftOnlyByClearOrReset : Obligations.ErrorIsLeftOnlyByClearOrReset := by
  intro s t h next clears
  obtain ⟨pending, hs⟩ | ⟨rest, pending, hs⟩ | ⟨cmd, wdata, rest, why, pending, decoded, hs⟩ |
    ⟨cmd, wdata, rest, i, pending, decoded, hs⟩ := step_cases s
  · have spells (j : Instr) : ¬ clears j := by simp [clears, next, pending]
    cases hs.symm.trans h
    exact ⟨fun c => absurd c (spells _), fun c => absurd c (spells _), fun _ _ => rfl, fun _ _ => rfl⟩
  · have spells (j : Instr) : clears j := by simp [clears, next, pending]
    cases hs.symm.trans h
    exact ⟨fun _ => ⟨rfl, rfl⟩, fun _ => ⟨rfl, rfl⟩, fun _ c => absurd (spells _) c, fun _ c => absurd (spells _) c⟩
  · have spells (j : Instr) : ¬ clears j := by simp [clears, next, pending, eventInstr, decoded]
    cases hs.symm.trans h
    exact ⟨fun c => absurd c (spells _), fun c => absurd c (spells _), fun _ _ => rfl, fun _ _ => rfl⟩
  · have spells (j : Instr) : clears j ↔ i = j := by simp [clears, next, pending, eventInstr, decoded]
    have taken := hs.symm.trans h
    refine ⟨fun c => ?_, fun c => ?_, fun error c => ?_, fun error c => ?_⟩
    · cases (spells _).1 c; cases taken; exact ⟨rfl, rfl⟩
    · cases (spells _).1 c; cases taken; exact ⟨rfl, rfl⟩
    · exact exec_keeps_encoder_error (s := { s with inbox := rest }) (fun hi => c ((spells _).2 hi)) error taken
    · exact exec_keeps_decoder_error (s := { s with inbox := rest }) (fun hi => c ((spells _).2 hi)) error taken

/-! ## How a command ends -/

/-- The ends of the command `i` from `s`: an OK reply, a reply and nothing else, or error entry with a code in the engine
it addresses, which was not in ERROR (R141, R142, R146, R148). -/
inductive Completion (i : Instr) (s : State) : State → Prop
  | ok {t : State} {w : Word} (replies : t.replies = s.replies ++ [⟨.ok, w⟩]) : Completion i s t
  | replyOnly (r : Resp) (w : Word) : Completion i s (respond r w s)
  | encoderError (own : encoderInstr i = true) (ready : s.enc.state ≠ .error) {e : ErrorCode} (code : e ≠ .noError) :
      Completion i s (raiseEnc e s)
  | decoderError (own : decoderInstr i = true) (ready : s.dec.state ≠ .error) {e : ErrorCode} (code : e ≠ .noError) :
      Completion i s (raiseDec e s)

namespace Completion

variable {i : Instr} {s t : State}

theorem of_startEncoderRun (own : encoderInstr i = true) (ready : s.enc.state ≠ .error) :
    Completion i s (startEncoderRun s) := by
  by_cases long : totalImages s.params s.host.encLenReg.toNat > maxSequence
  · exact startEncoderRun_long s long ▸ encoderError own ready nofun
  · rw [startEncoderRun_fits s long]
    refine ok (w := 0) ?_
    rw [respond_replies, apply_ite State.replies, finishRun_replies, begunRun_replies, ite_self]

theorem of_pushFileByte (b : Byte) : Completion i s (pushFileByte b s) := by
  rw [pushFileByte_eq]
  refine ok (w := 0) ?_
  rw [respond_replies, apply_ite State.replies, finishRun_replies, pushedRun_replies, ite_self]

theorem of_encoderCommand (own : encoderInstr i = true) (legal : EncState → Bool) {body : State → State}
    (h : s.enc.state ≠ .error → Completion i s (body s)) : Completion i s (encoderCommand legal body s) := by
  obtain ⟨-, hc⟩ | ⟨ready, -, hc⟩ | ⟨ready, -, hc⟩ := encoderCommand_cases legal body s
  · exact hc ▸ replyOnly _ _
  · exact hc ▸ h ready
  · exact hc ▸ encoderError own ready nofun

theorem of_beginImage (own : decoderInstr i = true) (ready : s.dec.state ≠ .error) (width height : Half) :
    Completion i s (beginImage width height s) := by
  obtain ⟨-, hc⟩ | ⟨-, hc⟩ := beginImage_cases width height s
  · exact hc ▸ decoderError own ready nofun
  · exact hc ▸ ok rfl

theorem of_completeImage (own : decoderInstr i = true) (ready : s.dec.state ≠ .error) (d : Decoder) :
    Completion i s (completeImage d s) := by
  obtain ⟨-, hc⟩ | ⟨-, -, hc⟩ | ⟨-, -, hc⟩ := completeImage_cases d s
  · exact hc ▸ decoderError own ready nofun
  · exact hc ▸ decoderError own ready nofun
  · exact hc ▸ ok rfl

theorem of_deliverSample (own : decoderInstr i = true) (ready : s.dec.state ≠ .error) (b : Byte) :
    Completion i s (deliverSample b s) := by
  by_cases more : s.dec.scnt.toNat + 1 < imageSamples s.params
  · exact deliverSample_open b s more ▸ ok rfl
  · exact deliverSample_complete b s more ▸ of_completeImage own ready _

theorem of_finalizeRun (own : decoderInstr i = true) (ready : s.dec.state ≠ .error) :
    Completion i s (finalizeRun s) := by
  obtain ⟨e, failed, hc⟩ | ⟨size, file, -, hc⟩ := finalizeRun_cases s
  · exact hc ▸ decoderError own ready (reassemble_error_ne _ _ e failed)
  · exact hc ▸ ok rfl

theorem of_decoderCommand (own : decoderInstr i = true) (legal : DecState → Bool) {body : State → State}
    (h : s.dec.state ≠ .error → Completion i s (body s)) : Completion i s (decoderCommand legal body s) := by
  obtain ⟨-, hc⟩ | ⟨ready, -, hc⟩ | ⟨ready, -, hc⟩ := decoderCommand_cases legal body s
  · exact hc ▸ replyOnly _ _
  · exact hc ▸ h ready
  · exact hc ▸ decoderError own ready nofun

/-- Every command ends in one of the four ways. -/
theorem of_exec (h : exec i s = .next t) : Completion i s t := by
  cases i with
  | nop => cases h; exact ok rfl
  | rd a =>
    cases ha : regAt a with
    | none => cases (execRd_unmapped a s ha).symm.trans h; exact replyOnly _ _
    | some r => cases (execRd_mapped a r s ha).symm.trans h; exact ok rfl
  | wr a v =>
    obtain ⟨-, regs, -, -, -, hw⟩ | ⟨-, -, hw⟩ := execWr_cases a v s
    · cases hw.symm.trans h; exact ok rfl
    · cases hw.symm.trans h; exact replyOnly _ _
  | encStart => cases h; exact of_encoderCommand rfl _ (of_startEncoderRun rfl)
  | encPush b => cases h; exact of_encoderCommand rfl _ fun _ => of_pushFileByte b
  | encClear => cases h; exact ok rfl
  | decStart => cases h; exact of_decoderCommand rfl _ fun _ => ok rfl
  | decImgBegin width height => cases h; exact of_decoderCommand rfl _ fun ready => of_beginImage rfl ready width height
  | decSample b => cases h; exact of_decoderCommand rfl _ fun ready => of_deliverSample rfl ready b
  | decFinalize => cases h; exact of_decoderCommand rfl _ (of_finalizeRun rfl)
  | decClear => cases h; exact ok rfl

end Completion

/-- Settles O22: of the ways a command can end, those without an OK reply are its reply alone and error entry. -/
theorem refusedCommandsKeepNoEffect : Obligations.RefusedCommandsKeepNoEffect := by
  intro i s t r h replies notOk
  cases Completion.of_exec h with
  | ok okReply =>
    cases List.append_cancel_left (okReply.symm.trans replies)
    exact absurd rfl notOk
  | replyOnly =>
    cases List.append_cancel_left replies
    exact .inl rfl
  | encoderError own ready code =>
    cases List.append_cancel_left replies
    exact .inr (.inl ⟨rfl, own, ready, _, code, rfl⟩)
  | decoderError own ready code =>
    cases List.append_cancel_left replies
    exact .inr (.inr ⟨rfl, own, ready, _, code, rfl⟩)

end Sys2Proof.Machine
end

section
/-! PROOFS. Reset puts every field and register at its reset value and begins in the invariants (R160), and it leaves
the state the clearing sequence leaves (R162). -/

namespace Sys2Proof.Machine

/-! ## The invariants at reset -/

theorem stateInv_resetOf {p : Params} (legal : p.Legal) : StateInv (State.resetOf p) where
  legal := legal
  enc := .reset legal
  dec := .reset legal
  images := nofun

/-- The OPEN parameters lie in their ranges, whatever their values (R6, R8). -/
theorem legal_configParams : Config.params.Legal := by
  have side := Config.sideAboveLeast.isLt
  have images := Config.maxImagesAboveLeast.isLt
  simp only [Params.Legal, Config.params]
  omega

/-- Settles O56: no run has begun, so nothing is numbered or reassembled, and the OPEN parameters are legal ones. -/
theorem resetMeetsTheInvariants : Obligations.ResetMeetsTheInvariants := by
  have ofLegal (p : Params) (legal : p.Legal) :
      StateInv (State.resetOf p) ∧ OutputNumbered (State.resetOf p) ∧ OutputSized (State.resetOf p) :=
    ⟨stateInv_resetOf legal, .of_emitted_eq_zero rfl, nofun⟩
  exact ⟨ofLegal, ofLegal Config.params legal_configParams⟩

/-! ## The step of a reset -/

theorem step_reset {s : State} {rest : List HostEvent} (pending : s.inbox = .reset :: rest) :
    step s = .next (applyReset { s with inbox := rest }) := by
  simp only [step, takeEvent_of_cons s _ rest pending]

theorem highHalf_zero : highHalf 0 = 0 := by decide

theorem encStatusWord_reset : encStatusWord Encoder.reset = 0 := by decide

theorem decStatusWord_reset : decStatusWord Decoder.reset = 0 := by decide

/-- The registers behind the four parameters read 0 after a reset (R20, R160). -/
theorem readReg_applyReset (s : State) {r : Reg} (mem : r ∈ Reg.all.drop 4) : readReg (applyReset s) r = 0 := by
  cases r with
  | paramVer | paramN | paramP | paramMaximg => exact absurd mem (by decide)
  | encIdHi | encLenHi | encRemHi | decRefidHi | decSizeHi => exact highHalf_zero
  | encStatus => exact encStatusWord_reset
  | decStatus => exact decStatusWord_reset
  | _ => rfl

/-- Settles O9: the first four registers of the map read the parameters, those behind them 0. -/
theorem resetRestoresEveryResetValue : Obligations.ResetRestoresEveryResetValue := by
  intro s rest pending
  refine ⟨_, step_reset pending, rfl, rfl, rfl, rfl, rfl, rfl, fun av mem => ?_, fun a mem => ?_⟩
  · obtain ⟨reads, -⟩ := readAnswersTheRegisterMap (applyReset { s with inbox := rest })
    exact reads av (List.mem_of_mem_take (i := 4) mem)
  · have mapped : a ∈ (Reg.all.drop 4).map regAddress := mem
    obtain ⟨r, register, rfl⟩ := List.mem_map.1 mapped
    rw [exec_rd_regAddress, readReg_applyReset _ register]
    rfl

/-! ## The clearing sequence -/

/-- Two writes of 0 clear a 64-bit register (R138). -/
theorem setHighHalf_setLowHalf_zero (v : DWord) : setHighHalf (setLowHalf v 0) 0 = 0 := by
  rw [setHighHalf, setLowHalf, lowHalf_joinHalves]
  rfl

/-- The five `WR`s of 0 put the host registers at their reset values (R138, R160). -/
theorem run_writeZeros (s : State) (rest : List HostEvent) :
    ∃ replies, core.run 5
        { s with
          inbox := List.map instrEvent [.wr 0x04 0, .wr 0x08 0, .wr 0x09 0, .wr 0x0A 0, .wr 0x0B 0] ++ rest } =
      .next { s with inbox := rest, host := HostRegs.reset, replies := replies } := by
  rw [run_succ 4 (step_wr (r := .ctrl) rfl rfl), run_succ 3 (step_wr (r := .encIdLo) rfl rfl),
    run_succ 2 (step_wr (r := .encIdHi) rfl rfl), run_succ 1 (step_wr (r := .encLenLo) rfl rfl),
    run_succ 0 (step_wr (r := .encLenHi) rfl rfl)]
  simp only [respond_host, setHighHalf_setLowHalf_zero]
  exact ⟨_, rfl⟩

/-- The two CLEARs put the engines at their reset values (R105, R126). -/
theorem run_clears (s : State) (rest : List HostEvent) :
    ∃ replies, core.run 2 { s with inbox := List.map instrEvent [.encClear, .decClear] ++ rest } =
      .next { s with inbox := rest, enc := Encoder.reset, dec := Decoder.reset, replies := replies } := by
  rw [run_succ 1 (step_instrEvent (i := .encClear) rfl), run_succ 0 (step_instrEvent (i := .decClear) rfl)]
  exact ⟨_, rfl⟩

/-- Settles O10: the writes clear the host registers and the CLEARs the engines, which is a reset but for replies. -/
theorem resetEqualsTheClearingSequence : Obligations.ResetEqualsTheClearingSequence := by
  intro s
  obtain ⟨replies, written⟩ := run_writeZeros s (List.map instrEvent [.encClear, .decClear])
  obtain ⟨_, cleared⟩ := run_clears { s with host := HostRegs.reset, replies := replies } []
  exact ⟨_, _, (run_add 2 written).trans cleared, step_reset rfl, rfl, rfl, rfl, rfl, rfl, rfl,
    fun i => exec_total i _⟩

end Sys2Proof.Machine
end

section
/-! PROOFS. The step with no event pending (R53; notes/assumptions/1.md). -/

namespace Sys2Proof.Machine

/-- Settles O7: there is no event to take, so nothing is decoded, executed or reset. -/
theorem stepWaitsWhenNothingIsPending : Obligations.StepWaitsWhenNothingIsPending := by
  intro s nothing
  simp only [step, takeEvent_of_nil s nothing]

end Sys2Proof.Machine
end
